-- ==== Sys2Proof/Word.lean ====
section
/-! DEFINITION. The word types of the block's ports and registers (spec/30_encoding.md R101 to R105:
every port word has 32 bits, a status word 8; spec/20_memory.md R70: a byte has 8 bits). -/

namespace Sys2Proof

/-- A byte: one location of a buffer, one field of a port word, an address operand or a status
word. -/
abbrev Byte := BitVec 8

/-- A word exchanged on a port (R101 to R105). -/
abbrev Word := BitVec 32

/-- What an index or size register holds: an unsigned number, on which `+` and `-` are mathematical
(R10). That it stays below 2^IDXW is `State.widthsOk` of Sys2Proof/Safety.lean. -/
abbrev Idx := Nat

/-- A bus identifier: what the 8-bit BUS field can name (R103). The buses that exist are those below
NUM_BUSES (R8). -/
abbrev BusId := Fin 256

/-- A driver index: what the 8-bit DRV field can name (R101). The drivers that exist are those below
NUM_DRIVERS (R8). -/
abbrev DrvId := Fin 256

end Sys2Proof
end

