-- ==== Sys2Proof/Config.lean ====
section
/-! DEFINITION. The parameters of the block (spec/00_scope.md R8) and the free values: what the
spec leaves to the environment or does not state. -/

namespace Sys2Proof

/-- The parameters of R8, every one a field; the two speed presets are the type `Speed`. -/
structure Params where
  /-- NUM_BUSES: the buses are 0..NUM_BUSES-1. -/
  numBuses : Nat
  /-- NUM_DRIVERS: the drivers are 0..NUM_DRIVERS-1. -/
  numDrivers : Nat
  /-- TXCAP: capacity of every TXBUF[b]. -/
  txCap : Idx
  /-- RXCAP: capacity of every RXBUF[b]. -/
  rxCap : Idx
  /-- RDCAP: capacity of every RDBUF[d]. -/
  rdCap : Idx
  /-- IDXW: the width in bits of the index and size registers. -/
  idxw : Nat
  /-- ADDRW: the width in bits of ADDR[d]. -/
  addrw : Nat
  /-- BUS_OF: the bus each driver is bound to; it need not be injective. -/
  busOf : Vector BusId 256
  /-- DUMMY_BYTE: what the STOP handler primes the hardware with (R195). -/
  dummyByte : Byte
  /-- MASTER_IRQ_MASK: the sources BEGIN_MASTER asks for (R141). -/
  masterIrqMask : Byte
  /-- SLAVE_IRQ_MASK: the sources BEGIN_SLAVE asks for (R170). -/
  slaveIrqMask : Byte
  deriving DecidableEq, Repr

/-- The bus identifiers from `i` upwards. -/
def Config.busesFrom : (n i : Nat) → List BusId
  | 0, _ => []
  | n + 1, i => Fin.ofNat 256 i :: Config.busesFrom n (i + 1)

theorem Config.busesFrom_length (n i : Nat) : (Config.busesFrom n i).length = n := by
  induction n generalizing i with
  | zero => rfl
  | succ n ih => simp [Config.busesFrom, ih]

/-- BUS_OF[d] = d. -/
def Config.identity : Vector BusId 256 :=
  ⟨(Config.busesFrom 256 0).toArray, Config.busesFrom_length 256 0⟩

/-- The reference values of R8. -/
def Config.reference : Params where
  numBuses := 4
  numDrivers := 4
  txCap := 32
  rxCap := 32
  rdCap := 32
  idxw := 8
  addrw := 8
  busOf := Config.identity
  dummyByte := 0x00
  masterIrqMask := 0x07
  slaveIrqMask := 0x0B

/-- What the spec asks of a configuration, and what its word formats have room for (log entry 3). -/
structure Params.wf (p : Params) : Prop where
  /-- the 8-bit BUS field names every bus (R103) -/
  buses : p.numBuses ≤ 256
  /-- the 8-bit DRV field names every driver (R101) -/
  drivers : p.numDrivers ≤ 256
  /-- BUS_OF is total into 0..NUM_BUSES-1 (R8) -/
  bound : ∀ d : DrvId, d.val < p.numDrivers → p.busOf[d].val < p.numBuses
  /-- index 0 of a transmit buffer exists (R76 (e)) -/
  start : 0 < p.txCap
  /-- a delivery always fits the read buffer (D7) -/
  delivery : p.rxCap ≤ p.rdCap
  /-- a capacity is a legal value of an index register (R85) -/
  txWidth : p.txCap < 2 ^ p.idxw
  rdWidth : p.rdCap < 2 ^ p.idxw
  /-- the byte count of a delivery has 8 bits (R84, R102, R104) -/
  count : p.rxCap < 256
  /-- an index register holds every value of the 8-bit operand `numBytes` (R106, D7) -/
  numBytes : 8 ≤ p.idxw
  /-- ADDR holds every value of the 8-bit address operand (R106, D26) -/
  address : 8 ≤ p.addrw

/-- FREE VALUE: the VAL field of a HAL return word when the state lists no answer. R219 to R222:
every answer is a draw of the environment. Applied to `State.draws`. Log entry 6. -/
opaque Config.halDraw : Nat → Byte

/-- FREE VALUE: the command words a callback issues when the state lists no script. R175, R176:
the sequence is a draw. Applied to `State.draws`. Log entry 6. -/
opaque Config.callbackDraw : Nat → List Word

/-- FREE VALUE: what TXWI holds after `TXWI - 1` when TXWI is 0, taken within the register's width.
R10 makes `-` mathematical and no rule states this result. Applied to `State.draws`. Log entry 7. -/
opaque Config.indexDraw : Nat → Nat

end Sys2Proof
end

