-- ==== Sys2Proof/Syntax.lean ====
section
/-! DEFINITION. The operations of the block: one constructor of `Instr` for each row of
spec/opcode_table.json (spec/30_encoding.md R107, R108, R109). -/

namespace Sys2Proof

/-- The two speed presets (R36): code 0 and code 1. -/
inductive Speed where
  | standard100k
  | fast400k
  deriving DecidableEq, Repr

/-- The transfer mode of HAL.setMode (R110): code 0 and code 1. -/
inductive Mode where
  | transmit
  | receive
  deriving DecidableEq, Repr

inductive Instr where
  -- CMD: commands of the foreground or of a callback (R107)
  | register (d : DrvId) (bus : BusId)
  | unregister (bus : BusId)
  | setSpeed (d : DrvId) (speed : Speed)
  | beginMaster (d : DrvId)
  | beginSlave (d : DrvId) (addr : Byte)
  | onRequest (d : DrvId) (bind : Bool)
  | onReceive (d : DrvId) (bind : Bool)
  | beginTransmission (d : DrvId) (addr : Byte)
  | write (d : DrvId) (byte : Byte)
  | endTransmission (d : DrvId) (sendStop : Bool)
  | requestFrom (d : DrvId) (addr : Byte) (numBytes : Byte)
  | read (d : DrvId)
  -- HAL: the fifteen primitives of the collaborator (R108)
  | halInitMaster (b : BusId) (config : Speed)
  | halInitSlave (b : BusId) (addr : Byte)
  | halEnableModule (b : BusId)
  | halDisableModule (b : BusId)
  | halSetMode (b : BusId) (mode : Mode)
  | halSetTargetAddress (b : BusId) (addr : Byte)
  | halIssueStart (b : BusId)
  | halIssueStop (b : BusId)
  | halSendNextByte (b : BusId) (byte : Byte)
  | halReceiveNextByte (b : BusId)
  | halIsBusBusy (b : BusId)
  | halIsStopPending (b : BusId)
  | halGetInterruptStatus (b : BusId)
  | halClearInterruptStatus (b : BusId) (bits : Byte)
  | halEnableInterruptSources (b : BusId) (bits : Byte)
  -- EVT: an interrupt of a bus; the BUS field may name a bus that does not exist (R111)
  | dispatch (bus : Byte)
  -- STATUS: the four conditions, for the bus in DISP.bus (R105, R109)
  | evReceive
  | evTransmit
  | evNak
  | evStop
  -- UPC: the two upcalls (R104)
  | upOnRequest (d : DrvId)
  | upOnReceive (d : DrvId) (count : Byte)
  -- internal operations, with no encoding (R109)
  | lookup (b : BusId)
  | handleRequestSlave (d : DrvId)
  | handleReceive (d : DrvId)
  deriving DecidableEq, Repr

/-- Where a word is exchanged (R100). The same 32 bits can be a command word and a HAL word: only
the port tells them apart. `status` stands for the STATUS byte carried by HAL words (R105). -/
inductive Port where
  | cmd
  | hal
  | irq
  | status
  | upcall
  deriving DecidableEq, Repr

end Sys2Proof
end

