-- ==== Sys2Proof/WellFormed.lean ====
section
/-! DEFINITION. Which operations are well formed in a configuration (spec/30_encoding.md R111,
spec/00_scope.md R8): their drivers and buses exist, and REGISTER names the bus of its driver. -/

namespace Sys2Proof

/-- Driver `d` exists. -/
def Params.hasDriver (p : Params) (d : DrvId) : Bool := decide (d.val < p.numDrivers)

/-- Bus `b` exists. -/
def Params.hasBus (p : Params) (b : BusId) : Bool := decide (b.val < p.numBuses)

def Instr.wellFormed (p : Params) : Instr → Bool
  | .register d bus => p.hasDriver d && p.hasBus bus && decide (p.busOf[d] = bus)
  | .unregister bus => p.hasBus bus
  | .setSpeed d _ | .beginMaster d | .beginSlave d _ | .onRequest d _ | .onReceive d _
  | .beginTransmission d _ | .write d _ | .endTransmission d _ | .requestFrom d _ _
  | .read d => p.hasDriver d
  | .halInitMaster b _ | .halInitSlave b _ | .halEnableModule b | .halDisableModule b
  | .halSetMode b _ | .halSetTargetAddress b _ | .halIssueStart b | .halIssueStop b
  | .halSendNextByte b _ | .halReceiveNextByte b | .halIsBusBusy b | .halIsStopPending b
  | .halGetInterruptStatus b | .halClearInterruptStatus b _
  | .halEnableInterruptSources b _ => p.hasBus b
  | .dispatch _ | .evReceive | .evTransmit | .evNak | .evStop => true
  | .upOnRequest d | .upOnReceive d _ => p.hasDriver d
  | .lookup b => p.hasBus b
  | .handleRequestSlave d | .handleReceive d => p.hasDriver d

end Sys2Proof
end

