-- ==== Sys2Proof/Decode.lean ====
section
/-! DEFINITION. The words of the ports: decoding, total and rejecting by name, then encoding
(spec/30_encoding.md R101 to R111). -/

namespace Sys2Proof

/-! ### Fields of a word (R101 to R105) -/

/-- Bits 31:24: OP, HOP, UOP or the event code. -/
def byte3 (w : Word) : Byte := w.extractLsb' 24 8
/-- Bits 23:16: DRV or BUS. -/
def byte2 (w : Word) : Byte := w.extractLsb' 16 8
/-- Bits 15:8: A. -/
def byte1 (w : Word) : Byte := w.extractLsb' 8 8
/-- Bits 7:0: B, ARG, VAL, CNT, or a STATUS byte. -/
def byte0 (w : Word) : Byte := w.extractLsb' 0 8

/-- The word `{c3, c2, c1, c0}`, `c3` in the most significant place (R10). -/
def pack (c3 c2 c1 c0 : Byte) : Word := c3 ++ c2 ++ c1 ++ c0

/-- A bus or driver index as a byte field. -/
def indexByte (i : Fin 256) : Byte := BitVec.ofFin i

/-- A byte count as an 8-bit field (R84, R102, R104); a wider one, which `Params.wf` excludes, loses
its upper bits (log entry 3). -/
def countByte (n : Idx) : Byte := BitVec.ofNat 8 n

/-- A boolean as a byte field: bit 0, bits 7:1 zero. -/
def boolByte (v : Bool) : Byte := if v then 1 else 0

/-- The code of a speed preset (R110). -/
def Speed.code : Speed → Bool
  | .standard100k => false
  | .fast400k => true

def Speed.ofCode (v : Bool) : Speed := if v then .fast400k else .standard100k

/-- The code of a transfer mode (R110). -/
def Mode.code : Mode → Bool
  | .transmit => false
  | .receive => true

def Mode.ofCode (v : Bool) : Mode := if v then .receive else .transmit

/-! ### Decoding -/

/-- Why a word names no operation on its port. -/
inductive Reject where
  /-- the code field names no operation of the port -/
  | unknownCode
  /-- a field that must be zero is not -/
  | reservedBits
  /-- the driver index is not below NUM_DRIVERS -/
  | noSuchDriver
  /-- the bus identifier is not below NUM_BUSES -/
  | noSuchBus
  /-- REGISTER with a bus other than BUS_OF of the driver -/
  | wrongBus
  /-- a status byte with none of bits 3:0 set -/
  | noCondition
  deriving DecidableEq, Repr

/-- Go on if the field is zero. -/
def needZero (x : Byte) (k : Except Reject Instr) : Except Reject Instr :=
  if x = 0 then k else .error .reservedBits

/-- Go on with the driver the field names. -/
def withDriver (p : Params) (x : Byte) (k : DrvId → Except Reject Instr) : Except Reject Instr :=
  if p.hasDriver x.toFin then k x.toFin else .error .noSuchDriver

/-- Go on with the bus the field names. -/
def withBus (p : Params) (x : Byte) (k : BusId → Except Reject Instr) : Except Reject Instr :=
  if p.hasBus x.toFin then k x.toFin else .error .noSuchBus

/-- Go on with the one-bit option in bit 0; bits 7:1 must be zero. -/
def withBit (x : Byte) (k : Bool → Except Reject Instr) : Except Reject Instr :=
  if x = 0 then k false else if x = 1 then k true else .error .reservedBits

/-- The CMD port: the table of R107 with the conditions of R111. -/
def decodeCmd (p : Params) (w : Word) : Except Reject Instr :=
  match (byte3 w).toNat with
  | 0x01 =>
    needZero (byte0 w) <| withDriver p (byte2 w) fun d => withBus p (byte1 w) fun bus =>
      if p.busOf[d] = bus then .ok (.register d bus) else .error .wrongBus
  | 0x02 =>
    needZero (byte0 w) <| needZero (byte2 w) <| withBus p (byte1 w) fun bus => .ok (.unregister bus)
  | 0x03 =>
    needZero (byte1 w) <| withDriver p (byte2 w) fun d => withBit (byte0 w) fun v =>
      .ok (.setSpeed d (Speed.ofCode v))
  | 0x04 =>
    needZero (byte1 w) <| needZero (byte0 w) <| withDriver p (byte2 w) fun d => .ok (.beginMaster d)
  | 0x05 =>
    needZero (byte0 w) <| withDriver p (byte2 w) fun d => .ok (.beginSlave d (byte1 w))
  | 0x06 =>
    needZero (byte1 w) <| withDriver p (byte2 w) fun d => withBit (byte0 w) fun v =>
      .ok (.onRequest d v)
  | 0x07 =>
    needZero (byte1 w) <| withDriver p (byte2 w) fun d => withBit (byte0 w) fun v =>
      .ok (.onReceive d v)
  | 0x08 =>
    needZero (byte0 w) <| withDriver p (byte2 w) fun d => .ok (.beginTransmission d (byte1 w))
  | 0x09 =>
    needZero (byte0 w) <| withDriver p (byte2 w) fun d => .ok (.write d (byte1 w))
  | 0x0A =>
    needZero (byte1 w) <| withDriver p (byte2 w) fun d => withBit (byte0 w) fun v =>
      .ok (.endTransmission d v)
  | 0x0B => withDriver p (byte2 w) fun d => .ok (.requestFrom d (byte1 w) (byte0 w))
  | 0x0C =>
    needZero (byte1 w) <| needZero (byte0 w) <| withDriver p (byte2 w) fun d => .ok (.read d)
  | _ => .error .unknownCode

/-- The HAL port: the table of R108. -/
def decodeHal (p : Params) (w : Word) : Except Reject Instr :=
  needZero (byte1 w) <| withBus p (byte2 w) fun b =>
    match (byte3 w).toNat with
    | 0x01 => withBit (byte0 w) fun v => .ok (.halInitMaster b (Speed.ofCode v))
    | 0x02 => .ok (.halInitSlave b (byte0 w))
    | 0x03 => needZero (byte0 w) (.ok (.halEnableModule b))
    | 0x04 => needZero (byte0 w) (.ok (.halDisableModule b))
    | 0x05 => withBit (byte0 w) fun v => .ok (.halSetMode b (Mode.ofCode v))
    | 0x06 => .ok (.halSetTargetAddress b (byte0 w))
    | 0x07 => needZero (byte0 w) (.ok (.halIssueStart b))
    | 0x08 => needZero (byte0 w) (.ok (.halIssueStop b))
    | 0x09 => .ok (.halSendNextByte b (byte0 w))
    | 0x0A => needZero (byte0 w) (.ok (.halReceiveNextByte b))
    | 0x0B => needZero (byte0 w) (.ok (.halIsBusBusy b))
    | 0x0C => needZero (byte0 w) (.ok (.halIsStopPending b))
    | 0x0D => needZero (byte0 w) (.ok (.halGetInterruptStatus b))
    | 0x0E => .ok (.halClearInterruptStatus b (byte0 w))
    | 0x0F => .ok (.halEnableInterruptSources b (byte0 w))
    | _ => .error .unknownCode

/-- The IRQ port: the event word `{0xE0, BUS, 0, 0}` of R105, for any BUS (R111). -/
def decodeEvent (w : Word) : Except Reject Instr :=
  if byte3 w = 0xE0 then
    needZero (byte1 w) <| needZero (byte0 w) (.ok (.dispatch (byte2 w)))
  else .error .unknownCode

/-- Every handler a status byte selects, in the fixed order of R190; bits 7:4 select none. -/
def statusHandlers (status : Byte) : List Instr :=
  (if status.getLsbD 0 then [.evReceive] else []) ++
  (if status.getLsbD 1 then [.evTransmit] else []) ++
  (if status.getLsbD 2 then [.evNak] else []) ++
  (if status.getLsbD 3 then [.evStop] else [])

/-- The handler a status byte selects first. -/
def decodeStatus (w : Word) : Except Reject Instr :=
  match statusHandlers (byte0 w) with
  | i :: _ => .ok i
  | [] => .error .noCondition

/-- The UPCALL port: R104. -/
def decodeUpcall (p : Params) (w : Word) : Except Reject Instr :=
  needZero (byte1 w) <| withDriver p (byte2 w) fun d =>
    match (byte3 w).toNat with
    | 0xF0 => needZero (byte0 w) (.ok (.upOnRequest d))
    | 0xF1 => .ok (.upOnReceive d (byte0 w))
    | _ => .error .unknownCode

/-- What a word on a port says. -/
def decode (p : Params) (port : Port) (w : Word) : Except Reject Instr :=
  match port with
  | .cmd => decodeCmd p w
  | .hal => decodeHal p w
  | .irq => decodeEvent w
  | .status => decodeStatus w
  | .upcall => decodeUpcall p w

/-- A word as spec/opcode_table.json numbers its bits, with no port given: the first port that
knows it, in the order CMD, IRQ, UPCALL, HAL (a word of a command and of a HAL call reads as the
command: log entry 11); a word of at most 8 bits is a STATUS byte. The parameters are the
reference ones. -/
def decodeTableWord (nbits w : Nat) : Option Instr :=
  let word : Word := BitVec.ofNat 32 w
  if nbits = 0 then none
  else if nbits ≤ 8 then (decodeStatus word).toOption
  else
    (decodeCmd Config.reference word).toOption.orElse fun _ =>
      (decodeEvent word).toOption.orElse fun _ =>
        (decodeUpcall Config.reference word).toOption.orElse fun _ =>
          (decodeHal Config.reference word).toOption

/-! ### Encoding -/

/-- A command word (R101). -/
def cmdWord (op : Byte) (d : DrvId) (a b : Byte) : Word := pack op (indexByte d) a b

/-- A HAL call word (R103). -/
def halWord (hop : Byte) (b : BusId) (arg : Byte) : Word := pack hop (indexByte b) 0 arg

/-- A HAL return word (R103). -/
def halReturnWord (hop : Byte) (b : BusId) (val : Byte) : Word := pack hop (indexByte b) 0 val

/-- An upcall word (R104). -/
def upcallWord (uop : Byte) (d : DrvId) (cnt : Byte) : Word := pack uop (indexByte d) 0 cnt

/-- An event word (R105). -/
def eventWord (bus : Byte) : Word := pack 0xE0 bus 0 0

/-- A response word (R102); `drv` is the DRV field as the command word had it. -/
def responseWord (op drv : Byte) (ill : Bool) (val : Byte) : Word := pack op drv (boolByte ill) val

/-- The word of an operation and the port it crosses; the internal operations have none. -/
def encode : Instr → Option (Port × Word)
  | .register d bus => some (.cmd, cmdWord 0x01 d (indexByte bus) 0)
  | .unregister bus => some (.cmd, cmdWord 0x02 0 (indexByte bus) 0)
  | .setSpeed d speed => some (.cmd, cmdWord 0x03 d 0 (boolByte speed.code))
  | .beginMaster d => some (.cmd, cmdWord 0x04 d 0 0)
  | .beginSlave d addr => some (.cmd, cmdWord 0x05 d addr 0)
  | .onRequest d bind => some (.cmd, cmdWord 0x06 d 0 (boolByte bind))
  | .onReceive d bind => some (.cmd, cmdWord 0x07 d 0 (boolByte bind))
  | .beginTransmission d addr => some (.cmd, cmdWord 0x08 d addr 0)
  | .write d byte => some (.cmd, cmdWord 0x09 d byte 0)
  | .endTransmission d sendStop => some (.cmd, cmdWord 0x0A d 0 (boolByte sendStop))
  | .requestFrom d addr n => some (.cmd, cmdWord 0x0B d addr n)
  | .read d => some (.cmd, cmdWord 0x0C d 0 0)
  | .halInitMaster b config => some (.hal, halWord 0x01 b (boolByte config.code))
  | .halInitSlave b addr => some (.hal, halWord 0x02 b addr)
  | .halEnableModule b => some (.hal, halWord 0x03 b 0)
  | .halDisableModule b => some (.hal, halWord 0x04 b 0)
  | .halSetMode b mode => some (.hal, halWord 0x05 b (boolByte mode.code))
  | .halSetTargetAddress b addr => some (.hal, halWord 0x06 b addr)
  | .halIssueStart b => some (.hal, halWord 0x07 b 0)
  | .halIssueStop b => some (.hal, halWord 0x08 b 0)
  | .halSendNextByte b byte => some (.hal, halWord 0x09 b byte)
  | .halReceiveNextByte b => some (.hal, halWord 0x0A b 0)
  | .halIsBusBusy b => some (.hal, halWord 0x0B b 0)
  | .halIsStopPending b => some (.hal, halWord 0x0C b 0)
  | .halGetInterruptStatus b => some (.hal, halWord 0x0D b 0)
  | .halClearInterruptStatus b bits => some (.hal, halWord 0x0E b bits)
  | .halEnableInterruptSources b bits => some (.hal, halWord 0x0F b bits)
  | .dispatch bus => some (.irq, eventWord bus)
  | .evReceive => some (.status, 0x01)
  | .evTransmit => some (.status, 0x02)
  | .evNak => some (.status, 0x04)
  | .evStop => some (.status, 0x08)
  | .upOnRequest d => some (.upcall, upcallWord 0xF0 d 0)
  | .upOnReceive d count => some (.upcall, upcallWord 0xF1 d count)
  | .lookup _ | .handleRequestSlave _ | .handleReceive _ => none

/-- The `match` and `mask` of the operation's row in the tables of R107, R108 and R109. -/
def tableRow : Instr → Option (Word × Word)
  | .register _ _ => some (0x01000000, 0xFF0000FF)
  | .unregister _ => some (0x02000000, 0xFFFF00FF)
  | .setSpeed _ _ => some (0x03000000, 0xFF00FFFE)
  | .beginMaster _ => some (0x04000000, 0xFF00FFFF)
  | .beginSlave _ _ => some (0x05000000, 0xFF0000FF)
  | .onRequest _ _ => some (0x06000000, 0xFF00FFFE)
  | .onReceive _ _ => some (0x07000000, 0xFF00FFFE)
  | .beginTransmission _ _ => some (0x08000000, 0xFF0000FF)
  | .write _ _ => some (0x09000000, 0xFF0000FF)
  | .endTransmission _ _ => some (0x0A000000, 0xFF00FFFE)
  | .requestFrom _ _ _ => some (0x0B000000, 0xFF000000)
  | .read _ => some (0x0C000000, 0xFF00FFFF)
  | .halInitMaster _ _ => some (0x01000000, 0xFF00FFFE)
  | .halInitSlave _ _ => some (0x02000000, 0xFF00FF00)
  | .halEnableModule _ => some (0x03000000, 0xFF00FFFF)
  | .halDisableModule _ => some (0x04000000, 0xFF00FFFF)
  | .halSetMode _ _ => some (0x05000000, 0xFF00FFFE)
  | .halSetTargetAddress _ _ => some (0x06000000, 0xFF00FF00)
  | .halIssueStart _ => some (0x07000000, 0xFF00FFFF)
  | .halIssueStop _ => some (0x08000000, 0xFF00FFFF)
  | .halSendNextByte _ _ => some (0x09000000, 0xFF00FF00)
  | .halReceiveNextByte _ => some (0x0A000000, 0xFF00FFFF)
  | .halIsBusBusy _ => some (0x0B000000, 0xFF00FFFF)
  | .halIsStopPending _ => some (0x0C000000, 0xFF00FFFF)
  | .halGetInterruptStatus _ => some (0x0D000000, 0xFF00FFFF)
  | .halClearInterruptStatus _ _ => some (0x0E000000, 0xFF00FF00)
  | .halEnableInterruptSources _ _ => some (0x0F000000, 0xFF00FF00)
  | .dispatch _ => some (0xE0000000, 0xFF00FFFF)
  | .evReceive => some (0x01, 0x01)
  | .evTransmit => some (0x02, 0x02)
  | .evNak => some (0x04, 0x04)
  | .evStop => some (0x08, 0x08)
  | .upOnRequest _ => some (0xF0000000, 0xFF00FFFF)
  | .upOnReceive _ _ => some (0xF1000000, 0xFF00FF00)
  | .lookup _ | .handleRequestSlave _ | .handleReceive _ => none

end Sys2Proof
end

