-- ==== Sys2Proof/Machine/State.lean ====
section
/-! DEFINITION. The state of the block (spec/10_state.md), what a step can stop with
(spec/60_exceptions.md R253, R258, R259), and the state after reset (R50, R270). -/

namespace Sys2Proof.Machine

/-- The buffers' bytes, as (location, byte) pairs in one canonical form: locations strictly rising,
no byte equal to what an unlisted location reads as (`Memory.wf` in Machine/Ops.lean). -/
abbrev Memory := List Host.Cell

/-- A byte array (R70). -/
inductive Buf where
  /-- TXBUF[b] -/
  | tx (b : BusId)
  /-- RXBUF[b] -/
  | rx (b : BusId)
  /-- RDBUF[d] -/
  | rd (d : DrvId)
  deriving DecidableEq, Repr

/-- ROLE[d] (R34); the reserved code 3 is no value (93_implementation_defined U16). -/
inductive Role where
  | unset
  | master
  | slave
  deriving DecidableEq, Repr

/-- The index registers of one bus (R22, R23, R25, R26). -/
structure BusRegs where
  txwi : Idx
  txcs : Idx
  rxwi : Idx
  rxcs : Idx
  deriving DecidableEq, Repr

/-- The registry entry of one bus (R39). -/
structure RegEntry where
  valid : Bool
  drv : DrvId
  deriving DecidableEq, Repr

/-- The registers of one driver (R28, R29, R31 to R38). ADDR is the unsigned number in its ADDRW bits
(R35). -/
structure DrvRegs where
  rdi : Idx
  rdl : Idx
  reqdone : Bool
  gotnak : Bool
  sendstop : Bool
  role : Role
  addr : Nat
  addrv : Bool
  speed : Speed
  onreq : Bool
  onrcv : Bool
  deriving DecidableEq, Repr

/-- FG, the foreground sequencer register (R40). -/
structure Foreground where
  busy : Bool
  op : Byte
  drv : Byte
  a : Byte
  b : Byte
  phase : BitVec 4
  deriving DecidableEq, Repr

/-- DISP, the dispatcher marker (R43). -/
structure Dispatcher where
  active : Bool
  bus : BusId
  status : Byte
  deriving DecidableEq, Repr

/-- A word coming on the IRQ port (R105), due after `delay` steps that are no dispatcher
invocation, counted from when the entry before it was taken. Log entry 4. -/
structure Arrival where
  delay : Nat
  word : Word
  deriving DecidableEq, Repr

/-- What the block puts on a port (R100, R253). -/
inductive PortEvent where
  /-- a HAL call word, with the HAL return word for the four primitives that have one (R103). `role` is
  no part of a word: for a sendNextByte the model notes beside it the ROLE of the driver that made the
  call, which R229 reads the wire by (log entry 16); for every other call it is none -/
  | hal (call : Word) (ret : Option Word) (role : Option Role := none)
  /-- a response word (R102) -/
  | rsp (word : Word)
  /-- an upcall word (R104) -/
  | upcall (word : Word)
  deriving DecidableEq, Repr

/-- The block's registers and buffers (`bus` to `mem`; entry `i` of a register file is that of bus or
driver `i`, and entries at or above NUM_BUSES and NUM_DRIVERS are no part of the block), then the model's own fields: the
parameters, the value of the latest LOOKUP, what the environment and the host are about to send,
and what the block has sent. -/
structure State where
  /-- the parameters of R8; no step writes them (R9) -/
  cfg : Params
  /-- TXWI, TXCS, RXWI, RXCS of each bus -/
  bus : Vector BusRegs 256
  /-- REG[b] -/
  reg : Vector RegEntry 256
  /-- the registers of each driver -/
  drv : Vector DrvRegs 256
  fg : Foreground
  disp : Dispatcher
  /-- TXBUF, RXBUF, RDBUF -/
  mem : Memory
  /-- what the latest LOOKUP returned (R132) -/
  found : Option DrvId
  /-- command words waiting on the CMD port, oldest first -/
  cmd : List Word
  /-- event words coming on the IRQ port, in order -/
  irq : List Arrival
  /-- VAL fields of the HAL return words to come, in call order -/
  answers : List Byte
  /-- the command words of each callback invocation to come, in order -/
  scripts : List (List Word)
  /-- how many free values were taken -/
  draws : Nat
  /-- everything put on the HAL, RSP and UPCALL ports, in order -/
  out : List PortEvent
  deriving DecidableEq, Repr

/-- Why the machine stops. -/
inductive Fault where
  /-- Fault(Overrun, S, i) of R76 and R258, raised by every access to a buffer with an index outside
  it: WRITE, EV_RECEIVE, EV_TRANSMIT and HANDLE_REQUEST_SLAVE at the places R76 lists; END_TRANSMISSION,
  REQUEST_FROM, READ and HANDLE_RECEIVE only in states no run reaches. Safe: the spec gives the
  access no result. -/
  | overrun (buf : Buf) (index : Int)
  /-- A READ of driver `d` in callback context on an empty cursor (R289): the spec gives the
  dispatcher's transition no successor. Raised by `callbackRead`. Safe: nothing is claimed of what
  follows, and nothing follows. -/
  | callbackHold (d : DrvId)
  /-- A step from a state with DISP.active = 1, which no run reaches (R43, R45): no transition exists
  there. Raised by `step`. Safe. -/
  | dispatcherRunning
  deriving DecidableEq, Repr

/-- Why the model declines to step. -/
inductive Refusal where
  /-- An instruction with no meaning yet; raised by `exec` alone. Safe. -/
  | notModelled (mnemonic : String)
  /-- Refuse(CallbackContract) of R259: a callback issued a command outside the set R175 and R176
  admit. Raised by `callbackCommand`. Safe. -/
  | callbackContract
  /-- FG.phase holds a number the command has no phase for (R41), which no run reaches. Raised by the
  four multi-phase commands. Safe. -/
  | noSuchPhase
  deriving DecidableEq, Repr

/-- Right after power-on reset: R50 for what the spec states; log entries 1 and 2 for the rest. -/
def State.reset : State where
  cfg := Config.reference
  bus := Vector.replicate 256 ⟨0, 0, 0, 0⟩
  reg := Vector.replicate 256 ⟨false, 0⟩
  drv := Vector.replicate 256
    { rdi := 0, rdl := 0, reqdone := false, gotnak := false, sendstop := true, role := .unset
      addr := 0, addrv := false, speed := .standard100k, onreq := false, onrcv := false }
  fg := { busy := false, op := 0, drv := 0, a := 0, b := 0, phase := 0 }
  disp := { active := false, bus := 0, status := 0 }
  mem := []
  found := none
  cmd := []
  irq := []
  answers := []
  scripts := []
  draws := 0
  out := []

end Sys2Proof.Machine
end

