-- ==== Sys2Proof/Machine/Ops.lean ====
section
/-! DEFINITION. The named operations over the state: buffer memory, registers, ports, draws, the
end of a command, and entering and leaving the dispatcher. -/

namespace Sys2Proof.Machine

/-- What an operation ends with (R253). -/
abbrev Result := Host.Outcome State Fault Refusal

/-- Go on in the next state; a stop stays. -/
def andThen (r : Result) (f : State → Result) : Result :=
  match r with
  | .next s => f s
  | .fault e => .fault e
  | .refused e => .refused e

/-! ### Buffer memory (20_memory R70 to R79) -/

/-- What a location nothing has written reads as: the spec states no contents after reset (R50).
DESIGN CHOICE, unsafe: log entry 2. -/
def Memory.unwritten : Byte := 0

/-- The byte at a location. -/
def Memory.read : Memory → Nat → Byte
  | [], _ => Memory.unwritten
  | (k, v) :: m, a => if k = a then v else Memory.read m a

/-- Put a byte at a location; the form stays canonical. -/
def Memory.write : Memory → Nat → Byte → Memory
  | [], a, v => if v = Memory.unwritten then [] else [(a, v)]
  | (k, w) :: m, a, v =>
    if a < k then (if v = Memory.unwritten then (k, w) :: m else (a, v) :: (k, w) :: m)
    else if a = k then (if v = Memory.unwritten then m else (a, v) :: m)
    else (k, w) :: Memory.write m a v

/-- The canonical form: locations strictly rising, nothing listed that reads the same unlisted. -/
abbrev Memory.wf (m : Memory) : Prop :=
  m.Pairwise (fun x y => x.1 < y.1) ∧ ∀ c ∈ m, c.2 ≠ Memory.unwritten

/-- The place of an array among them all: the model's own numbering (the spec has no address map,
R80), log entry 14. -/
def Buf.place : Buf → Nat
  | .tx b => b.val
  | .rx b => 256 + b.val
  | .rd d => 512 + d.val

/-- The location of index `i` of an array: no two arrays share one, at any index. -/
def Buf.loc (buf : Buf) (i : Nat) : Nat := 768 * i + buf.place

/-- The capacity of an array (R70). -/
def Buf.cap (p : Params) : Buf → Nat
  | .tx _ => p.txCap
  | .rx _ => p.rxCap
  | .rd _ => p.rdCap

/-- The byte at index `i` of an array. -/
def State.byteAt (s : State) (buf : Buf) (i : Nat) : Byte := Memory.read s.mem (buf.loc i)

/-- MemRead(S + i, 1): R11, R76. -/
def loadByte (buf : Buf) (i : Nat) (s : State) (k : Byte → Result) : Result :=
  if i < buf.cap s.cfg then k (s.byteAt buf i) else .fault (.overrun buf i)

/-- MemWrite(S + i, 1, v): R11, R76. -/
def storeByte (buf : Buf) (i : Nat) (v : Byte) (s : State) : Result :=
  if i < buf.cap s.cfg then .next { s with mem := Memory.write s.mem (buf.loc i) v }
  else .fault (.overrun buf i)

/-! ### Registers -/

/-- BUS_OF[d] (R8). -/
def State.busOf (s : State) (d : DrvId) : BusId := s.cfg.busOf[d]

def State.setBus (b : BusId) (r : BusRegs) (s : State) : State := { s with bus := s.bus.set b r }
def State.setReg (b : BusId) (r : RegEntry) (s : State) : State := { s with reg := s.reg.set b r }
def State.setDrv (d : DrvId) (r : DrvRegs) (s : State) : State := { s with drv := s.drv.set d r }
def State.setFg (f : Foreground) (s : State) : State := { s with fg := f }
def State.setDisp (x : Dispatcher) (s : State) : State := { s with disp := x }
def State.setFound (x : Option DrvId) (s : State) : State := { s with found := x }

def State.setTxwi (b : BusId) (v : Idx) (s : State) : State :=
  s.setBus b { s.bus[b] with txwi := v }
def State.setTxcs (b : BusId) (v : Idx) (s : State) : State :=
  s.setBus b { s.bus[b] with txcs := v }
def State.setRxwi (b : BusId) (v : Idx) (s : State) : State :=
  s.setBus b { s.bus[b] with rxwi := v }
def State.setRxcs (b : BusId) (v : Idx) (s : State) : State :=
  s.setBus b { s.bus[b] with rxcs := v }
/-- Both registers of the ReadCursor. -/
def State.setCursor (d : DrvId) (rdi rdl : Idx) (s : State) : State :=
  s.setDrv d { s.drv[d] with rdi := rdi, rdl := rdl }

/-! ### Ports and draws -/

/-- Put something on a port. -/
def State.emit (e : PortEvent) (s : State) : State := { s with out := s.out ++ [e] }

/-- The answer the environment gives to the next value-returning HAL call (R219 to R222): the first
one listed, else a free value. -/
def State.nextAnswer (s : State) : Byte :=
  match s.answers with
  | v :: _ => v
  | [] => Config.halDraw s.draws

/-- The state after that answer was taken. -/
def State.takeAnswer (s : State) : State :=
  match s.answers with
  | _ :: rest => { s with answers := rest }
  | [] => { s with draws := s.draws + 1 }

/-- The command words the next callback issues (R175, R176): the first list given, else a free
value. -/
def State.nextScript (s : State) : List Word :=
  match s.scripts with
  | ws :: _ => ws
  | [] => Config.callbackDraw s.draws

/-- The state after that script was taken. -/
def State.takeScript (s : State) : State :=
  match s.scripts with
  | _ :: rest => { s with scripts := rest }
  | [] => { s with draws := s.draws + 1 }

/-- A HAL call that returns nothing. -/
def halCall (hop : Byte) (b : BusId) (arg : Byte) (s : State) : State :=
  s.emit (.hal (halWord hop b arg) none)

/-- A HAL call that returns a value; the value is `s.nextAnswer`. -/
def halQuery (hop : Byte) (b : BusId) (s : State) : State :=
  s.takeAnswer.emit (.hal (halWord hop b 0) (some (halReturnWord hop b s.nextAnswer)))

/-- A boolean HAL answer is read from VAL[0] alone (R111). -/
def answerBit (v : Byte) : Bool := v.getLsbD 0

/-! ### The foreground sequencer (R40 to R42, R111) -/

/-- One response word (R102). -/
def respond (op drv : Byte) (ill : Bool) (val : Byte) (s : State) : State :=
  s.emit (.rsp (responseWord op drv ill val))

/-- The answer to an illegal command word `w` (R111). -/
def respondIllegal (w : Word) (s : State) : State := respond (byte3 w) (byte2 w) true 0 s

/-- Go to a phase of the command in progress. -/
def goto (phase : BitVec 4) (s : State) : State := s.setFg { s.fg with phase := phase }

/-- FG.busy <- 0. -/
def release (s : State) : State := s.setFg { s.fg with busy := false }

/-- Complete the foreground command: FG.busy <- 0 and one response word (R42, D34). -/
def finish (op drv val : Byte) (s : State) : Result :=
  .next (respond op drv false val (release s))

/-! ### Taking an interrupt and returning from it (60_exceptions R246, R248) -/

/-- Entry: nothing is saved; DISP.active <- 1, DISP.bus <- b. -/
def enterDispatcher (b : BusId) (s : State) : State :=
  s.setDisp { s.disp with active := true, bus := b }

/-- DISP.status <- the status word read at entry (R190). -/
def latchStatus (status : Byte) (s : State) : State := s.setDisp { s.disp with status := status }

/-- Return: DISP.active <- 0; nothing is restored because nothing was saved. -/
def leaveDispatcher (s : State) : State := s.setDisp { s.disp with active := false }

/-! ### LOOKUP (40_registry R132) -/

/-- The driver registered for a bus. -/
def State.lookup (s : State) (b : BusId) : Option DrvId :=
  if s.reg[b].valid then some s.reg[b].drv else none

/-- ROLE of the driver registered for a bus. -/
def State.roleOn (s : State) (b : BusId) : Option Role := (s.lookup b).map fun d => s.drv[d].role

end Sys2Proof.Machine
end

