-- ==== Sys2Proof/Machine/Flags.lean ====
section
/-! DEFINITION. The flags and tests: the SpinSync flags REQDONE, GOTNAK and SENDSTOP with every way
a rule writes them (spec/10_state.md R31 to R33), the role guards (R34, 41_master_commands R143),
and the comparisons on index registers (20_memory R88). -/

namespace Sys2Proof.Machine

/-- The RECEIVE handler's REQDONE <- 1 (R31). -/
def markDone (d : DrvId) (s : State) : State := s.setDrv d { s.drv[d] with reqdone := true }

/-- The NAK handler's REQDONE <- 1, GOTNAK <- 1 (R194). -/
def markNak (d : DrvId) (s : State) : State :=
  s.setDrv d { s.drv[d] with reqdone := true, gotnak := true }

/-- REQUEST_FROM's REQDONE <- 0, GOTNAK <- 0 (R148, phases 6 and 8). -/
def clearRequest (d : DrvId) (s : State) : State :=
  s.setDrv d { s.drv[d] with reqdone := false, gotnak := false }

/-- SENDSTOP <- v (R33). -/
def latchStop (d : DrvId) (v : Bool) (s : State) : State :=
  s.setDrv d { s.drv[d] with sendstop := v }

/-- "is Master"; Unset fails it (R34). -/
def State.isMaster (s : State) (d : DrvId) : Bool := s.drv[d].role == .master

/-- "is Slave"; Unset fails it (R34). -/
def State.isSlave (s : State) (d : DrvId) : Bool := s.drv[d].role == .slave

/-- cursorEmpty(d): RDI == 0 and RDL == 0 (R30). -/
def State.cursorEmpty (s : State) (d : DrvId) : Bool := s.drv[d].rdi == 0 && s.drv[d].rdl == 0

/-- Nothing left to send, or nothing written yet: TXWI == 0 (R88). -/
def State.txIdle (s : State) (b : BusId) : Bool := s.bus[b].txwi == 0

/-- A master-initiated receive is active: RXCS > 0 (R26). -/
def State.receiving (s : State) (b : BusId) : Bool := s.bus[b].rxcs != 0

/-- Every byte asked for has come: RXWI == RXCS (R192). -/
def State.rxComplete (s : State) (b : BusId) : Bool := s.bus[b].rxwi == s.bus[b].rxcs

/-- One byte is missing: RXWI == RXCS - 1, asked only when RXCS > 0 (R87, R192). -/
def State.rxOneMissing (s : State) (b : BusId) : Bool := s.bus[b].rxwi + 1 == s.bus[b].rxcs

/-- The slave answer is exhausted: the strict TXWI > TXCS (R88). -/
def State.answerExhausted (s : State) (b : BusId) : Bool := decide (s.bus[b].txcs < s.bus[b].txwi)

/-- BEGIN_TRANSMISSION programs the address: none is cached, or another (R142). -/
def State.mustProgram (s : State) (d : DrvId) (a : Byte) : Bool :=
  !s.drv[d].addrv || s.drv[d].addr != a.toNat

/-- ADDR <- a, ADDRV <- 1 (R35). -/
def cacheAddress (d : DrvId) (a : Byte) (s : State) : State :=
  s.setDrv d { s.drv[d] with addr := a.toNat, addrv := true }

end Sys2Proof.Machine
end

