-- ==== Sys2Proof/Machine/Operands.lean ====
section
/-! DEFINITION. The ways a buffer is addressed (spec/20_memory.md R81 to R83) and the index
arithmetic that goes with them (R84 to R88). -/

namespace Sys2Proof.Machine

/-- Append to TXBUF[b] (R81): store at TXWI, then TXWI <- TXWI + 1. -/
def appendTx (b : BusId) (v : Byte) (s : State) : Result :=
  andThen (storeByte (.tx b) s.bus[b].txwi v s) fun s =>
    .next (s.setTxwi b (s.bus[b].txwi + 1))

/-- Append to RXBUF[b] (R81): store at RXWI, then RXWI <- RXWI + 1. -/
def appendRx (b : BusId) (v : Byte) (s : State) : Result :=
  andThen (storeByte (.rx b) s.bus[b].rxwi v s) fun s =>
    .next (s.setRxwi b (s.bus[b].rxwi + 1))

/-- TXWI <- TXWI - 1 (R86). At 0, which R86 excludes and a dispatcher invocation between two phases
can bring about, the result is not stated: a free value, log entry 7. -/
def decrementTx (b : BusId) (s : State) : State :=
  if s.txIdle b then { s.setTxwi b (Config.indexDraw s.draws % 2 ^ s.cfg.idxw) with draws := s.draws + 1 }
  else s.setTxwi b (s.bus[b].txwi - 1)

/-- Count-down read of TXBUF[b] (R82): the byte at index TXCS - TXWI, a mathematical difference. -/
def countDownTx (b : BusId) (s : State) (k : Byte → Result) : Result :=
  if s.bus[b].txcs < s.bus[b].txwi then
    .fault (.overrun (.tx b) ((s.bus[b].txcs : Int) - s.bus[b].txwi))
  else loadByte (.tx b) (s.bus[b].txcs - s.bus[b].txwi) s k

/-- Send read of TXBUF[b] (R83): the byte at TXWI, then TXWI <- TXWI + 1. -/
def sendTx (b : BusId) (s : State) (k : Byte → State → Result) : Result :=
  loadByte (.tx b) s.bus[b].txwi s fun v => k v (s.setTxwi b (s.bus[b].txwi + 1))

/-- Pop from RDBUF[d] (R83, R149): the byte at RDI, RDI <- RDI + 1, and both registers to 0 when the
message is drained. -/
def popRead (d : DrvId) (s : State) (k : Byte → State → Result) : Result :=
  loadByte (.rd d) s.drv[d].rdi s fun v =>
    let rdi := s.drv[d].rdi + 1
    k v (if rdi = s.drv[d].rdl then s.setCursor d 0 0 else s.setCursor d rdi s.drv[d].rdl)

/-- Block copy (R83): `n` bytes from index `i` upwards, one after the other. -/
def blockCopy (src dst : Buf) : (n i : Nat) → State → Result
  | 0, _, s => .next s
  | n + 1, i, s =>
    loadByte src i s fun v => andThen (storeByte dst i v s) (blockCopy src dst n (i + 1))

end Sys2Proof.Machine
end

