-- ==== Sys2Proof/Machine/Hal.lean ====
section
/-! DEFINITION. The fifteen primitives of the hardware-abstraction collaborator
(spec/44_hal_interface.md R210 to R225). From the block's side a call is a word on the HAL port; the
four that return a value also take the environment's answer, and the return word is recorded with
the call. What the collaborator does on a call is the environment's (R48): Safety.lean reads it off
the port (`collaborator`). The `hal...` functions are what the rules call. -/

namespace Sys2Proof.Machine

/-- R210: `config` is the speed preset. -/
def halInitMaster (b : BusId) (config : Speed) (s : State) : State := halCall 0x01 b (boolByte config.code) s

def execHalInitMaster (b : BusId) (config : Speed) (s : State) : Result := .next (halInitMaster b config s)

/-- R211. -/
def halInitSlave (b : BusId) (addr : Byte) (s : State) : State := halCall 0x02 b addr s

def execHalInitSlave (b : BusId) (addr : Byte) (s : State) : Result := .next (halInitSlave b addr s)

/-- R212. -/
def halEnableModule (b : BusId) (s : State) : State := halCall 0x03 b 0 s

def execHalEnableModule (b : BusId) (s : State) : Result := .next (halEnableModule b s)

/-- R213: no rule calls it; it stays in the HAL alphabet. -/
def halDisableModule (b : BusId) (s : State) : State := halCall 0x04 b 0 s

def execHalDisableModule (b : BusId) (s : State) : Result := .next (halDisableModule b s)

/-- R214. -/
def halSetMode (b : BusId) (mode : Mode) (s : State) : State := halCall 0x05 b (boolByte mode.code) s

def execHalSetMode (b : BusId) (mode : Mode) (s : State) : Result := .next (halSetMode b mode s)

/-- R215. -/
def halSetTargetAddress (b : BusId) (addr : Byte) (s : State) : State := halCall 0x06 b addr s

def execHalSetTargetAddress (b : BusId) (addr : Byte) (s : State) : Result := .next (halSetTargetAddress b addr s)

/-- R216. -/
def halIssueStart (b : BusId) (s : State) : State := halCall 0x07 b 0 s

def execHalIssueStart (b : BusId) (s : State) : Result := .next (halIssueStart b s)

/-- R217. -/
def halIssueStop (b : BusId) (s : State) : State := halCall 0x08 b 0 s

def execHalIssueStop (b : BusId) (s : State) : Result := .next (halIssueStop b s)

/-- R218; `role` is the ROLE of the driver that makes the call (R229, log entry 16). -/
def halSendNextByte (b : BusId) (role : Option Role) (byte : Byte) (s : State) : State :=
  s.emit (.hal (halWord 0x09 b byte) none role)

/-- The primitive alone names no driver: the one registered for the bus stands for it (log entry 16). -/
def execHalSendNextByte (b : BusId) (byte : Byte) (s : State) : Result :=
  .next (halSendNextByte b (s.roleOn b) byte s)

/-- R219: the byte is the answer taken. -/
def halReceiveNextByte (b : BusId) (s : State) : State := halQuery 0x0A b s

def execHalReceiveNextByte (b : BusId) (s : State) : Result := .next (halReceiveNextByte b s)

/-- R220: the boolean is bit 0 of the answer taken. -/
def halIsBusBusy (b : BusId) (s : State) : State := halQuery 0x0B b s

def execHalIsBusBusy (b : BusId) (s : State) : Result := .next (halIsBusBusy b s)

/-- R221: the boolean is bit 0 of the answer taken. -/
def halIsStopPending (b : BusId) (s : State) : State := halQuery 0x0C b s

def execHalIsStopPending (b : BusId) (s : State) : Result := .next (halIsStopPending b s)

/-- R222: the status word is the answer taken. -/
def halGetInterruptStatus (b : BusId) (s : State) : State := halQuery 0x0D b s

def execHalGetInterruptStatus (b : BusId) (s : State) : Result := .next (halGetInterruptStatus b s)

/-- R223. -/
def halClearInterruptStatus (b : BusId) (bits : Byte) (s : State) : State := halCall 0x0E b bits s

def execHalClearInterruptStatus (b : BusId) (bits : Byte) (s : State) : Result := .next (halClearInterruptStatus b bits s)

/-- R224. -/
def halEnableInterruptSources (b : BusId) (bits : Byte) (s : State) : State := halCall 0x0F b bits s

def execHalEnableInterruptSources (b : BusId) (bits : Byte) (s : State) : Result := .next (halEnableInterruptSources b bits s)

end Sys2Proof.Machine
end

