-- ==== Sys2Proof/Machine/Registry.lean ====
section
/-! DEFINITION. The bus registry (spec/40_registry.md). A meaning of a command is one foreground
step (10_state R42): the current phase, and at the last one the completion. A single-phase command
does not read FG.phase: at a phase other than 0, which R41 and R42 exclude, it runs as at phase 0,
DESIGN CHOICE of the model (log entry 9). -/

namespace Sys2Proof.Machine

/-- REGISTER (R130): the last write wins, silently. -/
def execRegister (d : DrvId) (bus : BusId) (s : State) : Result :=
  finish 0x01 (indexByte d) 0 (s.setReg bus { valid := true, drv := d })

/-- UNREGISTER (R131): the entry's driver field is left. -/
def execUnregister (bus : BusId) (s : State) : Result :=
  finish 0x02 0 0 (s.setReg bus { s.reg[bus] with valid := false })

/-- LOOKUP (R132): changes no register; the value it returns is put in `State.found`. -/
def execLookup (b : BusId) (s : State) : Result := .next (s.setFound (s.lookup b))

/-- A handler's LOOKUP with what it does on a hit and on a miss (R191). -/
def withDriverOf (b : BusId) (s : State) (hit : DrvId → State → Result)
    (miss : State → Result) : Result :=
  andThen (execLookup b s) fun s =>
    match s.found with
    | some d => hit d s
    | none => miss s

end Sys2Proof.Machine
end

