-- ==== Sys2Proof/Machine/Slave.lean ====
section
/-! DEFINITION. The slave-role commands, the two internal handlers and the two upcalls
(spec/42_slave_commands.md), with the commands a callback issues (10_state R44). -/

namespace Sys2Proof.Machine

/-- BEGIN_SLAVE (R170). -/
def execBeginSlave (d : DrvId) (addr : Byte) (s : State) : Result :=
  let b := s.busOf d
  let s := s.setDrv d { s.drv[d] with role := .slave }
  let s := cacheAddress d addr s
  let s := halInitSlave b addr s
  let s := halEnableModule b s
  let s := halEnableInterruptSources b s.cfg.slaveIrqMask s
  finish 0x05 (indexByte d) 0 s

/-- ON_REQUEST (R171). -/
def execOnRequest (d : DrvId) (bind : Bool) (s : State) : Result :=
  finish 0x06 (indexByte d) 0 (s.setDrv d { s.drv[d] with onreq := bind })

/-- ON_RECEIVE (R172). -/
def execOnReceive (d : DrvId) (bind : Bool) (s : State) : Result :=
  finish 0x07 (indexByte d) 0 (s.setDrv d { s.drv[d] with onrcv := bind })

/-- Which callback an upcall invokes. -/
inductive Upcall where
  | onRequest
  | onReceive
  deriving DecidableEq, Repr

/-- WRITE in callback context (R44, R144): FG is not used; the response goes out at once. -/
def callbackWrite (d : DrvId) (byte : Byte) (s : State) : Result :=
  andThen (appendTx (s.busOf d) byte s) fun s => .next (respond 0x09 (indexByte d) false 0 s)

/-- READ in callback context (R44, R149): both phases back to back. On an empty cursor the hold
can never clear, and the dispatcher's transition has no successor (R289). -/
def callbackRead (d : DrvId) (s : State) : Result :=
  if s.cursorEmpty d then .fault (.callbackHold d)
  else popRead d s fun v s => .next (respond 0x0C (indexByte d) false v s)

/-- One command word of the callback of driver `d`: onRequest may WRITE (R175), onReceive may READ
and WRITE (R176), on the same driver. An illegal word names no command and is answered as ever
(R111, R259; log entry 10). -/
def callbackCommand (u : Upcall) (d : DrvId) (w : Word) (s : State) : Result :=
  match decodeCmd s.cfg w with
  | .ok (.write d' byte) =>
    if d' = d then callbackWrite d byte s else .refused .callbackContract
  | .ok (.read d') =>
    if d' = d ∧ u = .onReceive then callbackRead d s else .refused .callbackContract
  | .ok _ => .refused .callbackContract
  | .error _ => .next (respondIllegal w s)

/-- The callback's commands, one after the other, then its return. -/
def runCallback (u : Upcall) (d : DrvId) : List Word → State → Result
  | [], s => .next s
  | w :: ws, s => andThen (callbackCommand u d w s) (runCallback u d ws)

/-- UP_ON_REQUEST (R175): the upcall word, then what the host answers. -/
def execUpOnRequest (d : DrvId) (s : State) : Result :=
  runCallback .onRequest d s.nextScript (s.takeScript.emit (.upcall (upcallWord 0xF0 d 0)))

/-- UP_ON_RECEIVE (R176). -/
def execUpOnReceive (d : DrvId) (count : Byte) (s : State) : Result :=
  runCallback .onReceive d s.nextScript (s.takeScript.emit (.upcall (upcallWord 0xF1 d count)))

/-- The first sentence of R173: with an empty transmit buffer ask the callback, if one is bound,
and commit what it wrote: TXCS <- TXWI, TXWI <- 0. -/
def refillAnswer (d : DrvId) (s : State) : Result :=
  let b := s.busOf d
  if s.txIdle b then
    andThen (if s.drv[d].onreq then execUpOnRequest d s else .next s) fun s =>
      .next ((s.setTxcs b s.bus[b].txwi).setTxwi b 0)
  else .next s

/-- The second sentence of R173: an exhausted answer goes idle and sends nothing; else the next
byte is sent. -/
def serveAnswer (d : DrvId) (s : State) : Result :=
  let b := s.busOf d
  if s.answerExhausted b then .next ((s.setTxwi b 0).setTxcs b 0)
  else sendTx b s fun v s => .next (halSendNextByte b (some s.drv[d].role) v s)

/-- HANDLE_REQUEST_SLAVE (R173). -/
def execHandleRequestSlave (d : DrvId) (s : State) : Result :=
  andThen (refillAnswer d s) (serveAnswer d)

/-- The accepting path of R174: copy, load the cursor, reset the raw index. -/
def deliver (d : DrvId) (s : State) : Result :=
  let b := s.busOf d
  let n := s.bus[b].rxwi
  andThen (blockCopy (.rx b) (.rd d) n 0 s) fun s =>
    .next ((s.setCursor d 0 n).setRxwi b 0)

/-- HANDLE_RECEIVE (R174): a cursor that is not empty drops the new message; else it is delivered,
and the callback is told in Slave role if one is bound. -/
def execHandleReceive (d : DrvId) (s : State) : Result :=
  let b := s.busOf d
  let n := s.bus[b].rxwi
  if s.cursorEmpty d then
    andThen (deliver d s) fun s =>
      if s.isSlave d && s.drv[d].onrcv then execUpOnReceive d (countByte n) s else .next s
  else .next (s.setRxwi b 0)

end Sys2Proof.Machine
end

