-- ==== Sys2Proof/Machine/Dispatcher.lean ====
section
/-! DEFINITION. The interrupt dispatcher (spec/43_dispatcher.md). The four handlers serve the bus in
DISP.bus. -/

namespace Sys2Proof.Machine

/-- EV_RECEIVE (R192): on a registry miss only the completion flag is skipped. -/
def execEvReceive (s : State) : Result :=
  let b := s.disp.bus
  andThen (appendRx b s.nextAnswer (halReceiveNextByte b s)) fun s =>
    if s.receiving b then
      let s := if s.rxOneMissing b then halIssueStop b s else s
      if s.rxComplete b then withDriverOf b s (fun d s => .next (markDone d s)) .next
      else .next s
    else .next s

/-- The Master branch of R193 with nothing left to send. -/
def exhaustTx (b : BusId) (d : DrvId) (s : State) : State :=
  (if s.drv[d].sendstop then halIssueStop b s else latchStop d true s).setTxcs b 0

/-- The Master branch of R193. -/
def transmitMaster (b : BusId) (d : DrvId) (s : State) : Result :=
  if s.txIdle b then .next (exhaustTx b d s)
  else
    countDownTx b s fun v =>
      let s := halSendNextByte b (some s.drv[d].role) v s
      .next (s.setTxwi b (s.bus[b].txwi - 1))

/-- EV_TRANSMIT (R193). -/
def execEvTransmit (s : State) : Result :=
  let b := s.disp.bus
  withDriverOf b s
    (fun d s =>
      if s.isMaster d then transmitMaster b d s
      else if s.isSlave d then execHandleRequestSlave d s
      else .next s)
    .next

/-- EV_NAK (R194): recorded, nothing else. -/
def execEvNak (s : State) : Result :=
  withDriverOf s.disp.bus s (fun d s => .next (markNak d s)) .next

/-- The write-collision branch of R195: the rx pair is reset, not the tx pair. -/
def writeCollision (b : BusId) (d : DrvId) (s : State) : State :=
  ((halSendNextByte b (some s.drv[d].role) s.cfg.dummyByte s).setRxwi b 0).setRxcs b 0

/-- EV_STOP (R195). -/
def execEvStop (s : State) : Result :=
  let b := s.disp.bus
  withDriverOf b s
    (fun d s =>
      if s.isSlave d && !s.txIdle b then .next (writeCollision b d s)
      else if s.bus[b].rxwi = 0 then .next s
      else execHandleReceive d s)
    .next

/-- Run a handler if its condition's bit is set in DISP.status (R190). -/
def onCondition (bit : Nat) (handler : State → Result) (s : State) : Result :=
  if s.disp.status.getLsbD bit then handler s else .next s

/-- The four tests in their fixed order, each on its own (R190, R196). -/
def handleConditions (s : State) : Result :=
  andThen (onCondition 0 execEvReceive s) fun s =>
    andThen (onCondition 1 execEvTransmit s) fun s =>
      andThen (onCondition 2 execEvNak s) (onCondition 3 execEvStop)

/-- Up to the first test: entry, the status read, its clear (R190). -/
def beginDispatch (b : BusId) (s : State) : State :=
  let s := enterDispatcher b s
  let status := s.nextAnswer
  let s := latchStatus status (halGetInterruptStatus b s)
  halClearInterruptStatus b status s

/-- DISPATCH (R190): one atomic transition (60_exceptions R247). A bus that does not exist is
ignored (R111). -/
def execDispatch (bus : Byte) (s : State) : Result :=
  if s.cfg.hasBus bus.toFin then
    andThen (handleConditions (beginDispatch bus.toFin s)) fun s => .next (leaveDispatcher s)
  else .next s

end Sys2Proof.Machine
end

