-- ==== Sys2Proof/Machine/Master.lean ====
section
/-! DEFINITION. The master-role and common foreground commands (spec/41_master_commands.md). A meaning
is one foreground step: the phase FG.phase names (10_state R41, R42). -/

namespace Sys2Proof.Machine

/-- SET_SPEED (R140). -/
def execSetSpeed (d : DrvId) (speed : Speed) (s : State) : Result :=
  finish 0x03 (indexByte d) 0 (s.setDrv d { s.drv[d] with speed := speed })

/-- BEGIN_MASTER (R141). -/
def execBeginMaster (d : DrvId) (s : State) : Result :=
  let b := s.busOf d
  let s := s.setDrv d { s.drv[d] with role := .master, addrv := false }
  let s := halInitMaster b s.drv[d].speed s
  let s := halEnableModule b s
  let s := halEnableInterruptSources b s.cfg.masterIrqMask s
  finish 0x04 (indexByte d) 0 s

/-- A hold on a HAL query (R46): ask once; stay in the phase while the answer is true. -/
def holdQuery (query : State → State) (next : BitVec 4) (s : State) : Result :=
  .next (if answerBit s.nextAnswer then query s else goto next (query s))

/-- BEGIN_TRANSMISSION (R142). -/
def execBeginTransmission (d : DrvId) (addr : Byte) (s : State) : Result :=
  let b := s.busOf d
  match s.fg.phase.toNat with
  | 0 => if s.isMaster d then .next (goto 1 s) else finish 0x08 (indexByte d) 0 s
  | 1 => holdQuery (halIsStopPending b) 2 s
  | 2 =>
    finish 0x08 (indexByte d) 0
      (if s.mustProgram d addr then cacheAddress d addr (halSetTargetAddress b addr s) else s)
  | _ => .refused .noSuchPhase

/-- WRITE (R144): no role guard. A single phase, whatever FG.phase holds (log entry 9). -/
def execWrite (d : DrvId) (byte : Byte) (s : State) : Result :=
  andThen (appendTx (s.busOf d) byte s) (finish 0x09 (indexByte d) 0)

/-- The start of a transmission: END_TRANSMISSION phase 2 (R146) and the flush of REQUEST_FROM
phase 2 (R148). -/
def startTransmission (d : DrvId) (sendStop : Bool) (s : State) : Result :=
  let b := s.busOf d
  let s := latchStop d sendStop s
  let s := s.setTxcs b s.bus[b].txwi
  let s := decrementTx b s
  let s := halIssueStart b s
  loadByte (.tx b) 0 s fun v => .next (halSendNextByte b (some s.drv[d].role) v s)

/-- END_TRANSMISSION (R146). -/
def execEndTransmission (d : DrvId) (sendStop : Bool) (s : State) : Result :=
  let b := s.busOf d
  match s.fg.phase.toNat with
  | 0 =>
    if s.isMaster d && !s.txIdle b then .next (goto 1 s) else finish 0x0A (indexByte d) 0 s
  | 1 => holdQuery (halIsBusBusy b) 2 s
  | 2 => andThen (startTransmission d sendStop s) (finish 0x0A (indexByte d) 0)
  | _ => .refused .noSuchPhase

/-- REQUEST_FROM phase 4 (R148): size and index, address, mode, start. -/
def startReceive (d : DrvId) (addr numBytes : Byte) (s : State) : State :=
  let b := s.busOf d
  let s := s.setRxcs b numBytes.toNat
  let s := s.setRxwi b 0
  let s := halSetTargetAddress b addr s
  let s := cacheAddress d addr s
  let s := halSetMode b .receive s
  halIssueStart b s

/-- What REQUEST_FROM phase 8 does after a NAK (R148, R251 E1). -/
def discardReceived (b : BusId) (s : State) : State := (s.setRxwi b 0).setRxcs b 0

/-- What REQUEST_FROM phase 8 does after a completed receive (R148, D13). -/
def collectReceived (d : DrvId) (s : State) : Result :=
  let b := s.busOf d
  andThen (if s.bus[b].rxwi = 0 then .next s else execHandleReceive d s) fun s =>
    .next (s.setRxcs b 0)

/-- REQUEST_FROM phase 8 (R148). -/
def finishReceive (d : DrvId) (s : State) : Result :=
  let b := s.busOf d
  let s := halSetMode b .transmit s
  if s.drv[d].gotnak then finish 0x0B (indexByte d) 0 (clearRequest d (discardReceived b s))
  else
    andThen (collectReceived d s) fun s =>
      finish 0x0B (indexByte d) (countByte s.drv[d].rdl) (clearRequest d s)

/-- REQUEST_FROM (R148). -/
def execRequestFrom (d : DrvId) (addr numBytes : Byte) (s : State) : Result :=
  let b := s.busOf d
  match s.fg.phase.toNat with
  | 0 =>
    if s.isMaster d then .next (goto (if s.txIdle b then 4 else 1) s)
    else finish 0x0B (indexByte d) 0 s
  | 1 => holdQuery (halIsBusBusy b) 2 s
  | 2 => andThen (startTransmission d false s) fun s => .next (goto 3 s)
  | 3 => .next (if s.drv[d].sendstop then goto 4 s else s)
  | 4 => .next (goto 5 (startReceive d addr numBytes s))
  | 5 => .next (goto 6 (if numBytes = 1 then halIssueStop b s else s))
  | 6 => .next (goto 7 (clearRequest d s))
  | 7 => .next (if s.drv[d].reqdone then goto 8 s else s)
  | 8 => finishReceive d s
  | _ => .refused .noSuchPhase

/-- READ (R149): no role guard. -/
def execRead (d : DrvId) (s : State) : Result :=
  match s.fg.phase.toNat with
  | 0 => .next (if s.cursorEmpty d then s else goto 1 s)
  | 1 => popRead d s fun v s => finish 0x0C (indexByte d) v s
  | _ => .refused .noSuchPhase

end Sys2Proof.Machine
end

