-- ==== Sys2Proof/Machine/Fetch.lean ====
section
/-! DEFINITION. Which agent moves next and what it runs (spec/10_state.md R40, R42, R45, R47;
spec/60_exceptions.md R243, R248, R262). The block has no program counter: the foreground's
instruction is the command word latched in FG, the dispatcher's is the event word that is due. -/

namespace Sys2Proof.Machine

/-- The command word latched in FG (R40). -/
def Foreground.word (f : Foreground) : Word := pack f.op f.drv f.a f.b

/-- Accept the command word `w`: latch it, at phase 0 (R42). -/
def latchCommand (w : Word) (s : State) : State :=
  s.setFg { busy := true, op := byte3 w, drv := byte2 w, a := byte1 w, b := byte0 w, phase := 0 }

/-- A command word on an idle CMD port: a legal one is accepted, an illegal one answered at once
(R42, R111). -/
def acceptCommand (w : Word) (s : State) : State :=
  match decodeCmd s.cfg w with
  | .ok _ => latchCommand w s
  | .error _ => respondIllegal w s

/-- One step that is no dispatcher invocation passes: the next arrival is one step nearer. -/
def tick (s : State) : State :=
  match s.irq with
  | e :: rest => { s with irq := { e with delay := e.delay - 1 } :: rest }
  | [] => s

/-- What the next step is. -/
inductive Move where
  /-- run an instruction in a state -/
  | run (i : Instr) (s : State)
  /-- go to a state without running one: a command accepted, an illegal word answered, a word that is
  no event ignored, nothing to do -/
  | settle (s : State)
  /-- no transition exists -/
  | blocked

/-- The foreground's move: the command in progress, else the next command word, else none (R45). An
illegal word in FG, which no run brings about, is answered as R111 says. -/
def foregroundMove (s : State) : Move :=
  if s.fg.busy then
    match decodeCmd s.cfg s.fg.word with
    | .ok i => .run i (tick s)
    | .error _ => .settle (respondIllegal s.fg.word (release (tick s)))
  else
    match s.cmd with
    | w :: rest => .settle (acceptCommand w { tick s with cmd := rest })
    | [] => .settle (tick s)

/-- The next step: an interrupt that is due goes before the foreground (R45, R243). With DISP.active
set between two steps nothing may step (R43, R247). -/
def fetch (s : State) : Move :=
  if s.disp.active then .blocked
  else
    match s.irq with
    | { delay := 0, word := w } :: rest =>
      match decodeEvent w with
      | .ok i => .run i { s with irq := rest }
      | .error _ => .settle { s with irq := rest }
    | _ => foregroundMove s

end Sys2Proof.Machine
end

