-- ==== Sys2Proof/Machine/Dispatch.lean ====
section
/-! DEFINITION. One arm per operation of spec/opcode_table.json. -/

namespace Sys2Proof.Machine

def exec (i : Instr) (s : State) : Host.Outcome State Fault Refusal :=
  match i with
  | .register d bus => Sys2Proof.Machine.execRegister d bus s
  | .unregister bus => Sys2Proof.Machine.execUnregister bus s
  | .setSpeed d speed => Sys2Proof.Machine.execSetSpeed d speed s
  | .beginMaster d => Sys2Proof.Machine.execBeginMaster d s
  | .beginSlave d addr => Sys2Proof.Machine.execBeginSlave d addr s
  | .onRequest d bind => Sys2Proof.Machine.execOnRequest d bind s
  | .onReceive d bind => Sys2Proof.Machine.execOnReceive d bind s
  | .beginTransmission d addr => Sys2Proof.Machine.execBeginTransmission d addr s
  | .write d byte => Sys2Proof.Machine.execWrite d byte s
  | .endTransmission d sendStop => Sys2Proof.Machine.execEndTransmission d sendStop s
  | .requestFrom d addr numBytes => Sys2Proof.Machine.execRequestFrom d addr numBytes s
  | .read d => Sys2Proof.Machine.execRead d s
  | .halInitMaster b config => Sys2Proof.Machine.execHalInitMaster b config s
  | .halInitSlave b addr => Sys2Proof.Machine.execHalInitSlave b addr s
  | .halEnableModule b => Sys2Proof.Machine.execHalEnableModule b s
  | .halDisableModule b => Sys2Proof.Machine.execHalDisableModule b s
  | .halSetMode b mode => Sys2Proof.Machine.execHalSetMode b mode s
  | .halSetTargetAddress b addr => Sys2Proof.Machine.execHalSetTargetAddress b addr s
  | .halIssueStart b => Sys2Proof.Machine.execHalIssueStart b s
  | .halIssueStop b => Sys2Proof.Machine.execHalIssueStop b s
  | .halSendNextByte b byte => Sys2Proof.Machine.execHalSendNextByte b byte s
  | .halReceiveNextByte b => Sys2Proof.Machine.execHalReceiveNextByte b s
  | .halIsBusBusy b => Sys2Proof.Machine.execHalIsBusBusy b s
  | .halIsStopPending b => Sys2Proof.Machine.execHalIsStopPending b s
  | .halGetInterruptStatus b => Sys2Proof.Machine.execHalGetInterruptStatus b s
  | .halClearInterruptStatus b bits => Sys2Proof.Machine.execHalClearInterruptStatus b bits s
  | .halEnableInterruptSources b bits => Sys2Proof.Machine.execHalEnableInterruptSources b bits s
  | .dispatch bus => Sys2Proof.Machine.execDispatch bus s
  | .evReceive => Sys2Proof.Machine.execEvReceive s
  | .evTransmit => Sys2Proof.Machine.execEvTransmit s
  | .evNak => Sys2Proof.Machine.execEvNak s
  | .evStop => Sys2Proof.Machine.execEvStop s
  | .upOnRequest d => Sys2Proof.Machine.execUpOnRequest d s
  | .upOnReceive d count => Sys2Proof.Machine.execUpOnReceive d count s
  | .lookup b => Sys2Proof.Machine.execLookup b s
  | .handleRequestSlave d => Sys2Proof.Machine.execHandleRequestSlave d s
  | .handleReceive d => Sys2Proof.Machine.execHandleReceive d s

end Sys2Proof.Machine
end

