-- ==== Sys2Proof/Machine/Place.lean ====
section
/-! DEFINITION. How an operation is put where the next step runs it, for `State.withFetchWord` (log
entry 12). A command word is latched in FG and an event word is due on the IRQ port; a status byte
is the answer to the status read of a due event. HAL and upcall words are output: the state is set
so that the next step emits exactly that word. No step of the machine uses this file. -/

namespace Sys2Proof.Machine

/-- No dispatcher invocation in progress, and none in the next step. -/
def holdInterrupts (s : State) : State :=
  let s := leaveDispatcher s
  match s.irq with
  | e :: rest => { s with irq := { e with delay := e.delay + 1 } :: rest }
  | [] => s

/-- The command word `w`, accepted. -/
def placeCommand (w : Word) (s : State) : State := latchCommand w (holdInterrupts s)

/-- The command word `w` at a later phase. -/
def placePhase (w : Word) (phase : BitVec 4) (s : State) : State := goto phase (placeCommand w s)

/-- An event of `bus`, due, whose status read answers `status`. -/
def placeEvent (bus status : Byte) (s : State) : State :=
  let s := leaveDispatcher s
  { s with irq := { delay := 0, word := eventWord bus } :: s.irq, answers := status :: s.answers }

/-- A driver bound to the bus. -/
def State.driverOn (s : State) (b : BusId) : Option DrvId :=
  ((List.range s.cfg.numDrivers).map (Fin.ofNat 256)).find? fun d => decide (s.busOf d = b)

/-- A foreground phase that emits a HAL word for the bus, for a driver bound to it. -/
def placeForDriver (b : BusId) (s : State) (f : DrvId → State) : State :=
  match s.driverOn b with
  | some d => f d
  | none => s

/-- The driver registered for its bus, in Slave role, nothing to send. -/
def readySlave (d : DrvId) (s : State) : State :=
  let b := s.busOf d
  let s := s.setReg b { valid := true, drv := d }
  let s := s.setDrv d { s.drv[d] with role := .slave }
  s.setTxwi b 0

/-- Put an operation where the next step runs it. -/
def placeOperation (i : Instr) (s : State) : State :=
  match i with
  | .halInitMaster b config =>
    placeForDriver b s fun d =>
      placeCommand (cmdWord 0x04 d 0 0) (s.setDrv d { s.drv[d] with speed := config })
  | .halInitSlave b addr => placeForDriver b s fun d => placeCommand (cmdWord 0x05 d addr 0) s
  | .halEnableModule b => placeForDriver b s fun d => placeCommand (cmdWord 0x04 d 0 0) s
  | .halSetMode b .receive =>
    placeForDriver b s fun d => placePhase (cmdWord 0x0B d 0 1) 4 s
  | .halSetMode b .transmit =>
    placeForDriver b s fun d => placePhase (cmdWord 0x0B d 0 1) 8 s
  | .halSetTargetAddress b addr =>
    placeForDriver b s fun d => placePhase (cmdWord 0x0B d addr 1) 4 s
  | .halIssueStart b => placeForDriver b s fun d => placePhase (cmdWord 0x0B d 0 1) 4 s
  | .halIssueStop b => placeForDriver b s fun d => placePhase (cmdWord 0x0B d 0 1) 5 s
  | .halSendNextByte b byte =>
    placeForDriver b s fun d =>
      placePhase (cmdWord 0x0A d 0 1) 2
        { s.setTxwi b 1 with mem := Memory.write s.mem (Buf.loc (.tx b) 0) byte }
  | .halIsBusBusy b => placeForDriver b s fun d => placePhase (cmdWord 0x0A d 0 1) 1 s
  | .halIsStopPending b => placeForDriver b s fun d => placePhase (cmdWord 0x08 d 0 0) 1 s
  | .halReceiveNextByte b => placeEvent (indexByte b) 0x01 s
  | .halGetInterruptStatus b => placeEvent (indexByte b) 0x00 s
  | .halClearInterruptStatus b bits => placeEvent (indexByte b) bits s
  | .halEnableInterruptSources b bits =>
    placeForDriver b s fun d =>
      placeCommand (cmdWord 0x04 d 0 0) { s with cfg := { s.cfg with masterIrqMask := bits } }
  | .dispatch bus => placeEvent bus 0x00 s
  | .evReceive => placeEvent (indexByte s.disp.bus) 0x01 s
  | .evTransmit => placeEvent (indexByte s.disp.bus) 0x02 s
  | .evNak => placeEvent (indexByte s.disp.bus) 0x04 s
  | .evStop => placeEvent (indexByte s.disp.bus) 0x08 s
  | .upOnRequest d =>
    let s := readySlave d s
    let s := s.setDrv d { s.drv[d] with onreq := true }
    placeEvent (indexByte (s.busOf d)) 0x02 { s with scripts := [] :: s.scripts }
  | .upOnReceive d count =>
    let s := readySlave d s
    let s := s.setDrv d { s.drv[d] with rdi := 0, rdl := 0, onrcv := true }
    let s := s.setRxwi (s.busOf d) count.toNat
    placeEvent (indexByte (s.busOf d)) 0x08 { s with scripts := [] :: s.scripts }
  | i =>
    match encode i with
    | some (.cmd, w) => placeCommand w s
    | _ => s

end Sys2Proof.Machine
end

