-- ==== Sys2Proof/Machine/Step.lean ====
section
/-! DEFINITION. One step (spec/60_exceptions.md R262): the next move of `fetch`, run. -/

namespace Sys2Proof.Machine

def step (s : State) : Host.Outcome State Fault Refusal :=
  match fetch s with
  | .run i s => exec i s
  | .settle s => .next s
  | .blocked => .fault .dispatcherRunning

/-- The word, as spec/opcode_table.json numbers its bits, where the next step runs it; a word no
port knows is put on the CMD port, to be answered as illegal. -/
def State.withFetchWord (s : State) (nbits w : Nat) : State :=
  match decodeTableWord nbits w with
  | some i => placeOperation i s
  | none => { holdInterrupts (release s) with cmd := BitVec.ofNat 32 w :: s.cmd }

end Sys2Proof.Machine
end

