-- ==== Sys2Proof/Safety.lean ====
section
/-! DEFINITION. The terms claims are made in: the invariant of the machine (spec/10_state.md R30, R41,
R43, R51), the premises about its surroundings a claim may state (spec/44_hal_interface.md R226, R227;
spec/70_reset_and_hazards.md R281), and what is read off the ports (R225, R229). -/

namespace Sys2Proof.Machine

/-! ### The invariant -/

/-- How many phases a command has (R41); 0 for what is no command. -/
def phaseCount : Instr → Nat
  | .register _ _ | .unregister _ | .setSpeed _ _ | .beginMaster _ | .beginSlave _ _
  | .onRequest _ _ | .onReceive _ _ | .write _ _ => 1
  | .read _ => 2
  | .beginTransmission _ _ | .endTransmission _ _ => 3
  | .requestFrom _ _ _ => 9
  | .halInitMaster _ _ | .halInitSlave _ _ | .halEnableModule _ | .halDisableModule _
  | .halSetMode _ _ | .halSetTargetAddress _ _ | .halIssueStart _ | .halIssueStop _
  | .halSendNextByte _ _ | .halReceiveNextByte _ | .halIsBusBusy _ | .halIsStopPending _
  | .halGetInterruptStatus _ | .halClearInterruptStatus _ _ | .halEnableInterruptSources _ _ => 0
  | .dispatch _ | .evReceive | .evTransmit | .evNak | .evStop => 0
  | .upOnRequest _ | .upOnReceive _ _ => 0
  | .lookup _ | .handleRequestSlave _ | .handleReceive _ => 0

/-- The command in progress, if there is one. -/
def State.inProgress (s : State) : Option Instr :=
  if s.fg.busy then (decodeCmd s.cfg s.fg.word).toOption else none

/-- R30, R51: the cursor is empty, or RDI < RDL <= RDCAP. -/
abbrev State.cursorOk (s : State) (d : DrvId) : Prop :=
  s.cursorEmpty d = true ∨ (s.drv[d].rdi < s.drv[d].rdl ∧ s.drv[d].rdl ≤ s.cfg.rdCap)

/-- The driver of a command that has a role guard (R143). -/
def guardedDriver : Instr → Option DrvId
  | .beginTransmission d _ | .endTransmission d _ | .requestFrom d _ _ => some d
  | _ => none

/-- R22, R23, R25, R26, R28, R29, R84: the index and size registers hold IDXW bits; R35: ADDR holds
ADDRW bits. -/
structure State.widthsOk (s : State) : Prop where
  bus : ∀ b : BusId, s.bus[b].txwi < 2 ^ s.cfg.idxw ∧ s.bus[b].txcs < 2 ^ s.cfg.idxw ∧
    s.bus[b].rxwi < 2 ^ s.cfg.idxw ∧ s.bus[b].rxcs < 2 ^ s.cfg.idxw
  drv : ∀ d : DrvId, s.drv[d].rdi < 2 ^ s.cfg.idxw ∧ s.drv[d].rdl < 2 ^ s.cfg.idxw ∧
    s.drv[d].addr < 2 ^ s.cfg.addrw

/-- What holds in every state between two steps of a run. -/
structure State.Inv (s : State) : Prop where
  /-- the parameters fit together (R8, D7) -/
  cfg : s.cfg.wf
  /-- the memory is in its canonical form -/
  mem : Memory.wf s.mem
  /-- every register holds a value of its width -/
  widths : s.widthsOk
  /-- R51: RXWI[b] <= RXCAP -/
  rxwi : ∀ b : BusId, s.bus[b].rxwi ≤ s.cfg.rxCap
  /-- R30, R51 -/
  cursor : ∀ d : DrvId, s.cursorOk d
  /-- a registered driver exists and is bound to its bus (R39, R111, R130) -/
  registry : ∀ b : BusId, s.reg[b].valid = true →
    s.reg[b].drv.val < s.cfg.numDrivers ∧ s.busOf s.reg[b].drv = b
  /-- R43: DISP.active is 0 between steps -/
  idle : s.disp.active = false
  /-- R40 to R42: a command in progress is legal and at a phase it has -/
  sequencer : s.fg.busy = true →
    ∃ i, decodeCmd s.cfg s.fg.word = .ok i ∧ s.fg.phase.toNat < phaseCount i
  /-- a guarded command past its guard runs in Master role (R143) -/
  guarded : ∀ i d, s.inProgress = some i → guardedDriver i = some d → s.fg.phase ≠ 0 →
    s.drv[d].role = .master
  /-- READ is at its second phase only while the cursor holds a message (R149) -/
  reading : ∀ d : DrvId, s.inProgress = some (.read d) → s.fg.phase = 1 → s.cursorEmpty d = false

/-! ### Premises -/

/-- The next step starts a transmission with nothing written: what R86 excludes. -/
def State.startsOnEmpty (s : State) : Bool :=
  s.fg.phase == 2 &&
  match s.inProgress with
  | some (.endTransmission d _) => s.txIdle (s.busOf d)
  | some (.requestFrom d _ _) => s.txIdle (s.busOf d)
  | _ => false

/-- R51: TXWI[b] <= TXCAP on every bus. -/
abbrev State.txFits (s : State) : Prop := ∀ b : BusId, s.bus[b].txwi ≤ s.cfg.txCap

/-- The event word that the next step serves, if an interrupt is due. -/
def State.dueEvent (s : State) : Option Word :=
  match s.irq with
  | { delay := 0, word := w } :: _ => some w
  | _ => none

/-- The command words a callback of driver `d` may issue: WRITE (R175), and READ too for onReceive
(R176). -/
def keepsContract (p : Params) (u : Upcall) (d : DrvId) (w : Word) : Bool :=
  match decodeCmd p w with
  | .ok (.write d' _) => d' == d
  | .ok (.read d') => d' == d && u == .onReceive
  | .ok _ => false
  | .error _ => true

/-! ### What is read off the ports -/

/-- What happens on the wire of a bus (R229). -/
inductive WireEvent where
  | start
  | stop
  | sent (byte : Byte)
  | clockedIn (byte : Byte)
  deriving DecidableEq, Repr

/-- A call on the HAL port: what it asks for, its return word, and the ROLE noted beside it. -/
structure Call where
  op : Instr
  ret : Option Word
  role : Option Role
  deriving DecidableEq, Repr

/-- The call of bus `b` that a port event is. -/
def callOf (p : Params) (b : BusId) : PortEvent → Option Call
  | .hal w ret role =>
    match decodeHal p w with
    | .ok i => if byte2 w = indexByte b then some ⟨i, ret, role⟩ else none
    | .error _ => none
  | .rsp _ | .upcall _ => none

/-- The calls of bus `b` on the HAL port, in order (R225). -/
def callsOf (p : Params) (b : BusId) (out : List PortEvent) : List Call :=
  out.filterMap (callOf p b)

/-- The call is an issueStart. -/
def Call.isStart (c : Call) : Bool :=
  match c.op with
  | .halIssueStart _ => true
  | _ => false

/-- A byte handed over counts as sent in Slave role, and in Master role after a start (R229). -/
def Call.sends (c : Call) (started : Bool) : Bool :=
  c.role == some .slave || (c.role == some .master && started)

/-- What a call shows on the wire (R229). -/
def Call.shows (c : Call) (started : Bool) : List WireEvent :=
  match c.op with
  | .halIssueStart _ => [.start]
  | .halIssueStop _ => [.stop]
  | .halSendNextByte _ v => if c.sends started then [.sent v] else []
  | .halReceiveNextByte _ => (c.ret.map fun w => WireEvent.clockedIn (byte0 w)).toList
  | _ => []

/-- The wire read off some calls; `started`: a start came before them. -/
def readWire : Bool → List Call → List WireEvent
  | _, [] => []
  | started, c :: rest => c.shows started ++ readWire (started || c.isStart) rest

/-- The wire of bus `b` (R229). "After a start" is read as any issueStart of the bus earlier in the
trace; MODEL'S READING, log entry 16. -/
def wire (p : Params) (b : BusId) (out : List PortEvent) : List WireEvent :=
  readWire false (callsOf p b out)

/-- A start asked for: the mode and the target address it is to have (R214 to R216). -/
structure Start where
  mode : Option Mode
  target : Option Byte
  deriving DecidableEq, Repr

/-- What the block has asked of the collaborator of one bus, as R210 to R224 say each call is relied
on: no state of the block (R48), and nothing of the block reads it. MODEL'S READING, log entry
15. -/
structure Collaborator where
  speed : Option Speed
  own : Option Byte
  target : Option Byte
  /-- the latest of enableModule and disableModule, none before either -/
  enabled : Option Bool
  mode : Option Mode
  /-- the sources asked for so far; others may be enabled too (R50) -/
  sources : Byte
  /-- the latest start, none before one -/
  start : Option Start
  /-- a stop was asked for since then -/
  stopping : Bool
  deriving DecidableEq, Repr

/-- Before any call the block has asked for nothing, and what the collaborator holds is unknown to it
(R50, R271). The start value of every field is the model's choice for "nothing asked yet": it does
not say that the module is off or that no source is enabled (log entry 15). -/
def Collaborator.unasked : Collaborator := ⟨none, none, none, none, none, 0, none, false⟩

/-- One call. Sources only add up: the block never narrows the set (R224). -/
def Collaborator.call (c : Collaborator) : Instr → Collaborator
  | .halInitMaster _ config => { c with speed := some config, mode := some .transmit }
  | .halInitSlave _ addr => { c with own := some addr }
  | .halEnableModule _ => { c with enabled := some true }
  | .halDisableModule _ => { c with enabled := some false }
  | .halSetMode _ mode => { c with mode := some mode }
  | .halSetTargetAddress _ addr => { c with target := some addr }
  | .halIssueStart _ => { c with start := some ⟨c.mode, c.target⟩, stopping := false }
  | .halIssueStop _ => { c with stopping := true }
  | .halEnableInterruptSources _ bits => { c with sources := c.sources ||| bits }
  | _ => c

/-- The collaborator of bus `b` after the calls on the HAL port. -/
def collaborator (p : Params) (b : BusId) (out : List PortEvent) : Collaborator :=
  (callsOf p b out).foldl (fun c e => c.call e.op) Collaborator.unasked

end Sys2Proof.Machine
end

