-- ==== Sys2Proof/Laws/State.lean ====
section
/-! SUPPORT. What each update of the state writes and what it leaves: one lemma per field and update,
so that no later proof unfolds a record update. -/

namespace Sys2Proof.Machine

variable (s : State)

@[simp] theorem State.setBus_cfg (b : BusId) (r : BusRegs) : (s.setBus b r).cfg = s.cfg := rfl
@[simp] theorem State.setBus_bus (b : BusId) (r : BusRegs) : (s.setBus b r).bus = s.bus.set b r := rfl
@[simp] theorem State.setBus_reg (b : BusId) (r : BusRegs) : (s.setBus b r).reg = s.reg := rfl
@[simp] theorem State.setBus_drv (b : BusId) (r : BusRegs) : (s.setBus b r).drv = s.drv := rfl
@[simp] theorem State.setBus_fg (b : BusId) (r : BusRegs) : (s.setBus b r).fg = s.fg := rfl
@[simp] theorem State.setBus_disp (b : BusId) (r : BusRegs) : (s.setBus b r).disp = s.disp := rfl
@[simp] theorem State.setBus_mem (b : BusId) (r : BusRegs) : (s.setBus b r).mem = s.mem := rfl
@[simp] theorem State.setBus_found (b : BusId) (r : BusRegs) : (s.setBus b r).found = s.found := rfl
@[simp] theorem State.setBus_cmd (b : BusId) (r : BusRegs) : (s.setBus b r).cmd = s.cmd := rfl
@[simp] theorem State.setBus_irq (b : BusId) (r : BusRegs) : (s.setBus b r).irq = s.irq := rfl
@[simp] theorem State.setBus_answers (b : BusId) (r : BusRegs) : (s.setBus b r).answers = s.answers := rfl
@[simp] theorem State.setBus_scripts (b : BusId) (r : BusRegs) : (s.setBus b r).scripts = s.scripts := rfl
@[simp] theorem State.setBus_draws (b : BusId) (r : BusRegs) : (s.setBus b r).draws = s.draws := rfl
@[simp] theorem State.setBus_out (b : BusId) (r : BusRegs) : (s.setBus b r).out = s.out := rfl

@[simp] theorem State.setReg_cfg (b : BusId) (r : RegEntry) : (s.setReg b r).cfg = s.cfg := rfl
@[simp] theorem State.setReg_bus (b : BusId) (r : RegEntry) : (s.setReg b r).bus = s.bus := rfl
@[simp] theorem State.setReg_reg (b : BusId) (r : RegEntry) : (s.setReg b r).reg = s.reg.set b r := rfl
@[simp] theorem State.setReg_drv (b : BusId) (r : RegEntry) : (s.setReg b r).drv = s.drv := rfl
@[simp] theorem State.setReg_fg (b : BusId) (r : RegEntry) : (s.setReg b r).fg = s.fg := rfl
@[simp] theorem State.setReg_disp (b : BusId) (r : RegEntry) : (s.setReg b r).disp = s.disp := rfl
@[simp] theorem State.setReg_mem (b : BusId) (r : RegEntry) : (s.setReg b r).mem = s.mem := rfl
@[simp] theorem State.setReg_found (b : BusId) (r : RegEntry) : (s.setReg b r).found = s.found := rfl
@[simp] theorem State.setReg_cmd (b : BusId) (r : RegEntry) : (s.setReg b r).cmd = s.cmd := rfl
@[simp] theorem State.setReg_irq (b : BusId) (r : RegEntry) : (s.setReg b r).irq = s.irq := rfl
@[simp] theorem State.setReg_answers (b : BusId) (r : RegEntry) : (s.setReg b r).answers = s.answers := rfl
@[simp] theorem State.setReg_scripts (b : BusId) (r : RegEntry) : (s.setReg b r).scripts = s.scripts := rfl
@[simp] theorem State.setReg_draws (b : BusId) (r : RegEntry) : (s.setReg b r).draws = s.draws := rfl
@[simp] theorem State.setReg_out (b : BusId) (r : RegEntry) : (s.setReg b r).out = s.out := rfl

@[simp] theorem State.setDrv_cfg (d : DrvId) (r : DrvRegs) : (s.setDrv d r).cfg = s.cfg := rfl
@[simp] theorem State.setDrv_bus (d : DrvId) (r : DrvRegs) : (s.setDrv d r).bus = s.bus := rfl
@[simp] theorem State.setDrv_reg (d : DrvId) (r : DrvRegs) : (s.setDrv d r).reg = s.reg := rfl
@[simp] theorem State.setDrv_drv (d : DrvId) (r : DrvRegs) : (s.setDrv d r).drv = s.drv.set d r := rfl
@[simp] theorem State.setDrv_fg (d : DrvId) (r : DrvRegs) : (s.setDrv d r).fg = s.fg := rfl
@[simp] theorem State.setDrv_disp (d : DrvId) (r : DrvRegs) : (s.setDrv d r).disp = s.disp := rfl
@[simp] theorem State.setDrv_mem (d : DrvId) (r : DrvRegs) : (s.setDrv d r).mem = s.mem := rfl
@[simp] theorem State.setDrv_found (d : DrvId) (r : DrvRegs) : (s.setDrv d r).found = s.found := rfl
@[simp] theorem State.setDrv_cmd (d : DrvId) (r : DrvRegs) : (s.setDrv d r).cmd = s.cmd := rfl
@[simp] theorem State.setDrv_irq (d : DrvId) (r : DrvRegs) : (s.setDrv d r).irq = s.irq := rfl
@[simp] theorem State.setDrv_answers (d : DrvId) (r : DrvRegs) : (s.setDrv d r).answers = s.answers := rfl
@[simp] theorem State.setDrv_scripts (d : DrvId) (r : DrvRegs) : (s.setDrv d r).scripts = s.scripts := rfl
@[simp] theorem State.setDrv_draws (d : DrvId) (r : DrvRegs) : (s.setDrv d r).draws = s.draws := rfl
@[simp] theorem State.setDrv_out (d : DrvId) (r : DrvRegs) : (s.setDrv d r).out = s.out := rfl

@[simp] theorem State.setFg_cfg (f : Foreground) : (s.setFg f).cfg = s.cfg := rfl
@[simp] theorem State.setFg_bus (f : Foreground) : (s.setFg f).bus = s.bus := rfl
@[simp] theorem State.setFg_reg (f : Foreground) : (s.setFg f).reg = s.reg := rfl
@[simp] theorem State.setFg_drv (f : Foreground) : (s.setFg f).drv = s.drv := rfl
@[simp] theorem State.setFg_fg (f : Foreground) : (s.setFg f).fg = f := rfl
@[simp] theorem State.setFg_disp (f : Foreground) : (s.setFg f).disp = s.disp := rfl
@[simp] theorem State.setFg_mem (f : Foreground) : (s.setFg f).mem = s.mem := rfl
@[simp] theorem State.setFg_found (f : Foreground) : (s.setFg f).found = s.found := rfl
@[simp] theorem State.setFg_cmd (f : Foreground) : (s.setFg f).cmd = s.cmd := rfl
@[simp] theorem State.setFg_irq (f : Foreground) : (s.setFg f).irq = s.irq := rfl
@[simp] theorem State.setFg_answers (f : Foreground) : (s.setFg f).answers = s.answers := rfl
@[simp] theorem State.setFg_scripts (f : Foreground) : (s.setFg f).scripts = s.scripts := rfl
@[simp] theorem State.setFg_draws (f : Foreground) : (s.setFg f).draws = s.draws := rfl
@[simp] theorem State.setFg_out (f : Foreground) : (s.setFg f).out = s.out := rfl

@[simp] theorem State.setDisp_cfg (x : Dispatcher) : (s.setDisp x).cfg = s.cfg := rfl
@[simp] theorem State.setDisp_bus (x : Dispatcher) : (s.setDisp x).bus = s.bus := rfl
@[simp] theorem State.setDisp_reg (x : Dispatcher) : (s.setDisp x).reg = s.reg := rfl
@[simp] theorem State.setDisp_drv (x : Dispatcher) : (s.setDisp x).drv = s.drv := rfl
@[simp] theorem State.setDisp_fg (x : Dispatcher) : (s.setDisp x).fg = s.fg := rfl
@[simp] theorem State.setDisp_disp (x : Dispatcher) : (s.setDisp x).disp = x := rfl
@[simp] theorem State.setDisp_mem (x : Dispatcher) : (s.setDisp x).mem = s.mem := rfl
@[simp] theorem State.setDisp_found (x : Dispatcher) : (s.setDisp x).found = s.found := rfl
@[simp] theorem State.setDisp_cmd (x : Dispatcher) : (s.setDisp x).cmd = s.cmd := rfl
@[simp] theorem State.setDisp_irq (x : Dispatcher) : (s.setDisp x).irq = s.irq := rfl
@[simp] theorem State.setDisp_answers (x : Dispatcher) : (s.setDisp x).answers = s.answers := rfl
@[simp] theorem State.setDisp_scripts (x : Dispatcher) : (s.setDisp x).scripts = s.scripts := rfl
@[simp] theorem State.setDisp_draws (x : Dispatcher) : (s.setDisp x).draws = s.draws := rfl
@[simp] theorem State.setDisp_out (x : Dispatcher) : (s.setDisp x).out = s.out := rfl

@[simp] theorem State.setFound_cfg (x : Option DrvId) : (s.setFound x).cfg = s.cfg := rfl
@[simp] theorem State.setFound_bus (x : Option DrvId) : (s.setFound x).bus = s.bus := rfl
@[simp] theorem State.setFound_reg (x : Option DrvId) : (s.setFound x).reg = s.reg := rfl
@[simp] theorem State.setFound_drv (x : Option DrvId) : (s.setFound x).drv = s.drv := rfl
@[simp] theorem State.setFound_fg (x : Option DrvId) : (s.setFound x).fg = s.fg := rfl
@[simp] theorem State.setFound_disp (x : Option DrvId) : (s.setFound x).disp = s.disp := rfl
@[simp] theorem State.setFound_mem (x : Option DrvId) : (s.setFound x).mem = s.mem := rfl
@[simp] theorem State.setFound_found (x : Option DrvId) : (s.setFound x).found = x := rfl
@[simp] theorem State.setFound_cmd (x : Option DrvId) : (s.setFound x).cmd = s.cmd := rfl
@[simp] theorem State.setFound_irq (x : Option DrvId) : (s.setFound x).irq = s.irq := rfl
@[simp] theorem State.setFound_answers (x : Option DrvId) : (s.setFound x).answers = s.answers := rfl
@[simp] theorem State.setFound_scripts (x : Option DrvId) : (s.setFound x).scripts = s.scripts := rfl
@[simp] theorem State.setFound_draws (x : Option DrvId) : (s.setFound x).draws = s.draws := rfl
@[simp] theorem State.setFound_out (x : Option DrvId) : (s.setFound x).out = s.out := rfl

@[simp] theorem State.emit_cfg (e : PortEvent) : (s.emit e).cfg = s.cfg := rfl
@[simp] theorem State.emit_bus (e : PortEvent) : (s.emit e).bus = s.bus := rfl
@[simp] theorem State.emit_reg (e : PortEvent) : (s.emit e).reg = s.reg := rfl
@[simp] theorem State.emit_drv (e : PortEvent) : (s.emit e).drv = s.drv := rfl
@[simp] theorem State.emit_fg (e : PortEvent) : (s.emit e).fg = s.fg := rfl
@[simp] theorem State.emit_disp (e : PortEvent) : (s.emit e).disp = s.disp := rfl
@[simp] theorem State.emit_mem (e : PortEvent) : (s.emit e).mem = s.mem := rfl
@[simp] theorem State.emit_found (e : PortEvent) : (s.emit e).found = s.found := rfl
@[simp] theorem State.emit_cmd (e : PortEvent) : (s.emit e).cmd = s.cmd := rfl
@[simp] theorem State.emit_irq (e : PortEvent) : (s.emit e).irq = s.irq := rfl
@[simp] theorem State.emit_answers (e : PortEvent) : (s.emit e).answers = s.answers := rfl
@[simp] theorem State.emit_scripts (e : PortEvent) : (s.emit e).scripts = s.scripts := rfl
@[simp] theorem State.emit_draws (e : PortEvent) : (s.emit e).draws = s.draws := rfl
@[simp] theorem State.emit_out (e : PortEvent) : (s.emit e).out = s.out ++ [e] := rfl

@[simp] theorem State.takeAnswer_cfg : s.takeAnswer.cfg = s.cfg := by
  unfold State.takeAnswer; split <;> rfl
@[simp] theorem State.takeAnswer_bus : s.takeAnswer.bus = s.bus := by
  unfold State.takeAnswer; split <;> rfl
@[simp] theorem State.takeAnswer_reg : s.takeAnswer.reg = s.reg := by
  unfold State.takeAnswer; split <;> rfl
@[simp] theorem State.takeAnswer_drv : s.takeAnswer.drv = s.drv := by
  unfold State.takeAnswer; split <;> rfl
@[simp] theorem State.takeAnswer_fg : s.takeAnswer.fg = s.fg := by
  unfold State.takeAnswer; split <;> rfl
@[simp] theorem State.takeAnswer_disp : s.takeAnswer.disp = s.disp := by
  unfold State.takeAnswer; split <;> rfl
@[simp] theorem State.takeAnswer_mem : s.takeAnswer.mem = s.mem := by
  unfold State.takeAnswer; split <;> rfl
@[simp] theorem State.takeAnswer_found : s.takeAnswer.found = s.found := by
  unfold State.takeAnswer; split <;> rfl
@[simp] theorem State.takeAnswer_cmd : s.takeAnswer.cmd = s.cmd := by
  unfold State.takeAnswer; split <;> rfl
@[simp] theorem State.takeAnswer_irq : s.takeAnswer.irq = s.irq := by
  unfold State.takeAnswer; split <;> rfl
@[simp] theorem State.takeAnswer_scripts : s.takeAnswer.scripts = s.scripts := by
  unfold State.takeAnswer; split <;> rfl
@[simp] theorem State.takeAnswer_out : s.takeAnswer.out = s.out := by
  unfold State.takeAnswer; split <;> rfl

@[simp] theorem State.takeScript_cfg : s.takeScript.cfg = s.cfg := by
  unfold State.takeScript; split <;> rfl
@[simp] theorem State.takeScript_bus : s.takeScript.bus = s.bus := by
  unfold State.takeScript; split <;> rfl
@[simp] theorem State.takeScript_reg : s.takeScript.reg = s.reg := by
  unfold State.takeScript; split <;> rfl
@[simp] theorem State.takeScript_drv : s.takeScript.drv = s.drv := by
  unfold State.takeScript; split <;> rfl
@[simp] theorem State.takeScript_fg : s.takeScript.fg = s.fg := by
  unfold State.takeScript; split <;> rfl
@[simp] theorem State.takeScript_disp : s.takeScript.disp = s.disp := by
  unfold State.takeScript; split <;> rfl
@[simp] theorem State.takeScript_mem : s.takeScript.mem = s.mem := by
  unfold State.takeScript; split <;> rfl
@[simp] theorem State.takeScript_found : s.takeScript.found = s.found := by
  unfold State.takeScript; split <;> rfl
@[simp] theorem State.takeScript_cmd : s.takeScript.cmd = s.cmd := by
  unfold State.takeScript; split <;> rfl
@[simp] theorem State.takeScript_irq : s.takeScript.irq = s.irq := by
  unfold State.takeScript; split <;> rfl
@[simp] theorem State.takeScript_answers : s.takeScript.answers = s.answers := by
  unfold State.takeScript; split <;> rfl
@[simp] theorem State.takeScript_out : s.takeScript.out = s.out := by
  unfold State.takeScript; split <;> rfl

/-! ### Reading a register after a write -/

theorem vector_get_set {α : Type} (v : Vector α 256) (i j : Fin 256) (x : α) :
    (v.set i x)[j] = if i = j then x else v[j] := by
  simp only [Fin.getElem_fin, Vector.getElem_set, Fin.ext_iff]

@[simp] theorem vector_get_set_self {α : Type} (v : Vector α 256) (i : Fin 256) (x : α) :
    (v.set i x)[i] = x := by
  simp

theorem vector_get_set_ne {α : Type} (v : Vector α 256) {i j : Fin 256} (h : i ≠ j) (x : α) :
    (v.set i x)[j] = v[j] := by
  rw [vector_get_set, if_neg h]

@[simp] theorem vector_set_set {α : Type} (v : Vector α 256) (i : Fin 256) (x y : α) :
    (v.set i x).set i y = v.set i y := by
  simp

@[simp] theorem vector_set_same {α : Type} (v : Vector α 256) (i : Fin 256) :
    v.set i v[i] = v := by
  simp

end Sys2Proof.Machine
end

