-- ==== Sys2Proof/Certificates/Slice0/Obligations.lean ====
section
/-! DEFINITION. The statements about the machine, for the provers. An equation `exec i s = .next t` with
`t` written out from `s` says what the operation writes and, by what `t` shares with `s`, that it
writes nothing else. The ROLE that stands beside a sendNextByte in `out` is MODEL'S NOTE, no part of
a word (log entry 16). -/

open Sys2Proof Sys2Proof.Machine

/-! ### Words -/

/-- 30_encoding R101 to R109: the word of every well-formed operation decodes, on its port, to that
operation with every operand. -/
def Obligations.DecodeEncodeRoundTrip : Prop :=
  ∀ (p : Params) (i : Instr) (port : Port) (w : Word),
    i.wellFormed p = true → encode i = some (port, w) → decode p port w = .ok i

/-- 30_encoding R101 to R109: what the CMD, HAL, IRQ and UPCALL ports decode is well formed and has
exactly that word: no two words mean the same, and no bit of a word is ignored. -/
def Obligations.EncodeDecodeRoundTrip : Prop :=
  ∀ (p : Params) (port : Port) (w : Word) (i : Instr), port ≠ .status →
    decode p port w = .ok i → encode i = some (port, w) ∧ i.wellFormed p = true

/-- 95_test_vectors V-DEC-1 to V-DEC-14, V-ILL-1 to V-ILL-9, and the words of R104, R105. -/
def Obligations.KnownWordsDecode : Prop :=
  decodeCmd Config.reference 0x01030300 = .ok (.register 3 3) ∧
  decodeCmd Config.reference 0x02000200 = .ok (.unregister 2) ∧
  decodeCmd Config.reference 0x03000001 = .ok (.setSpeed 0 .fast400k) ∧
  decodeCmd Config.reference 0x05014200 = .ok (.beginSlave 1 0x42) ∧
  decodeCmd Config.reference 0x0900A100 = .ok (.write 0 0xA1) ∧
  decodeCmd Config.reference 0x0A000001 = .ok (.endTransmission 0 true) ∧
  decodeCmd Config.reference 0x0B0048FF = .ok (.requestFrom 0 0x48 255) ∧
  decodeCmd Config.reference 0x0D000000 = .error .unknownCode ∧
  decodeCmd Config.reference 0x01000100 = .error .wrongBus ∧
  decodeCmd Config.reference 0x09040000 = .error .noSuchDriver ∧
  decodeCmd Config.reference 0x0A000002 = .error .reservedBits ∧
  decodeHal Config.reference 0x06020050 = .ok (.halSetTargetAddress 2 0x50) ∧
  decodeEvent 0xE0010000 = .ok (.dispatch 1) ∧
  decodeUpcall Config.reference 0xF1010003 = .ok (.upOnReceive 1 3)

/-- The bits the table of R107 fixes beside OP, per operation code. -/
def commandZeroMask (op : Byte) : Word :=
  match op.toNat with
  | 0x01 => 0x000000FF
  | 0x02 => 0x00FF00FF
  | 0x03 => 0x0000FFFE
  | 0x04 => 0x0000FFFF
  | 0x05 => 0x000000FF
  | 0x06 => 0x0000FFFE
  | 0x07 => 0x0000FFFE
  | 0x08 => 0x000000FF
  | 0x09 => 0x000000FF
  | 0x0A => 0x0000FFFE
  | 0x0B => 0x00000000
  | 0x0C => 0x0000FFFF
  | _ => 0x00000000

/-- R111, the conditions of an illegal command word. -/
abbrev illegalCommand (p : Params) (w : Word) : Prop :=
  byte3 w = 0 ∨ 0x0D ≤ byte3 w ∨
  w &&& commandZeroMask (byte3 w) ≠ 0 ∨
  (byte3 w ≠ 0x02 ∧ p.numDrivers ≤ (byte2 w).toNat) ∨
  ((byte3 w = 0x01 ∨ byte3 w = 0x02) ∧ p.numBuses ≤ (byte1 w).toNat) ∨
  (byte3 w = 0x01 ∧ ∃ d : DrvId, indexByte d = byte2 w ∧ indexByte p.busOf[d] ≠ byte1 w)

/-- 30_encoding R111: a command word names no operation exactly if it meets one of the conditions. -/
def Obligations.IllegalCommandsAreExactlyTheListed : Prop :=
  ∀ (p : Params) (w : Word), (∀ i, decodeCmd p w ≠ .ok i) ↔ illegalCommand p w

/-- 30_encoding R105, 43_dispatcher R190: bits 0 to 3 of a status byte select the four handlers, in
that order, and bits 7:4 select nothing. -/
def Obligations.StatusByteSelectsHandlers : Prop :=
  ∀ x : Byte,
    (.evReceive ∈ statusHandlers x ↔ x.getLsbD 0 = true) ∧
    (.evTransmit ∈ statusHandlers x ↔ x.getLsbD 1 = true) ∧
    (.evNak ∈ statusHandlers x ↔ x.getLsbD 2 = true) ∧
    (.evStop ∈ statusHandlers x ↔ x.getLsbD 3 = true) ∧
    (statusHandlers x).Sublist [.evReceive, .evTransmit, .evNak, .evStop] ∧
    statusHandlers x = statusHandlers (x &&& 0x0F)

/-! ### The step -/

/-- 10_state R42, R45: with no interrupt due, a step runs the command latched in FG. `tick` counts the
model's own delay of the next arrival down (log entry 4). -/
def Obligations.StepRunsTheLatchedCommand : Prop :=
  ∀ (s : State) (i : Instr), s.disp.active = false → s.dueEvent = none → s.fg.busy = true →
    decodeCmd s.cfg (pack s.fg.op s.fg.drv s.fg.a s.fg.b) = .ok i → step s = exec i (tick s)

/-- 10_state R45, 60_exceptions R243, R245: an interrupt that is due is served before anything else,
the first of the pending ones, by DISPATCH of its bus. When one is due, and in what order, is
given by the model's own list `irq` (log entry 4). -/
def Obligations.StepServesTheDueInterrupt : Prop :=
  ∀ (s : State) (bus : Byte) (rest : List Arrival), s.disp.active = false →
    s.irq = { delay := 0, word := eventWord bus } :: rest →
    step s = exec (.dispatch bus) { s with irq := rest }

/-- 10_state R42, R47: with no interrupt due and FG idle, a legal command word is latched, at phase
0, and nothing else is done. `tick` counts the model's own delay of the next arrival down (log
entry 4). -/
def Obligations.StepAcceptsALegalCommand : Prop :=
  ∀ (s : State) (w : Word) (rest : List Word) (i : Instr), s.disp.active = false →
    s.dueEvent = none → s.fg.busy = false → s.cmd = w :: rest → decodeCmd s.cfg w = .ok i →
    step s = .next { tick s with
      cmd := rest
      fg := { busy := true, op := byte3 w, drv := byte2 w, a := byte1 w, b := byte0 w, phase := 0 } }

/-- 30_encoding R111, R102: an illegal command word is answered at once with ILL = 1 and VAL = 0, its
OP and DRV echoed, and changes nothing. MODEL'S CHOICE: the answer is a step of its own, in which
`tick` counts the next arrival's delay down (log entry 4). -/
def Obligations.StepOnlyAnswersAnIllegalCommand : Prop :=
  ∀ (s : State) (w : Word) (rest : List Word), s.disp.active = false →
    s.dueEvent = none → s.fg.busy = false → s.cmd = w :: rest → illegalCommand s.cfg w →
    step s = .next { tick s with
      cmd := rest
      out := s.out ++ [.rsp (pack (byte3 w) (byte2 w) 0x01 0x00)] }

/-- MODEL'S CHOICE (log entry 4): with nothing to serve, in progress or waiting, the model's step is an
idle one, in which at most the delay of the next arrival changes. The spec has three kinds of
transition and none of them is this one (60_exceptions R262); in such a state its block has none
of its own to take. -/
def Obligations.IdleBlockWaits : Prop :=
  ∀ s : State, s.disp.active = false → s.dueEvent = none → s.fg.busy = false → s.cmd = [] →
    step s = .next (tick s) ∧ { tick s with irq := s.irq } = s

/-! ### Reset -/

/-- 10_state R50, the values it states. -/
def Obligations.ResetLeavesTheStatedValues : Prop :=
  (∀ b : BusId, State.reset.bus[b].txwi = 0 ∧ State.reset.bus[b].txcs = 0 ∧
    State.reset.bus[b].rxwi = 0 ∧ State.reset.bus[b].rxcs = 0 ∧
    State.reset.reg[b].valid = false) ∧
  (∀ d : DrvId, State.reset.drv[d].rdi = 0 ∧ State.reset.drv[d].rdl = 0 ∧
    State.reset.drv[d].reqdone = false ∧ State.reset.drv[d].gotnak = false ∧
    State.reset.drv[d].sendstop = true ∧ State.reset.drv[d].role = .unset ∧
    State.reset.drv[d].addrv = false ∧ State.reset.drv[d].speed = .standard100k ∧
    State.reset.drv[d].onreq = false ∧ State.reset.drv[d].onrcv = false) ∧
  State.reset.fg.busy = false ∧ State.reset.disp.active = false ∧ State.reset.out = []

/-- The invariant holds after reset, in the reference configuration and in every one that meets
`Params.wf`. -/
def Obligations.ResetMeetsTheInvariant : Prop :=
  State.reset.Inv ∧ ∀ p : Params, p.wf → State.Inv { State.reset with cfg := p }

/-! ### Registry and configuration commands -/

/-- 40_registry R130, R131: the commands write one registry entry, whatever it held. R41 gives them
phase 0 only; MODEL'S CHOICE (log entry 9): they run so at every other FG.phase too. -/
def Obligations.RegistryCommandsWriteOneEntry : Prop :=
  ∀ (s : State) (d : DrvId) (bus : BusId),
    exec (.register d bus) s = .next { s with
      reg := s.reg.set bus { valid := true, drv := d }
      fg := { s.fg with busy := false }
      out := s.out ++ [.rsp (pack 0x01 (indexByte d) 0 0)] } ∧
    exec (.unregister bus) s = .next { s with
      reg := s.reg.set bus { s.reg[bus] with valid := false }
      fg := { s.fg with busy := false }
      out := s.out ++ [.rsp (pack 0x02 0 0 0)] }

/-- 40_registry R132; `found` is the model's own field for the value returned (log entry 5). -/
def Obligations.LookupReadsTheRegistry : Prop :=
  ∀ (s : State) (b : BusId),
    exec (.lookup b) s = .next { s with
      found := if s.reg[b].valid = true then some s.reg[b].drv else none }

/-- 41_master_commands R140, 42_slave_commands R171, R172. R41 gives the three commands phase 0 only;
MODEL'S CHOICE (log entry 9): they run so at every other FG.phase too. -/
def Obligations.ConfigurationCommandsWriteOneRegister : Prop :=
  ∀ (s : State) (d : DrvId) (speed : Speed) (bind : Bool),
    exec (.setSpeed d speed) s = .next { s with
      drv := s.drv.set d { s.drv[d] with speed := speed }
      fg := { s.fg with busy := false }
      out := s.out ++ [.rsp (pack 0x03 (indexByte d) 0 0)] } ∧
    exec (.onRequest d bind) s = .next { s with
      drv := s.drv.set d { s.drv[d] with onreq := bind }
      fg := { s.fg with busy := false }
      out := s.out ++ [.rsp (pack 0x06 (indexByte d) 0 0)] } ∧
    exec (.onReceive d bind) s = .next { s with
      drv := s.drv.set d { s.drv[d] with onrcv := bind }
      fg := { s.fg with busy := false }
      out := s.out ++ [.rsp (pack 0x07 (indexByte d) 0 0)] }

/-- 41_master_commands R141, 42_slave_commands R170. R41 gives the two commands phase 0 only; MODEL'S
CHOICE (log entry 9): they run so at every other FG.phase too. -/
def Obligations.BeginCommandsConfigureTheBus : Prop :=
  ∀ (s : State) (d : DrvId) (addr : Byte),
    exec (.beginMaster d) s = .next { s with
      drv := s.drv.set d { s.drv[d] with role := .master, addrv := false }
      fg := { s.fg with busy := false }
      out := s.out ++
        [.hal (halWord 0x01 (s.busOf d) (boolByte s.drv[d].speed.code)) none,
         .hal (halWord 0x03 (s.busOf d) 0) none,
         .hal (halWord 0x0F (s.busOf d) s.cfg.masterIrqMask) none,
         .rsp (pack 0x04 (indexByte d) 0 0)] } ∧
    exec (.beginSlave d addr) s = .next { s with
      drv := s.drv.set d { s.drv[d] with role := .slave, addr := addr.toNat, addrv := true }
      fg := { s.fg with busy := false }
      out := s.out ++
        [.hal (halWord 0x02 (s.busOf d) addr) none,
         .hal (halWord 0x03 (s.busOf d) 0) none,
         .hal (halWord 0x0F (s.busOf d) s.cfg.slaveIrqMask) none,
         .rsp (pack 0x05 (indexByte d) 0 0)] }

/-! ### Master data path -/

/-- 41_master_commands R142, phase by phase; a hold takes one answer of isStopPending. -/
def Obligations.BeginTransmissionPhases : Prop :=
  ∀ (s : State) (d : DrvId) (a : Byte),
    (s.fg.phase = 0 → s.drv[d].role ≠ .master →
      exec (.beginTransmission d a) s = .next { s with
        fg := { s.fg with busy := false }
        out := s.out ++ [.rsp (pack 0x08 (indexByte d) 0 0)] }) ∧
    (s.fg.phase = 0 → s.drv[d].role = .master →
      exec (.beginTransmission d a) s = .next { s with fg := { s.fg with phase := 1 } }) ∧
    (s.fg.phase = 1 →
      exec (.beginTransmission d a) s = .next { s.takeAnswer with
        fg := { s.fg with phase := if s.nextAnswer.getLsbD 0 = true then 1 else 2 }
        out := s.out ++
          [.hal (halWord 0x0C (s.busOf d) 0) (some (pack 0x0C (indexByte (s.busOf d)) 0 s.nextAnswer))] }) ∧
    (s.fg.phase = 2 → s.drv[d].addrv = true → s.drv[d].addr = a.toNat →
      exec (.beginTransmission d a) s = .next { s with
        fg := { s.fg with busy := false }
        out := s.out ++ [.rsp (pack 0x08 (indexByte d) 0 0)] }) ∧
    (s.fg.phase = 2 → (s.drv[d].addrv = false ∨ s.drv[d].addr ≠ a.toNat) →
      exec (.beginTransmission d a) s = .next { s with
        drv := s.drv.set d { s.drv[d] with addr := a.toNat, addrv := true }
        fg := { s.fg with busy := false }
        out := s.out ++
          [.hal (halWord 0x06 (s.busOf d) a) none, .rsp (pack 0x08 (indexByte d) 0 0)] })

/-- 41_master_commands R144: below the capacity WRITE stores at TXWI and counts, in every role. R41
gives WRITE phase 0 only; MODEL'S CHOICE (log entry 9): it runs so at every other FG.phase too. -/
def Obligations.WriteAppendsAByte : Prop :=
  ∀ (s : State) (d : DrvId) (x : Byte), s.bus[s.busOf d].txwi < s.cfg.txCap →
    exec (.write d x) s = .next { s with
      mem := Memory.write s.mem (Buf.loc (.tx (s.busOf d)) s.bus[s.busOf d].txwi) x
      bus := s.bus.set (s.busOf d)
        { s.bus[s.busOf d] with txwi := s.bus[s.busOf d].txwi + 1 }
      fg := { s.fg with busy := false }
      out := s.out ++ [.rsp (pack 0x09 (indexByte d) 0 0)] }

/-- 20_memory R76 (a), (b), (c), (d): the four places an overrun arises, with the array and the
index, and that nothing else is done. R41 gives WRITE phase 0 only; MODEL'S CHOICE (log entry 9): it
overruns so at every other FG.phase too. -/
def Obligations.OverrunsRaiseTheFault : Prop :=
  ∀ (s : State) (d : DrvId) (b : BusId) (x : Byte), s.disp.bus = b →
    (s.cfg.txCap ≤ s.bus[s.busOf d].txwi →
      exec (.write d x) s = .fault (.overrun (.tx (s.busOf d)) s.bus[s.busOf d].txwi)) ∧
    (s.cfg.rxCap ≤ s.bus[b].rxwi →
      exec .evReceive s = .fault (.overrun (.rx b) s.bus[b].rxwi)) ∧
    (s.lookup b = some d → s.drv[d].role = .master → s.bus[b].txwi ≠ 0 →
      (s.bus[b].txcs < s.bus[b].txwi ∨ s.cfg.txCap ≤ s.bus[b].txcs - s.bus[b].txwi) →
      exec .evTransmit s =
        .fault (.overrun (.tx b) ((s.bus[b].txcs : Int) - s.bus[b].txwi))) ∧
    (s.bus[s.busOf d].txwi ≠ 0 → s.bus[s.busOf d].txwi ≤ s.bus[s.busOf d].txcs →
      s.cfg.txCap ≤ s.bus[s.busOf d].txwi →
      exec (.handleRequestSlave d) s =
        .fault (.overrun (.tx (s.busOf d)) s.bus[s.busOf d].txwi))

/-- 41_master_commands R146, phases 0 and 1. -/
def Obligations.EndTransmissionGuardAndHold : Prop :=
  ∀ (s : State) (d : DrvId) (stop : Bool),
    (s.fg.phase = 0 → (s.drv[d].role ≠ .master ∨ s.bus[s.busOf d].txwi = 0) →
      exec (.endTransmission d stop) s = .next { s with
        fg := { s.fg with busy := false }
        out := s.out ++ [.rsp (pack 0x0A (indexByte d) 0 0)] }) ∧
    (s.fg.phase = 0 → s.drv[d].role = .master → s.bus[s.busOf d].txwi ≠ 0 →
      exec (.endTransmission d stop) s = .next { s with fg := { s.fg with phase := 1 } }) ∧
    (s.fg.phase = 1 →
      exec (.endTransmission d stop) s = .next { s.takeAnswer with
        fg := { s.fg with phase := if s.nextAnswer.getLsbD 0 = true then 1 else 2 }
        out := s.out ++
          [.hal (halWord 0x0B (s.busOf d) 0) (some (pack 0x0B (indexByte (s.busOf d)) 0 s.nextAnswer))] })

/-- 41_master_commands R146, phase 2, with at least one byte written: the size is frozen, the count
goes down by one, start and first byte are issued. -/
def Obligations.EndTransmissionStarts : Prop :=
  ∀ (s : State) (d : DrvId) (stop : Bool), s.fg.phase = 2 → 0 < s.cfg.txCap →
    s.bus[s.busOf d].txwi ≠ 0 →
    exec (.endTransmission d stop) s = .next { s with
      drv := s.drv.set d { s.drv[d] with sendstop := stop }
      bus := s.bus.set (s.busOf d)
        { s.bus[s.busOf d] with
          txcs := s.bus[s.busOf d].txwi, txwi := s.bus[s.busOf d].txwi - 1 }
      fg := { s.fg with busy := false }
      out := s.out ++
        [.hal (halWord 0x07 (s.busOf d) 0) none,
         .hal (halWord 0x09 (s.busOf d) (s.byteAt (.tx (s.busOf d)) 0)) none
            (some s.drv[d].role),
         .rsp (pack 0x0A (indexByte d) 0 0)] }

/-- 41_master_commands R146 phase 2 and R148 phase 2 in a state with nothing written, which R86
excludes: the command still completes its phase, every effect but the new TXWI as stated. MODEL'S
CHOICE: the new TXWI is some value of the register's width, nothing more said of it (log entry
7). -/
def Obligations.StartOnEmptyBufferStillRuns : Prop :=
  ∀ (s : State) (d : DrvId) (stop : Bool) (a n : Byte), s.fg.phase = 2 → 0 < s.cfg.txCap →
    s.bus[s.busOf d].txwi = 0 →
    (∃ t, exec (.endTransmission d stop) s = .next t ∧ t.fg.busy = false ∧
      t.drv = s.drv.set d { s.drv[d] with sendstop := stop } ∧
      t.bus[s.busOf d].txcs = 0 ∧ t.bus[s.busOf d].txwi < 2 ^ s.cfg.idxw ∧
      t.out = s.out ++
        [.hal (halWord 0x07 (s.busOf d) 0) none,
         .hal (halWord 0x09 (s.busOf d) (s.byteAt (.tx (s.busOf d)) 0)) none
            (some s.drv[d].role),
         .rsp (pack 0x0A (indexByte d) 0 0)]) ∧
    (∃ t, exec (.requestFrom d a n) s = .next t ∧ t.fg = { s.fg with phase := 3 } ∧
      t.drv = s.drv.set d { s.drv[d] with sendstop := false } ∧
      t.bus[s.busOf d].txcs = 0 ∧ t.bus[s.busOf d].txwi < 2 ^ s.cfg.idxw ∧
      t.out = s.out ++
        [.hal (halWord 0x07 (s.busOf d) 0) none,
         .hal (halWord 0x09 (s.busOf d) (s.byteAt (.tx (s.busOf d)) 0)) none
            (some s.drv[d].role)])

/-- 41_master_commands R148, phases 0 to 3: the guard and the flush of a pending write without a
stop. -/
def Obligations.RequestFromFlushesFirst : Prop :=
  ∀ (s : State) (d : DrvId) (a n : Byte),
    (s.fg.phase = 0 → s.drv[d].role ≠ .master →
      exec (.requestFrom d a n) s = .next { s with
        fg := { s.fg with busy := false }
        out := s.out ++ [.rsp (pack 0x0B (indexByte d) 0 0)] }) ∧
    (s.fg.phase = 0 → s.drv[d].role = .master →
      exec (.requestFrom d a n) s = .next { s with
        fg := { s.fg with phase := if s.bus[s.busOf d].txwi = 0 then 4 else 1 } }) ∧
    (s.fg.phase = 1 →
      exec (.requestFrom d a n) s = .next { s.takeAnswer with
        fg := { s.fg with phase := if s.nextAnswer.getLsbD 0 = true then 1 else 2 }
        out := s.out ++
          [.hal (halWord 0x0B (s.busOf d) 0) (some (pack 0x0B (indexByte (s.busOf d)) 0 s.nextAnswer))] }) ∧
    (s.fg.phase = 2 → 0 < s.cfg.txCap → s.bus[s.busOf d].txwi ≠ 0 →
      exec (.requestFrom d a n) s = .next { s with
        drv := s.drv.set d { s.drv[d] with sendstop := false }
        bus := s.bus.set (s.busOf d)
          { s.bus[s.busOf d] with
            txcs := s.bus[s.busOf d].txwi, txwi := s.bus[s.busOf d].txwi - 1 }
        fg := { s.fg with phase := 3 }
        out := s.out ++
          [.hal (halWord 0x07 (s.busOf d) 0) none,
           .hal (halWord 0x09 (s.busOf d) (s.byteAt (.tx (s.busOf d)) 0)) none
            (some s.drv[d].role)] }) ∧
    (s.fg.phase = 3 → s.drv[d].sendstop = false → exec (.requestFrom d a n) s = .next s) ∧
    (s.fg.phase = 3 → s.drv[d].sendstop = true →
      exec (.requestFrom d a n) s = .next { s with fg := { s.fg with phase := 4 } })

/-- 41_master_commands R148, phases 4 to 7: the receive-start, the stop of a one-byte read, the
flags cleared, the hold on REQDONE. -/
def Obligations.RequestFromStartsTheReceive : Prop :=
  ∀ (s : State) (d : DrvId) (a n : Byte),
    (s.fg.phase = 4 →
      exec (.requestFrom d a n) s = .next { s with
        drv := s.drv.set d { s.drv[d] with addr := a.toNat, addrv := true }
        bus := s.bus.set (s.busOf d) { s.bus[s.busOf d] with rxcs := n.toNat, rxwi := 0 }
        fg := { s.fg with phase := 5 }
        out := s.out ++
          [.hal (halWord 0x06 (s.busOf d) a) none, .hal (halWord 0x05 (s.busOf d) 1) none,
           .hal (halWord 0x07 (s.busOf d) 0) none] }) ∧
    (s.fg.phase = 5 →
      exec (.requestFrom d a n) s = .next { s with
        fg := { s.fg with phase := 6 }
        out := if n = 1 then s.out ++ [.hal (halWord 0x08 (s.busOf d) 0) none] else s.out }) ∧
    (s.fg.phase = 6 →
      exec (.requestFrom d a n) s = .next { s with
        drv := s.drv.set d { s.drv[d] with reqdone := false, gotnak := false }
        fg := { s.fg with phase := 7 } }) ∧
    (s.fg.phase = 7 → s.drv[d].reqdone = false → exec (.requestFrom d a n) s = .next s) ∧
    (s.fg.phase = 7 → s.drv[d].reqdone = true →
      exec (.requestFrom d a n) s = .next { s with fg := { s.fg with phase := 8 } })

/-- 41_master_commands R148 phase 8 after a NAK (60_exceptions R251 E1): Transmit mode again, the rx
pair reset, 0 returned, the ReadCursor and every buffer as they were. -/
def Obligations.RequestFromReturnsZeroOnNak : Prop :=
  ∀ (s : State) (d : DrvId) (a n : Byte), s.fg.phase = 8 → s.drv[d].gotnak = true →
    exec (.requestFrom d a n) s = .next { s with
      drv := s.drv.set d { s.drv[d] with reqdone := false, gotnak := false }
      bus := s.bus.set (s.busOf d) { s.bus[s.busOf d] with rxwi := 0, rxcs := 0 }
      fg := { s.fg with busy := false }
      out := s.out ++
        [.hal (halWord 0x05 (s.busOf d) 0) none, .rsp (pack 0x0B (indexByte d) 0 0)] }

/-- 41_master_commands R148 phase 8 of a completed receive, in Master role: the bytes received go to
the ReadCursor if it is empty, and the command returns the length of the message the cursor then
holds; if it is not empty they are dropped and the old length is returned (70_reset R286). The
response carries the length in its 8 bits; MODEL'S CHOICE (log entry 3): a length of 256 or more,
which `Params.wf` excludes, is carried modulo 256. -/
def Obligations.RequestFromReturnsTheCursorLength : Prop :=
  ∀ (s : State) (d : DrvId) (a n : Byte), s.fg.phase = 8 → s.drv[d].gotnak = false →
    s.drv[d].role = .master → Memory.wf s.mem →
    s.bus[s.busOf d].rxwi ≤ s.cfg.rxCap → s.bus[s.busOf d].rxwi ≤ s.cfg.rdCap →
    ∃ t, exec (.requestFrom d a n) s = .next t ∧
      t = { s with
        mem := t.mem
        drv := s.drv.set d
          { s.drv[d] with
            reqdone := false, gotnak := false,
            rdl := if s.cursorEmpty d = true then s.bus[s.busOf d].rxwi else s.drv[d].rdl }
        bus := s.bus.set (s.busOf d) { s.bus[s.busOf d] with rxwi := 0, rxcs := 0 }
        fg := { s.fg with busy := false }
        out := s.out ++
          [.hal (halWord 0x05 (s.busOf d) 0) none,
           .rsp (pack 0x0B (indexByte d) 0 (countByte
             (if s.cursorEmpty d = true then s.bus[s.busOf d].rxwi else s.drv[d].rdl)))] } ∧
      (∀ (buf : Buf) (i : Nat),
        t.byteAt buf i =
          if buf = .rd d ∧ i < s.bus[s.busOf d].rxwi ∧ s.cursorEmpty d = true
          then s.byteAt (.rx (s.busOf d)) i else s.byteAt buf i)

/-- 41_master_commands R149, phase by phase. -/
def Obligations.ReadPopsTheCursor : Prop :=
  ∀ (s : State) (d : DrvId),
    (s.fg.phase = 0 → s.drv[d].rdi = 0 → s.drv[d].rdl = 0 → exec (.read d) s = .next s) ∧
    (s.fg.phase = 0 → (s.drv[d].rdi ≠ 0 ∨ s.drv[d].rdl ≠ 0) →
      exec (.read d) s = .next { s with fg := { s.fg with phase := 1 } }) ∧
    (s.fg.phase = 1 → s.drv[d].rdi < s.cfg.rdCap →
      exec (.read d) s = .next { s with
        drv := s.drv.set d
          { s.drv[d] with
            rdi := if s.drv[d].rdi + 1 = s.drv[d].rdl then 0 else s.drv[d].rdi + 1,
            rdl := if s.drv[d].rdi + 1 = s.drv[d].rdl then 0 else s.drv[d].rdl }
        fg := { s.fg with busy := false }
        out := s.out ++
          [.rsp (pack 0x0C (indexByte d) 0 (s.byteAt (.rd d) s.drv[d].rdi))] })

/-! ### HAL primitives -/

/-- 44_hal_interface R210 to R218, R223, R224 and 30_encoding R108: the eleven calls that return
nothing put exactly their word on the HAL port and change no register. MODEL'S NOTE (log entry 16):
beside a sendNextByte stands the ROLE of the driver registered for the bus. -/
def Obligations.HalCallsEmitTheirWord : Prop :=
  ∀ (s : State) (b : BusId) (x : Byte) (speed : Speed) (mode : Mode),
    exec (.halInitMaster b speed) s =
      .next { s with out := s.out ++ [.hal (pack 0x01 (indexByte b) 0 (boolByte speed.code)) none] } ∧
    exec (.halInitSlave b x) s =
      .next { s with out := s.out ++ [.hal (pack 0x02 (indexByte b) 0 x) none] } ∧
    exec (.halEnableModule b) s =
      .next { s with out := s.out ++ [.hal (pack 0x03 (indexByte b) 0 0) none] } ∧
    exec (.halDisableModule b) s =
      .next { s with out := s.out ++ [.hal (pack 0x04 (indexByte b) 0 0) none] } ∧
    exec (.halSetMode b mode) s =
      .next { s with out := s.out ++ [.hal (pack 0x05 (indexByte b) 0 (boolByte mode.code)) none] } ∧
    exec (.halSetTargetAddress b x) s =
      .next { s with out := s.out ++ [.hal (pack 0x06 (indexByte b) 0 x) none] } ∧
    exec (.halIssueStart b) s =
      .next { s with out := s.out ++ [.hal (pack 0x07 (indexByte b) 0 0) none] } ∧
    exec (.halIssueStop b) s =
      .next { s with out := s.out ++ [.hal (pack 0x08 (indexByte b) 0 0) none] } ∧
    exec (.halSendNextByte b x) s =
      .next { s with out := s.out ++ [.hal (pack 0x09 (indexByte b) 0 x) none (s.roleOn b)] } ∧
    exec (.halClearInterruptStatus b x) s =
      .next { s with out := s.out ++ [.hal (pack 0x0E (indexByte b) 0 x) none] } ∧
    exec (.halEnableInterruptSources b x) s =
      .next { s with out := s.out ++ [.hal (pack 0x0F (indexByte b) 0 x) none] }

/-- 44_hal_interface R219 to R222, 30_encoding R103: the four calls that return a value take the next
answer of the environment and record its return word with the call. -/
def Obligations.HalQueriesTakeOneAnswer : Prop :=
  ∀ (s : State) (b : BusId) (v : Byte) (rest : List Byte), s.answers = v :: rest →
    exec (.halReceiveNextByte b) s = .next { s with
      answers := rest
      out := s.out ++ [.hal (pack 0x0A (indexByte b) 0 0) (some (pack 0x0A (indexByte b) 0 v))] } ∧
    exec (.halIsBusBusy b) s = .next { s with
      answers := rest
      out := s.out ++ [.hal (pack 0x0B (indexByte b) 0 0) (some (pack 0x0B (indexByte b) 0 v))] } ∧
    exec (.halIsStopPending b) s = .next { s with
      answers := rest
      out := s.out ++ [.hal (pack 0x0C (indexByte b) 0 0) (some (pack 0x0C (indexByte b) 0 v))] } ∧
    exec (.halGetInterruptStatus b) s = .next { s with
      answers := rest
      out := s.out ++ [.hal (pack 0x0D (indexByte b) 0 0) (some (pack 0x0D (indexByte b) 0 v))] }

/-- An operation of bus `b` completes, what the block has asked of the collaborator of `b` is then `c`,
and what it has asked of every other bus's collaborator is as before. -/
def leavesAsked (s : State) (b : BusId) (i : Instr) (c : Collaborator) : Prop :=
  ∃ t, exec i s = .next t ∧ collaborator s.cfg b t.out = c ∧
    ∀ b' : BusId, b' ≠ b → collaborator s.cfg b' t.out = collaborator s.cfg b' s.out

/-- 44_hal_interface R210 to R224, R225: what each call asks of the collaborator of its bus, field by
field, and of no other bus's. A start has the mode and the target set before it (R214 to R216); a
stop is asked for since the latest start (R217); the sources asked for add up (R224, R242); the
six calls that only move a byte, ask a question or clear a status ask for nothing that stays.
MODEL'S READING of the relied-on meanings: that initMaster leaves Transmit mode, and the start
values (log entry 15). -/
def Obligations.HalCallsReachTheirCollaborator : Prop :=
  ∀ (s : State) (b : BusId) (speed : Speed) (mode : Mode) (x : Byte), b.val < s.cfg.numBuses →
    let c := collaborator s.cfg b s.out
    leavesAsked s b (.halInitMaster b speed)
      { c with speed := some speed, mode := some .transmit } ∧
    leavesAsked s b (.halInitSlave b x) { c with own := some x } ∧
    leavesAsked s b (.halEnableModule b) { c with enabled := some true } ∧
    leavesAsked s b (.halDisableModule b) { c with enabled := some false } ∧
    leavesAsked s b (.halSetMode b mode) { c with mode := some mode } ∧
    leavesAsked s b (.halSetTargetAddress b x) { c with target := some x } ∧
    leavesAsked s b (.halIssueStart b)
      { c with start := some { mode := c.mode, target := c.target }, stopping := false } ∧
    leavesAsked s b (.halIssueStop b) { c with stopping := true } ∧
    leavesAsked s b (.halEnableInterruptSources b x) { c with sources := c.sources ||| x } ∧
    leavesAsked s b (.halSendNextByte b x) c ∧
    leavesAsked s b (.halReceiveNextByte b) c ∧
    leavesAsked s b (.halIsBusBusy b) c ∧
    leavesAsked s b (.halIsStopPending b) c ∧
    leavesAsked s b (.halGetInterruptStatus b) c ∧
    leavesAsked s b (.halClearInterruptStatus b x) c

/-! ### Dispatcher -/

/-- 43_dispatcher R190, R196, 60_exceptions R244, R246, R248: DISPATCH reads the status word, clears
exactly the bits read, runs the handlers the word selects one after the other, each in the state
the one before left, and ends with DISP.active = 0. -/
def Obligations.DispatchRunsTheSelectedHandlers : Prop :=
  ∀ (s : State) (b : BusId), b.val < s.cfg.numBuses →
    exec (.dispatch (indexByte b)) s =
      andThen
        ((statusHandlers s.nextAnswer).foldl (fun r i => andThen r (exec i))
          (.next { s.takeAnswer with
            disp := { active := true, bus := b, status := s.nextAnswer }
            out := s.out ++
              [.hal (pack 0x0D (indexByte b) 0 0) (some (pack 0x0D (indexByte b) 0 s.nextAnswer)),
               .hal (pack 0x0E (indexByte b) 0 s.nextAnswer) none] }))
        fun t => .next { t with disp := { t.disp with active := false } }

/-- 43_dispatcher R190, R191, R192, 30_encoding R111: on a bus with no driver DISPATCH completes for
every status word while the raw buffer has room; it pulls and stores a received byte and touches no
driver. An event of a bus that does not exist is ignored. -/
def Obligations.DispatchWithoutADriverCompletes : Prop :=
  (∀ (s : State) (bus : Byte), s.cfg.numBuses ≤ bus.toNat → exec (.dispatch bus) s = .next s) ∧
  (∀ (s : State) (b : BusId), b.val < s.cfg.numBuses → s.reg[b].valid = false →
    s.bus[b].rxwi < s.cfg.rxCap →
    ∃ t, exec (.dispatch (indexByte b)) s = .next t ∧
      t.drv = s.drv ∧ t.reg = s.reg ∧ t.fg = s.fg ∧ t.disp.active = false ∧
      t.bus[b].txwi = s.bus[b].txwi ∧ t.bus[b].txcs = s.bus[b].txcs ∧
      t.bus[b].rxcs = s.bus[b].rxcs ∧
      t.bus[b].rxwi = (if s.nextAnswer.getLsbD 0 = true then s.bus[b].rxwi + 1 else s.bus[b].rxwi) ∧
      (∀ b' : BusId, b' ≠ b → t.bus[b'] = s.bus[b']))

/-- 43_dispatcher R190 to R196: in Master role, in contract (R51, R87), DISPATCH completes for every
status word, and leaves the sequencer, the registry, the roles and the bindings. -/
def Obligations.DispatchInMasterRoleCompletes : Prop :=
  ∀ (s : State) (b : BusId) (d : DrvId), b.val < s.cfg.numBuses → s.lookup b = some d →
    s.busOf d = b → s.drv[d].role = .master → s.cfg.rxCap ≤ s.cfg.rdCap →
    s.bus[b].rxwi < s.cfg.rxCap → s.bus[b].txwi ≤ s.bus[b].txcs → s.bus[b].txcs ≤ s.cfg.txCap →
    ∃ t, exec (.dispatch (indexByte b)) s = .next t ∧
      t.fg = s.fg ∧ t.reg = s.reg ∧ t.disp.active = false ∧
      (∀ d' : DrvId, t.drv[d'].role = s.drv[d'].role ∧ t.drv[d'].onreq = s.drv[d'].onreq ∧
        t.drv[d'].onrcv = s.drv[d'].onrcv)

/-- 43_dispatcher R192: the byte pulled is stored at RXWI; in a master receive the stop is asked for
when one byte is missing and REQDONE is set when none is, if the bus has a driver. -/
def Obligations.ReceiveEventStoresTheByte : Prop :=
  ∀ (s : State) (b : BusId), s.disp.bus = b → s.bus[b].rxwi < s.cfg.rxCap →
    exec .evReceive s = .next { s.takeAnswer with
      mem := Memory.write s.mem (Buf.loc (.rx b) s.bus[b].rxwi) s.nextAnswer
      bus := s.bus.set b { s.bus[b] with rxwi := s.bus[b].rxwi + 1 }
      drv :=
        if s.bus[b].rxcs ≠ 0 ∧ s.bus[b].rxwi + 1 = s.bus[b].rxcs then
          match s.lookup b with
          | some d => s.drv.set d { s.drv[d] with reqdone := true }
          | none => s.drv
        else s.drv
      found :=
        if s.bus[b].rxcs ≠ 0 ∧ s.bus[b].rxwi + 1 = s.bus[b].rxcs then s.lookup b else s.found
      out := s.out ++
        [.hal (pack 0x0A (indexByte b) 0 0) (some (pack 0x0A (indexByte b) 0 s.nextAnswer))] ++
        (if s.bus[b].rxcs ≠ 0 ∧ s.bus[b].rxwi + 1 = s.bus[b].rxcs - 1
          then [.hal (halWord 0x08 b 0) none] else []) }

/-- 43_dispatcher R193, Master role: the byte at index TXCS - TXWI and the count; at exhaustion a
stop, or the hand-off of a flush without one. -/
def Obligations.TransmitEventInMasterRole : Prop :=
  ∀ (s : State) (b : BusId) (d : DrvId), s.disp.bus = b → s.lookup b = some d →
    s.drv[d].role = .master →
    (s.bus[b].txwi ≠ 0 → s.bus[b].txwi ≤ s.bus[b].txcs →
      s.bus[b].txcs - s.bus[b].txwi < s.cfg.txCap →
      exec .evTransmit s = .next { s with
        found := some d
        bus := s.bus.set b { s.bus[b] with txwi := s.bus[b].txwi - 1 }
        out := s.out ++
          [.hal (halWord 0x09 b
            (s.byteAt (.tx b) (s.bus[b].txcs - s.bus[b].txwi))) none (some .master)] }) ∧
    (s.bus[b].txwi = 0 → s.drv[d].sendstop = true →
      exec .evTransmit s = .next { s with
        found := some d
        bus := s.bus.set b { s.bus[b] with txcs := 0 }
        out := s.out ++ [.hal (halWord 0x08 b 0) none] }) ∧
    (s.bus[b].txwi = 0 → s.drv[d].sendstop = false →
      exec .evTransmit s = .next { s with
        found := some d
        bus := s.bus.set b { s.bus[b] with txcs := 0 }
        drv := s.drv.set d { s.drv[d] with sendstop := true } })

/-- 43_dispatcher R193: a registry miss and role Unset do nothing; Slave role is HANDLE_REQUEST_SLAVE
of the driver found. -/
def Obligations.TransmitEventElsewhere : Prop :=
  ∀ (s : State) (b : BusId), s.disp.bus = b →
    (s.lookup b = none → exec .evTransmit s = .next { s with found := none }) ∧
    (∀ d, s.lookup b = some d → s.drv[d].role = .unset →
      exec .evTransmit s = .next { s with found := some d }) ∧
    (∀ d, s.lookup b = some d → s.drv[d].role = .slave →
      exec .evTransmit s = exec (.handleRequestSlave d) { s with found := some d })

/-- 43_dispatcher R194: a NAK sets REQDONE and GOTNAK of the bus's driver in every role, calls
nothing, and on a miss does nothing. -/
def Obligations.NakEventOnlyRecords : Prop :=
  ∀ (s : State) (b : BusId), s.disp.bus = b →
    (s.lookup b = none → exec .evNak s = .next { s with found := none }) ∧
    (∀ d, s.lookup b = some d →
      exec .evNak s = .next { s with
        found := some d
        drv := s.drv.set d { s.drv[d] with reqdone := true, gotnak := true } })

/-- 43_dispatcher R195: a miss does nothing; a slave stopped in mid-answer gets the dummy byte and its
rx pair reset; else bytes waiting are finalised by HANDLE_RECEIVE; else nothing. -/
def Obligations.StopEventFinalises : Prop :=
  ∀ (s : State) (b : BusId), s.disp.bus = b →
    (s.lookup b = none → exec .evStop s = .next { s with found := none }) ∧
    (∀ d, s.lookup b = some d → s.drv[d].role = .slave → s.bus[b].txwi ≠ 0 →
      exec .evStop s = .next { s with
        found := some d
        bus := s.bus.set b { s.bus[b] with rxwi := 0, rxcs := 0 }
        out := s.out ++ [.hal (halWord 0x09 b s.cfg.dummyByte) none (some .slave)] }) ∧
    (∀ d, s.lookup b = some d → (s.drv[d].role ≠ .slave ∨ s.bus[b].txwi = 0) →
      s.bus[b].rxwi ≠ 0 →
      exec .evStop s = exec (.handleReceive d) { s with found := some d }) ∧
    (∀ d, s.lookup b = some d → (s.drv[d].role ≠ .slave ∨ s.bus[b].txwi = 0) →
      s.bus[b].rxwi = 0 → exec .evStop s = .next { s with found := some d })

/-! ### Slave handlers and upcalls -/

/-- 42_slave_commands R173: an exhausted answer goes idle and sends nothing; an answer in progress
sends the byte at TXWI; with no callback bound an empty answer is committed and TXBUF[0] sent; with
one, what the callback wrote is committed and its first byte sent. -/
def Obligations.SlaveRequestServesTheAnswer : Prop :=
  ∀ (s : State) (d : DrvId),
    (s.bus[s.busOf d].txwi ≠ 0 → s.bus[s.busOf d].txcs < s.bus[s.busOf d].txwi →
      exec (.handleRequestSlave d) s = .next { s with
        bus := s.bus.set (s.busOf d) { s.bus[s.busOf d] with txwi := 0, txcs := 0 } }) ∧
    (s.bus[s.busOf d].txwi ≠ 0 → s.bus[s.busOf d].txwi ≤ s.bus[s.busOf d].txcs →
      s.bus[s.busOf d].txwi < s.cfg.txCap →
      exec (.handleRequestSlave d) s = .next { s with
        bus := s.bus.set (s.busOf d) { s.bus[s.busOf d] with txwi := s.bus[s.busOf d].txwi + 1 }
        out := s.out ++ [.hal (halWord 0x09 (s.busOf d)
          (s.byteAt (.tx (s.busOf d)) s.bus[s.busOf d].txwi)) none (some s.drv[d].role)] }) ∧
    (s.bus[s.busOf d].txwi = 0 → s.drv[d].onreq = false → 0 < s.cfg.txCap →
      exec (.handleRequestSlave d) s = .next { s with
        bus := s.bus.set (s.busOf d) { s.bus[s.busOf d] with txcs := 0, txwi := 1 }
        out := s.out ++ [.hal (halWord 0x09 (s.busOf d) (s.byteAt (.tx (s.busOf d)) 0)) none
            (some s.drv[d].role)] }) ∧
    (∀ t, s.bus[s.busOf d].txwi = 0 → s.drv[d].onreq = true → 0 < s.cfg.txCap →
      exec (.upOnRequest d) s = .next t →
      exec (.handleRequestSlave d) s = .next { t with
        bus := t.bus.set (s.busOf d)
          { t.bus[s.busOf d] with txcs := t.bus[s.busOf d].txwi, txwi := 1 }
        out := t.out ++ [.hal (halWord 0x09 (s.busOf d) (t.byteAt (.tx (s.busOf d)) 0)) none
            (some s.drv[d].role)] })

/-- 70_reset R285, 90_conflicts C8: after an answer of `k` bytes was sent, the next request sends the
byte at index `k`, which the callback did not write, and the one after it goes idle and hands no
byte to the hardware. -/
def Obligations.SlaveAnswerOneByteTooMany : Prop :=
  ∀ (s : State) (d : DrvId) (k : Idx), s.bus[s.busOf d].txwi = k → s.bus[s.busOf d].txcs = k →
    k ≠ 0 → k < s.cfg.txCap →
    ∃ t u, exec (.handleRequestSlave d) s = .next t ∧
      t.out = s.out ++ [.hal (halWord 0x09 (s.busOf d) (s.byteAt (.tx (s.busOf d)) k)) none
            (some s.drv[d].role)] ∧
      exec (.handleRequestSlave d) t = .next u ∧ u.out = t.out ∧
      u.bus[s.busOf d].txwi = 0 ∧ u.bus[s.busOf d].txcs = 0

/-- 42_slave_commands R174: a cursor that is not empty drops the new message; else the `n` bytes of
RXBUF are copied, the cursor loaded and the raw index reset, and the callback is told exactly in
Slave role with one bound. The upcall carries the count in its 8 bits; MODEL'S CHOICE (log entry
3): a count of 256 or more, which `Params.wf` excludes, is carried modulo 256. -/
def Obligations.HandleReceiveDeliversOrDrops : Prop :=
  ∀ (s : State) (d : DrvId), Memory.wf s.mem →
    s.bus[s.busOf d].rxwi ≤ s.cfg.rxCap → s.bus[s.busOf d].rxwi ≤ s.cfg.rdCap →
    (s.cursorEmpty d = false →
      exec (.handleReceive d) s = .next { s with
        bus := s.bus.set (s.busOf d) { s.bus[s.busOf d] with rxwi := 0 } }) ∧
    (s.cursorEmpty d = true →
      ∃ t : State,
        t = { s with
          mem := t.mem
          drv := s.drv.set d { s.drv[d] with rdi := 0, rdl := s.bus[s.busOf d].rxwi }
          bus := s.bus.set (s.busOf d) { s.bus[s.busOf d] with rxwi := 0 } } ∧
        (∀ (buf : Buf) (i : Nat),
          t.byteAt buf i =
            if buf = .rd d ∧ i < s.bus[s.busOf d].rxwi
            then s.byteAt (.rx (s.busOf d)) i else s.byteAt buf i) ∧
        exec (.handleReceive d) s =
          if s.drv[d].role = .slave ∧ s.drv[d].onrcv = true
          then exec (.upOnReceive d (countByte s.bus[s.busOf d].rxwi)) t else .next t)

/-- 42_slave_commands R175, R144: the request callback that issues WRITEs of the bytes `xs`, with room
for them, appends them in order; nothing else changes but the ports. -/
def Obligations.RequestCallbackFillsTheAnswer : Prop :=
  ∀ (s : State) (d : DrvId) (xs : List Byte) (rest : List (List Word)),
    d.val < s.cfg.numDrivers → Memory.wf s.mem →
    s.scripts = xs.map (fun x => pack 0x09 (indexByte d) x 0) :: rest →
    s.bus[s.busOf d].txwi + xs.length ≤ s.cfg.txCap →
    ∃ t, exec (.upOnRequest d) s = .next t ∧
      t = { s with
        mem := t.mem
        scripts := rest
        bus := s.bus.set (s.busOf d)
          { s.bus[s.busOf d] with
            txwi := s.bus[s.busOf d].txwi + xs.length }
        out := s.out ++ .upcall (pack 0xF0 (indexByte d) 0 0) ::
          xs.map (fun _ => .rsp (pack 0x09 (indexByte d) 0 0)) } ∧
      (∀ (buf : Buf) (i : Nat),
        t.byteAt buf i =
          if h : buf = .tx (s.busOf d) ∧ s.bus[s.busOf d].txwi ≤ i ∧
              i - s.bus[s.busOf d].txwi < xs.length
          then xs[i - s.bus[s.busOf d].txwi]'h.2.2 else s.byteAt buf i)

/-- What a receive callback does: READ (`none`) or WRITE of a byte. -/
abbrev CallbackAction := Option Byte

/-- The command word of an action of the callback of driver `d` (R101). -/
def actionWord (d : DrvId) : CallbackAction → Word
  | none => pack 0x0C (indexByte d) 0 0
  | some x => pack 0x09 (indexByte d) x 0

/-- The responses of the actions (R102), the first READ taking the byte of RDBUF[d] at index `i` and
each later one the next. -/
def actionResponses (s : State) (d : DrvId) : (i : Nat) → List CallbackAction → List PortEvent
  | _, [] => []
  | i, none :: acts =>
    .rsp (pack 0x0C (indexByte d) 0 (s.byteAt (.rd d) i)) :: actionResponses s d (i + 1) acts
  | i, some _ :: acts => .rsp (pack 0x09 (indexByte d) 0 0) :: actionResponses s d i acts

/-- 42_slave_commands R176, 41_master_commands R144, R149: what a receive callback that keeps its
contract does. First, one that READs the whole message of `n` bytes gets them in the order they lie
in RDBUF, and leaves the cursor empty; MODEL'S CHOICE (log entry 3): an `n` of 256 or more, which
`Params.wf` excludes, is carried modulo 256. Then, for READs and WRITEs in any order, with no more
READs than bytes left and room for the WRITEs: each WRITE is executed as any other, each READ gets
the next byte, and a callback that does not drain the cursor leaves what it did not read. -/
def Obligations.ReceiveCallbackDrainsInOrder : Prop :=
  (∀ (s : State) (d : DrvId) (n : Idx) (rest : List (List Word)),
    d.val < s.cfg.numDrivers →
    s.scripts = List.replicate n (pack 0x0C (indexByte d) 0 0) :: rest →
    s.drv[d].rdi = 0 → s.drv[d].rdl = n → n ≠ 0 → n ≤ s.cfg.rdCap →
    exec (.upOnReceive d (countByte n)) s = .next { s with
      scripts := rest
      drv := s.drv.set d { s.drv[d] with rdi := 0, rdl := 0 }
      out := s.out ++ .upcall (pack 0xF1 (indexByte d) 0 (countByte n)) ::
        (List.range n).map
          (fun i => .rsp (pack 0x0C (indexByte d) 0 (s.byteAt (.rd d) i))) }) ∧
  (∀ (s : State) (d : DrvId) (n : Byte) (acts : List CallbackAction) (rest : List (List Word))
      (reads : Nat) (writes : List Byte),
    reads = acts.count none → writes = acts.filterMap id →
    d.val < s.cfg.numDrivers → Memory.wf s.mem → s.scripts = acts.map (actionWord d) :: rest →
    s.drv[d].rdi + reads ≤ s.drv[d].rdl → s.drv[d].rdl ≤ s.cfg.rdCap →
    s.bus[s.busOf d].txwi + writes.length ≤ s.cfg.txCap →
    ∃ t, exec (.upOnReceive d n) s = .next t ∧
      t = { s with
        mem := t.mem
        scripts := rest
        bus := s.bus.set (s.busOf d)
          { s.bus[s.busOf d] with txwi := s.bus[s.busOf d].txwi + writes.length }
        drv := s.drv.set d
          (if reads ≠ 0 ∧ s.drv[d].rdi + reads = s.drv[d].rdl
            then { s.drv[d] with rdi := 0, rdl := 0 }
            else { s.drv[d] with rdi := s.drv[d].rdi + reads })
        out := s.out ++ .upcall (pack 0xF1 (indexByte d) 0 n) ::
          actionResponses s d s.drv[d].rdi acts } ∧
      ∀ (buf : Buf) (i : Nat),
        t.byteAt buf i =
          if buf = .tx (s.busOf d) ∧ s.bus[s.busOf d].txwi ≤ i
          then (writes[i - s.bus[s.busOf d].txwi]?).getD (s.byteAt buf i) else s.byteAt buf i)

/-- The state in which a callback issues its first command: its script taken, the upcall word out. -/
def upcallSent (word : Word) (rest : List (List Word)) (s : State) : State :=
  { s with scripts := rest, out := s.out ++ [.upcall word] }

/-- 42_slave_commands R175, R176, R144, 60_exceptions R259, 70_reset R289: what a command `w` of a
callback stops with, after any commands `pre` before it that completed, in the state `u` they left:
a legal one outside the contract is refused, a WRITE to a full TXBUF faults, a READ on an empty
cursor has no successor. At the end the case R176 names, the (m+1)-th READ of a message of `m`
bytes. MODEL'S CHOICE: the stop with no successor is the named fault `callbackHold` (log entry 8). -/
def Obligations.CallbackStops : Prop :=
  (∀ (s u : State) (d : DrvId) (n : Byte) (pre ws : List Word) (w : Word) (rest : List (List Word))
      (i : Instr), s.scripts = (pre ++ w :: ws) :: rest → decodeCmd s.cfg w = .ok i →
    (runCallback .onRequest d pre (upcallSent (pack 0xF0 (indexByte d) 0 0) rest s) = .next u →
      (keepsContract s.cfg .onRequest d w = false →
        exec (.upOnRequest d) s = .refused .callbackContract) ∧
      (∀ x, i = .write d x → s.cfg.txCap ≤ u.bus[s.busOf d].txwi →
        exec (.upOnRequest d) s =
          .fault (.overrun (.tx (s.busOf d)) u.bus[s.busOf d].txwi))) ∧
    (runCallback .onReceive d pre (upcallSent (pack 0xF1 (indexByte d) 0 n) rest s) = .next u →
      (keepsContract s.cfg .onReceive d w = false →
        exec (.upOnReceive d n) s = .refused .callbackContract) ∧
      (∀ x, i = .write d x → s.cfg.txCap ≤ u.bus[s.busOf d].txwi →
        exec (.upOnReceive d n) s =
          .fault (.overrun (.tx (s.busOf d)) u.bus[s.busOf d].txwi)) ∧
      (i = .read d → u.cursorEmpty d = true →
        exec (.upOnReceive d n) s = .fault (.callbackHold d)))) ∧
  (∀ (s : State) (d : DrvId) (n : Byte) (m : Nat) (ws : List Word) (rest : List (List Word)),
    d.val < s.cfg.numDrivers →
    s.scripts = (List.replicate (m + 1) (pack 0x0C (indexByte d) 0 0) ++ ws) :: rest →
    s.drv[d].rdi = 0 → s.drv[d].rdl = m → m ≤ s.cfg.rdCap →
    exec (.upOnReceive d n) s = .fault (.callbackHold d))

/-! ### Frames of memory -/

/-- 20_memory R71: every byte of every buffer but the one WRITE stores, at TXWI of TXBUF, reads as
before, and that one reads as written; the same for EV_RECEIVE at RXWI of RXBUF. MODEL'S CHOICE
(log entry 9): WRITE does so at every FG.phase, although R41 gives it phase 0 only. -/
def Obligations.StoringOperationsWriteOneByte : Prop :=
  ∀ (s t : State) (d : DrvId) (x : Byte) (buf : Buf) (i : Nat), Memory.wf s.mem →
    (exec (.write d x) s = .next t →
      t.byteAt buf i =
        if buf = .tx (s.busOf d) ∧ i = s.bus[s.busOf d].txwi then x else s.byteAt buf i) ∧
    (exec .evReceive s = .next t →
      t.byteAt buf i =
        if buf = .rx s.disp.bus ∧ i = s.bus[s.disp.bus].rxwi then s.nextAnswer
        else s.byteAt buf i)

/-- The operations that store nothing (20_memory R71). -/
def storesNothing : Instr → Bool
  | .write _ _ | .requestFrom _ _ _ | .dispatch _ | .evReceive | .evTransmit | .evStop
  | .upOnRequest _ | .upOnReceive _ _ | .handleRequestSlave _ | .handleReceive _ => false
  | .register _ _ | .unregister _ | .setSpeed _ _ | .beginMaster _ | .beginSlave _ _
  | .onRequest _ _ | .onReceive _ _ | .beginTransmission _ _ | .endTransmission _ _
  | .read _ => true
  | .halInitMaster _ _ | .halInitSlave _ _ | .halEnableModule _ | .halDisableModule _
  | .halSetMode _ _ | .halSetTargetAddress _ _ | .halIssueStart _ | .halIssueStop _
  | .halSendNextByte _ _ | .halReceiveNextByte _ | .halIsBusBusy _ | .halIsStopPending _
  | .halGetInterruptStatus _ | .halClearInterruptStatus _ _
  | .halEnableInterruptSources _ _ => true
  | .evNak | .lookup _ => true

/-- 20_memory R71, R79: the operations that store nothing leave every byte of every buffer; so does
REQUEST_FROM before its last phase. -/
def Obligations.OtherOperationsLeaveTheBuffers : Prop :=
  ∀ (s t : State) (i : Instr), exec i s = .next t →
    (storesNothing i = true ∨
      (∃ d a n, i = .requestFrom d a n) ∧ s.fg.phase ≠ 8) →
    ∀ (buf : Buf) (j : Nat), t.byteAt buf j = s.byteAt buf j

/-! ### Whole-machine rules -/

/-- 10_state R22 to R43, R51: every step keeps the invariant of `State.Inv`: canonical memory, every
index register within IDXW bits and ADDR within ADDRW bits, RXWI <= RXCAP, the cursor rule,
registry entries of existing drivers bound to their bus, DISP.active = 0, a legal command at a
phase it has, in Master role past a role guard, READ at its second phase only with a message. -/
def Obligations.StepKeepsTheInvariant : Prop :=
  ∀ s t : State, s.Inv → step s = .next t → t.Inv

/-- 10_state R51: every step keeps TXWI[b] <= TXCAP, but for a start with nothing written, which R86
excludes. -/
def Obligations.StepKeepsTransmitIndexesInRange : Prop :=
  ∀ s t : State, s.txFits → s.startsOnEmpty = false ∨ s.dueEvent ≠ none → step s = .next t →
    t.txFits

/-- 00_scope R9, 60_exceptions R253: no parameter changes while the block runs; what was put on a port
stays, and everything new comes after it. -/
def Obligations.StepKeepsParametersAndPortHistory : Prop :=
  ∀ s t : State, step s = .next t → t.cfg = s.cfg ∧ ∃ new, t.out = s.out ++ new

/-- 60_exceptions R246 to R248: a dispatcher invocation leaves the preempted command and its phase,
the waiting commands and the registry, and no role, address, speed or binding changes. -/
def Obligations.DispatchLeavesTheForeground : Prop :=
  ∀ (s t : State) (bus : Byte), exec (.dispatch bus) s = .next t →
    t.fg = s.fg ∧ t.cmd = s.cmd ∧ t.irq = s.irq ∧ t.reg = s.reg ∧ t.cfg = s.cfg ∧
    ∀ d : DrvId, t.drv[d].role = s.drv[d].role ∧ t.drv[d].addr = s.drv[d].addr ∧
      t.drv[d].addrv = s.drv[d].addrv ∧ t.drv[d].speed = s.drv[d].speed ∧
      t.drv[d].onreq = s.drv[d].onreq ∧ t.drv[d].onrcv = s.drv[d].onrcv

/-- 10_state R34: only BEGIN_MASTER and BEGIN_SLAVE of a driver write its role, and nothing writes
Unset. -/
def Obligations.OnlyBeginCommandsWriteRoles : Prop :=
  ∀ (s t : State) (d : DrvId), step s = .next t →
    t.drv[d].role = s.drv[d].role ∨
    (s.inProgress = some (.beginMaster d) ∧ t.drv[d].role = .master) ∨
    (∃ a, s.inProgress = some (.beginSlave d a) ∧ t.drv[d].role = .slave)

/-- 10_state R31, R32, 20_memory R90, R92: REQDONE and GOTNAK of a driver are set only by a step that
serves an interrupt, and cleared only by REQUEST_FROM of that driver in phase 6 or 8. -/
def Obligations.CompletionFlagsHaveOneWriterEach : Prop :=
  ∀ (s t : State) (d : DrvId), step s = .next t →
    ((t.drv[d].reqdone = true ∧ s.drv[d].reqdone = false ∨
      t.drv[d].gotnak = true ∧ s.drv[d].gotnak = false) → s.dueEvent ≠ none) ∧
    ((t.drv[d].reqdone = false ∧ s.drv[d].reqdone = true ∨
      t.drv[d].gotnak = false ∧ s.drv[d].gotnak = true) →
      s.dueEvent = none ∧ (∃ a n, s.inProgress = some (.requestFrom d a n)) ∧
      (s.fg.phase = 6 ∨ s.fg.phase = 8))

/-- 20_memory R71: a byte of RXBUF[b] changes only in a dispatcher invocation of bus `b`, at index
RXWI[b]. -/
def Obligations.OnlyReceiveEventsWriteTheRawBuffer : Prop :=
  ∀ (s t : State) (b : BusId) (i : Nat), Memory.wf s.mem → step s = .next t →
    t.byteAt (.rx b) i ≠ s.byteAt (.rx b) i →
    s.dueEvent = some (eventWord (indexByte b)) ∧ i = s.bus[b].rxwi

/-- 42_slave_commands R171, R173, R174, 90_conflicts C2: a step puts an upcall of a driver on the port
only in Slave role with that callback bound. -/
def Obligations.CallbacksFireOnlyInSlaveRole : Prop :=
  ∀ (s t : State) (new : List PortEvent) (w : Word), s.Inv → step s = .next t →
    t.out = s.out ++ new → .upcall w ∈ new →
    ∃ d : DrvId, s.drv[d].role = .slave ∧
      ((w = pack 0xF0 (indexByte d) 0 0 ∧ s.drv[d].onreq = true) ∨
       (∃ n, w = pack 0xF1 (indexByte d) 0 n ∧ s.drv[d].onrcv = true))

/-- 44_hal_interface R213: disableModule has its code in the HAL alphabet, HOP 0x04, and no step puts
it on the HAL port. -/
def Obligations.DisableModuleIsNeverEmitted : Prop :=
  (∀ (p : Params) (b : BusId), b.val < p.numBuses →
    encode (.halDisableModule b) = some (.hal, pack 0x04 (indexByte b) 0 0) ∧
    decodeHal p (pack 0x04 (indexByte b) 0 0) = .ok (.halDisableModule b)) ∧
  ∀ (s t : State) (new : List PortEvent) (w : Word) (r : Option Word)
    (role : Option Role), step s = .next t →
    t.out = s.out ++ new → .hal w r role ∈ new → byte3 w ≠ 0x04

/-- 44_hal_interface R225: every HAL word a dispatcher invocation emits carries the bus of the
interrupt, and every one a foreground step emits the bus of the command's driver. -/
def Obligations.HalWordsCarryTheirBus : Prop :=
  ∀ (s t : State) (new : List PortEvent) (w : Word) (r : Option Word)
    (role : Option Role), s.Inv → step s = .next t →
    t.out = s.out ++ new → .hal w r role ∈ new →
    (∀ b : BusId, s.dueEvent = some (eventWord (indexByte b)) → byte2 w = indexByte b) ∧
    (s.dueEvent = none → ∃ d : DrvId, indexByte d = s.fg.drv ∧ byte2 w = indexByte (s.busOf d))

/-- 20_memory R76: between two steps of a run the only faults are an overrun of a TXBUF or an RXBUF,
in a dispatcher invocation or, for a TXBUF, in a WRITE; and a hold in a callback; RDBUF never
overruns. -/
def Obligations.FaultsAriseOnlyWhereListed : Prop :=
  ∀ (s : State) (f : Fault), s.Inv → step s = .fault f →
    (∃ b k, f = .overrun (.tx b) k ∧
      (s.dueEvent ≠ none ∨ ∃ d x, s.inProgress = some (.write d x))) ∨
    (∃ b k, f = .overrun (.rx b) k ∧ s.dueEvent ≠ none) ∨
    (∃ d, f = .callbackHold d ∧ s.dueEvent ≠ none)

/-- 60_exceptions R259: between two steps of a run the only refusal is a callback's breach of its
contract, in a dispatcher invocation. -/
def Obligations.OnlyCallbacksAreRefused : Prop :=
  ∀ (s : State) (r : Refusal), s.Inv → step s = .refused r →
    r = .callbackContract ∧ s.dueEvent ≠ none

/-- What a result is with the registry replaced. -/
def withRegistry (r : Vector RegEntry 256) : Result → Result
  | .next t => .next { t with reg := r }
  | .fault e => .fault e
  | .refused e => .refused e

/-- 10_state R39: no foreground command reads the registry: REGISTER and UNREGISTER apart, a command
does the same whatever it holds. -/
def Obligations.ForegroundCommandsIgnoreTheRegistry : Prop :=
  ∀ (s : State) (r : Vector RegEntry 256) (i : Instr), phaseCount i ≠ 0 →
    (∀ d b, i ≠ .register d b) → (∀ b, i ≠ .unregister b) →
    exec i { s with reg := r } = withRegistry r (exec i s)

/-- `n` interrupts of bus `b`, one after the other. -/
def interrupts (b : BusId) : Nat → State → Result
  | 0, s => .next s
  | n + 1, s => andThen (exec (.dispatch (indexByte b)) s) (interrupts b n)

/-- 41_master_commands R147, 95_test_vectors S1: with `n` bytes written, 1 <= n <= TXCAP, the start of
END_TRANSMISSION and then `n` TRANSMIT interrupts put on the wire the start, the `n` bytes in the
order they were written, and then the stop exactly if it was asked for; nothing is left to send.
`wire` is R229 read as log entry 16 says. -/
def Obligations.MasterTransmissionSendsTheBytesInOrder : Prop :=
  ∀ (s : State) (d : DrvId) (b : BusId) (stop : Bool) (n : Nat),
    b.val < s.cfg.numBuses → s.busOf d = b → s.lookup b = some d → s.drv[d].role = .master →
    s.fg.phase = 2 →
    s.bus[b].txwi = n → 1 ≤ n → n ≤ s.cfg.txCap →
    s.answers = List.replicate n 0x02 →
    ∃ t, andThen (exec (.endTransmission d stop) s) (interrupts b n) = .next t ∧
      wire s.cfg b t.out = wire s.cfg b s.out ++ [.start] ++
        (List.range n).map (fun i => .sent (s.byteAt (.tx b) i)) ++
        (if stop = true then [.stop] else []) ∧
      t.bus[b].txwi = 0 ∧ t.bus[b].txcs = 0 ∧ t.drv[d].sendstop = true
end

