-- ==== Sys2Proof/Laws/Memory.lean ====
section
/-! SUPPORT. The laws of buffer memory: a read gives the last byte written, a write leaves every other
location, and every operation keeps the canonical form. -/

namespace Sys2Proof.Machine

/-- A location below every listed one reads as unwritten. -/
theorem Memory.read_of_lt {m : Memory} {a : Nat} (h : ∀ c ∈ m, a < c.1) :
    m.read a = Memory.unwritten := by
  induction m with
  | nil => rfl
  | cons c m ih =>
    have hc := h c (by simp)
    simp only [Memory.read]
    rw [if_neg (by omega)]
    exact ih fun x hx => h x (by simp [hx])

/-- What a read gives after a write, in canonical memory. -/
theorem Memory.read_write {m : Memory} (h : m.wf) (a : Nat) (v : Byte) (a' : Nat) :
    (m.write a v).read a' = if a = a' then v else m.read a' := by
  induction m with
  | nil =>
    by_cases hv : v = Memory.unwritten <;> simp [Memory.write, Memory.read, hv]
  | cons c m ih =>
    obtain ⟨k, w⟩ := c
    have hp := List.pairwise_cons.mp h.1
    have hm : Memory.wf m := ⟨hp.2, fun c hc => h.2 c (by simp [hc])⟩
    have below : ∀ x ≤ k, Memory.read m x = Memory.unwritten := fun x hx =>
      Memory.read_of_lt fun c hc => by have := hp.1 c hc; simp at this; omega
    simp only [Memory.write]
    split
    · rename_i hlt
      by_cases ha : a = a'
      · subst ha
        split <;> simp_all [Memory.read, below a (by omega)]
        omega
      · split <;> simp [Memory.read, ha]
    · split
      · rename_i hlt heq
        subst heq
        by_cases ha : a = a'
        · subst ha
          split <;> simp_all [Memory.read]
        · split <;> simp [Memory.read, ha]
      · rename_i hlt hne
        simp only [Memory.read, ih hm]
        by_cases hk : k = a'
        · subst hk; simp [hne]
        · simp [hk]

theorem Memory.mem_write {m : Memory} {a : Nat} {v : Byte} {c : Host.Cell}
    (h : c ∈ m.write a v) : c ∈ m ∨ c = (a, v) ∧ v ≠ Memory.unwritten := by
  induction m with
  | nil =>
    simp only [Memory.write] at h
    split at h <;> simp_all
  | cons x m ih =>
    simp only [Memory.write] at h
    split at h
    · split at h <;> simp_all [or_comm]
    · split at h
      · split at h <;> simp_all
        rcases h with h | h <;> simp [h]
      · rcases List.mem_cons.mp h with rfl | h
        · simp
        · rcases ih h with h | h <;> simp [h]

/-- A write keeps the canonical form. -/
theorem Memory.write_wf {m : Memory} (h : m.wf) (a : Nat) (v : Byte) : (m.write a v).wf := by
  refine ⟨?_, fun c hc => ?_⟩
  · induction m with
    | nil => simp only [Memory.write]; split <;> simp
    | cons c m ih =>
      have hp := List.pairwise_cons.mp h.1
      have hm : Memory.wf m := ⟨hp.2, fun c hc => h.2 c (by simp [hc])⟩
      simp only [Memory.write]
      split
      · rename_i hlt
        split
        · exact h.1
        · refine List.pairwise_cons.mpr ⟨fun x hx => ?_, h.1⟩
          rcases List.mem_cons.mp hx with rfl | hx
          · exact hlt
          · exact Nat.lt_trans hlt (hp.1 x hx)
      · split
        · rename_i heq
          split
          · exact hp.2
          · exact List.pairwise_cons.mpr ⟨fun x hx => heq ▸ hp.1 x hx, hp.2⟩
        · rename_i hlt hne
          refine List.pairwise_cons.mpr ⟨fun x hx => ?_, ih hm⟩
          rcases Memory.mem_write hx with hx | ⟨rfl, -⟩
          · exact hp.1 x hx
          · show c.1 < a; omega
  · rcases Memory.mem_write hc with hc | ⟨rfl, hv⟩
    · exact h.2 c hc
    · exact hv

/-- Two arrays share no location, at any indices. -/
theorem Buf.loc_inj {x y : Buf} {i j : Nat} (h : x.loc i = y.loc j) : x = y ∧ i = j := by
  cases x <;> cases y <;> simp only [Buf.loc, Buf.place] at h <;>
    simp only [Buf.tx.injEq, Buf.rx.injEq, Buf.rd.injEq, reduceCtorEq, Fin.ext_iff] <;> omega

/-- Reading any index of any array after one byte was written. -/
theorem Memory.read_write_loc {m : Memory} (h : m.wf) {x y : Buf} {i j : Nat} (v : Byte) :
    (m.write (x.loc i) v).read (y.loc j) = if x = y ∧ i = j then v else m.read (y.loc j) := by
  rw [Memory.read_write h]
  by_cases hl : x.loc i = y.loc j
  · rw [if_pos hl, if_pos (Buf.loc_inj hl)]
  · rw [if_neg hl, if_neg fun he => hl (by rw [he.1, he.2])]

end Sys2Proof.Machine
end

