-- ==== Sys2Proof/Laws/Words.lean ====
section
/-! SUPPORT. The fields of a packed word, and the operand checks of the decoder on fields that pass. -/

namespace Sys2Proof

theorem pack_toNat (c3 c2 c1 c0 : Byte) :
    (pack c3 c2 c1 c0).toNat =
      c3.toNat * 16777216 + c2.toNat * 65536 + c1.toNat * 256 + c0.toNat := by
  have h2 := c2.isLt; have h1 := c1.isLt; have h0 := c0.isLt
  unfold pack
  simp only [BitVec.toNat_append]
  rw [← Nat.shiftLeft_add_eq_or_of_lt h0, ← Nat.shiftLeft_add_eq_or_of_lt h1,
    ← Nat.shiftLeft_add_eq_or_of_lt h2]
  simp only [Nat.shiftLeft_eq]
  omega

@[simp] theorem byte3_pack (c3 c2 c1 c0 : Byte) : byte3 (pack c3 c2 c1 c0) = c3 := by
  apply BitVec.eq_of_toNat_eq
  have h3 := c3.isLt; have h2 := c2.isLt; have h1 := c1.isLt; have h0 := c0.isLt
  simp only [byte3, BitVec.extractLsb'_toNat, pack_toNat, Nat.shiftRight_eq_div_pow]
  omega

@[simp] theorem byte2_pack (c3 c2 c1 c0 : Byte) : byte2 (pack c3 c2 c1 c0) = c2 := by
  apply BitVec.eq_of_toNat_eq
  have h3 := c3.isLt; have h2 := c2.isLt; have h1 := c1.isLt; have h0 := c0.isLt
  simp only [byte2, BitVec.extractLsb'_toNat, pack_toNat, Nat.shiftRight_eq_div_pow]
  omega

@[simp] theorem byte1_pack (c3 c2 c1 c0 : Byte) : byte1 (pack c3 c2 c1 c0) = c1 := by
  apply BitVec.eq_of_toNat_eq
  have h3 := c3.isLt; have h2 := c2.isLt; have h1 := c1.isLt; have h0 := c0.isLt
  simp only [byte1, BitVec.extractLsb'_toNat, pack_toNat, Nat.shiftRight_eq_div_pow]
  omega

@[simp] theorem byte0_pack (c3 c2 c1 c0 : Byte) : byte0 (pack c3 c2 c1 c0) = c0 := by
  apply BitVec.eq_of_toNat_eq
  have h3 := c3.isLt; have h2 := c2.isLt; have h1 := c1.isLt; have h0 := c0.isLt
  simp only [byte0, BitVec.extractLsb'_toNat, pack_toNat, Nat.shiftRight_eq_div_pow]
  omega

/-- A word is its four fields. -/
theorem pack_bytes (w : Word) : pack (byte3 w) (byte2 w) (byte1 w) (byte0 w) = w := by
  apply BitVec.eq_of_toNat_eq
  have h := w.isLt
  simp only [pack_toNat, byte3, byte2, byte1, byte0, BitVec.extractLsb'_toNat,
    Nat.shiftRight_eq_div_pow]
  omega

@[simp] theorem indexByte_toNat (i : Fin 256) : (indexByte i).toNat = i.val := rfl

@[simp] theorem indexByte_toFin (i : Fin 256) : (indexByte i).toFin = i := rfl

@[simp] theorem toFin_indexByte (x : Byte) : indexByte x.toFin = x := rfl

theorem indexByte_inj {i j : Fin 256} (h : indexByte i = indexByte j) : i = j :=
  congrArg BitVec.toFin h

@[simp] theorem indexByte_zero : indexByte 0 = 0 := rfl

@[simp] theorem Speed.ofCode_code (v : Speed) : Speed.ofCode v.code = v := by cases v <;> rfl
@[simp] theorem Speed.code_ofCode (v : Bool) : (Speed.ofCode v).code = v := by cases v <;> rfl
@[simp] theorem Mode.ofCode_code (v : Mode) : Mode.ofCode v.code = v := by cases v <;> rfl
@[simp] theorem Mode.code_ofCode (v : Bool) : (Mode.ofCode v).code = v := by cases v <;> rfl

@[simp] theorem needZero_zero (k : Except Reject Instr) : needZero 0 k = k := rfl

theorem withDriver_indexByte {p : Params} {d : DrvId} (h : p.hasDriver d = true)
    (k : DrvId → Except Reject Instr) : withDriver p (indexByte d) k = k d := if_pos h

theorem withBus_indexByte {p : Params} {b : BusId} (h : p.hasBus b = true)
    (k : BusId → Except Reject Instr) : withBus p (indexByte b) k = k b := if_pos h

theorem withDriver_absent {p : Params} {d : DrvId} (h : p.hasDriver d = false)
    (k : DrvId → Except Reject Instr) :
    withDriver p (indexByte d) k = .error .noSuchDriver := if_neg (by simp [h])

theorem withBus_absent {p : Params} {b : BusId} (h : p.hasBus b = false)
    (k : BusId → Except Reject Instr) :
    withBus p (indexByte b) k = .error .noSuchBus := if_neg (by simp [h])

@[simp] theorem withBit_boolByte (v : Bool) (k : Bool → Except Reject Instr) :
    withBit (boolByte v) k = k v := by
  cases v <;> rfl

/-! ### What a passed check says -/

theorem needZero_ok {x : Byte} {k : Except Reject Instr} {i : Instr} (h : needZero x k = .ok i) :
    x = 0 ∧ k = .ok i := by
  unfold needZero at h
  split at h
  · exact ⟨‹_›, h⟩
  · cases h

theorem withDriver_ok {p : Params} {x : Byte} {k : DrvId → Except Reject Instr} {i : Instr}
    (h : withDriver p x k = .ok i) :
    ∃ d, indexByte d = x ∧ p.hasDriver d = true ∧ k d = .ok i := by
  unfold withDriver at h
  split at h
  · exact ⟨_, rfl, ‹_›, h⟩
  · cases h

theorem withBus_ok {p : Params} {x : Byte} {k : BusId → Except Reject Instr} {i : Instr}
    (h : withBus p x k = .ok i) : ∃ b, indexByte b = x ∧ p.hasBus b = true ∧ k b = .ok i := by
  unfold withBus at h
  split at h
  · exact ⟨_, rfl, ‹_›, h⟩
  · cases h

theorem withBit_ok {x : Byte} {k : Bool → Except Reject Instr} {i : Instr}
    (h : withBit x k = .ok i) : ∃ v, boolByte v = x ∧ k v = .ok i := by
  unfold withBit at h
  split at h
  · exact ⟨false, by simp_all [boolByte], h⟩
  · split at h
    · exact ⟨true, by simp_all [boolByte], h⟩
    · cases h

end Sys2Proof
end

