-- ==== Sys2Proof/Laws/Ops.lean ====
section
/-! SUPPORT. What each shared operation can do: one inversion lemma per operation and outcome, for later
proofs to cite in place of unfolding it. -/

namespace Sys2Proof.Machine

/-! ### Going on after a result -/

@[simp] theorem andThen_ok (s : State) (f : State → Result) : andThen (.next s) f = f s := rfl
@[simp] theorem andThen_faulted (e : Fault) (f : State → Result) :
    andThen (.fault e) f = .fault e := rfl
@[simp] theorem andThen_declined (e : Refusal) (f : State → Result) :
    andThen (.refused e) f = .refused e := rfl

theorem andThen_assoc (r : Result) (f g : State → Result) :
    andThen (andThen r f) g = andThen r fun s => andThen (f s) g := by
  cases r <;> rfl

theorem andThen_next {r : Result} {f : State → Result} {t : State} :
    andThen r f = .next t ↔ ∃ s, r = .next s ∧ f s = .next t := by
  cases r <;> simp [andThen]

theorem andThen_fault {r : Result} {f : State → Result} {e : Fault} :
    andThen r f = .fault e ↔ r = .fault e ∨ ∃ s, r = .next s ∧ f s = .fault e := by
  cases r <;> simp [andThen]

theorem andThen_refused {r : Result} {f : State → Result} {e : Refusal} :
    andThen r f = .refused e ↔ r = .refused e ∨ ∃ s, r = .next s ∧ f s = .refused e := by
  cases r <;> simp [andThen]

/-! ### Buffer accesses -/

theorem loadByte_ok {buf : Buf} {i : Nat} {s : State} (h : i < buf.cap s.cfg) (k : Byte → Result) :
    loadByte buf i s k = k (s.byteAt buf i) := if_pos h

theorem loadByte_overrun {buf : Buf} {i : Nat} {s : State} (h : buf.cap s.cfg ≤ i)
    (k : Byte → Result) : loadByte buf i s k = .fault (.overrun buf i) := if_neg (by omega)

theorem loadByte_next {buf : Buf} {i : Nat} {s t : State} {k : Byte → Result} :
    loadByte buf i s k = .next t ↔ i < buf.cap s.cfg ∧ k (s.byteAt buf i) = .next t := by
  unfold loadByte; split <;> simp [*]

theorem loadByte_fault {buf : Buf} {i : Nat} {s : State} {k : Byte → Result} {e : Fault} :
    loadByte buf i s k = .fault e ↔
      (buf.cap s.cfg ≤ i ∧ e = .overrun buf i) ∨
      (i < buf.cap s.cfg ∧ k (s.byteAt buf i) = .fault e) := by
  by_cases h : i < buf.cap s.cfg
  · simp only [loadByte_ok h, h, true_and, Nat.not_le.mpr h, false_and, false_or]
  · have h' : buf.cap s.cfg ≤ i := by omega
    simp only [loadByte_overrun h', h, h', true_and, false_and, or_false,
      Host.Outcome.fault.injEq, eq_comm]

theorem loadByte_refused {buf : Buf} {i : Nat} {s : State} {k : Byte → Result} {e : Refusal} :
    loadByte buf i s k = .refused e ↔ i < buf.cap s.cfg ∧ k (s.byteAt buf i) = .refused e := by
  unfold loadByte; split <;> simp [*]

theorem storeByte_ok {buf : Buf} {i : Nat} {s : State} (h : i < buf.cap s.cfg) (v : Byte) :
    storeByte buf i v s = .next { s with mem := Memory.write s.mem (buf.loc i) v } := if_pos h

theorem storeByte_overrun {buf : Buf} {i : Nat} {s : State} (h : buf.cap s.cfg ≤ i) (v : Byte) :
    storeByte buf i v s = .fault (.overrun buf i) := if_neg (by omega)

theorem storeByte_next {buf : Buf} {i : Nat} {v : Byte} {s t : State} :
    storeByte buf i v s = .next t ↔
      i < buf.cap s.cfg ∧ t = { s with mem := Memory.write s.mem (buf.loc i) v } := by
  unfold storeByte; split <;> simp [*, eq_comm]

theorem storeByte_fault {buf : Buf} {i : Nat} {v : Byte} {s : State} {e : Fault} :
    storeByte buf i v s = .fault e ↔ buf.cap s.cfg ≤ i ∧ e = .overrun buf i := by
  by_cases h : i < buf.cap s.cfg
  · simp only [storeByte_ok h, reduceCtorEq, Nat.not_le.mpr h, false_and]
  · have h' : buf.cap s.cfg ≤ i := by omega
    simp only [storeByte_overrun h', h', true_and, Host.Outcome.fault.injEq, eq_comm]

theorem storeByte_not_refused {buf : Buf} {i : Nat} {v : Byte} {s : State} {e : Refusal} :
    storeByte buf i v s ≠ .refused e := by
  unfold storeByte; split <;> simp

/-- Reading any index after a store in canonical memory. -/
theorem byteAt_write {s : State} (h : Memory.wf s.mem) {x : Buf} {i : Nat} (v : Byte) {y : Buf}
    {j : Nat} :
    State.byteAt { s with mem := Memory.write s.mem (x.loc i) v } y j =
      if y = x ∧ j = i then v else s.byteAt y j := by
  unfold State.byteAt
  rw [Memory.read_write_loc h]
  simp only [eq_comm]

/-! ### Addressing -/

theorem appendTx_next {b : BusId} {v : Byte} {s t : State} :
    appendTx b v s = .next t ↔ s.bus[b].txwi < s.cfg.txCap ∧
      t = { s with
        mem := Memory.write s.mem (Buf.loc (.tx b) s.bus[b].txwi) v
        bus := s.bus.set b { s.bus[b] with txwi := s.bus[b].txwi + 1 } } := by
  unfold appendTx
  rw [andThen_next]
  constructor
  · rintro ⟨u, hu, ht⟩
    obtain ⟨hi, rfl⟩ := storeByte_next.mp hu
    cases ht
    exact ⟨hi, rfl⟩
  · rintro ⟨hi, rfl⟩
    exact ⟨_, storeByte_ok (buf := .tx b) hi v, rfl⟩

theorem appendTx_fault {b : BusId} {v : Byte} {s : State} {e : Fault} :
    appendTx b v s = .fault e ↔
      s.cfg.txCap ≤ s.bus[b].txwi ∧ e = .overrun (.tx b) s.bus[b].txwi := by
  unfold appendTx
  rw [andThen_fault, storeByte_fault]
  simp [Buf.cap]

theorem appendTx_not_refused {b : BusId} {v : Byte} {s : State} {e : Refusal} :
    appendTx b v s ≠ .refused e := by
  unfold appendTx
  intro h
  rcases andThen_refused.mp h with h | ⟨_, _, h⟩
  · exact storeByte_not_refused h
  · cases h

theorem appendRx_next {b : BusId} {v : Byte} {s t : State} :
    appendRx b v s = .next t ↔ s.bus[b].rxwi < s.cfg.rxCap ∧
      t = { s with
        mem := Memory.write s.mem (Buf.loc (.rx b) s.bus[b].rxwi) v
        bus := s.bus.set b { s.bus[b] with rxwi := s.bus[b].rxwi + 1 } } := by
  unfold appendRx
  rw [andThen_next]
  constructor
  · rintro ⟨u, hu, ht⟩
    obtain ⟨hi, rfl⟩ := storeByte_next.mp hu
    cases ht
    exact ⟨hi, rfl⟩
  · rintro ⟨hi, rfl⟩
    exact ⟨_, storeByte_ok (buf := .rx b) hi v, rfl⟩

theorem appendRx_fault {b : BusId} {v : Byte} {s : State} {e : Fault} :
    appendRx b v s = .fault e ↔
      s.cfg.rxCap ≤ s.bus[b].rxwi ∧ e = .overrun (.rx b) s.bus[b].rxwi := by
  unfold appendRx
  rw [andThen_fault, storeByte_fault]
  simp [Buf.cap]

theorem appendRx_not_refused {b : BusId} {v : Byte} {s : State} {e : Refusal} :
    appendRx b v s ≠ .refused e := by
  unfold appendRx
  intro h
  rcases andThen_refused.mp h with h | ⟨_, _, h⟩
  · exact storeByte_not_refused h
  · cases h

/-! ### Block copy (R83) -/

/-- Within both capacities a block copy completes; it writes exactly the bytes copied, in any array
other than the source. -/
theorem blockCopy_next {src dst : Buf} (hne : src ≠ dst) (n i : Nat) (s : State)
    (hwf : Memory.wf s.mem) (hs : i + n ≤ src.cap s.cfg) (hd : i + n ≤ dst.cap s.cfg) :
    ∃ m, blockCopy src dst n i s = .next { s with mem := m } ∧ Memory.wf m ∧
      ∀ (y : Buf) (j : Nat),
        Memory.read m (y.loc j) =
          if y = dst ∧ i ≤ j ∧ j < i + n then s.byteAt src j else s.byteAt y j := by
  induction n generalizing i s with
  | zero =>
    refine ⟨s.mem, rfl, hwf, fun y j => ?_⟩
    rw [if_neg (by omega)]; rfl
  | succ n ih =>
    have hsi : i < src.cap s.cfg := by omega
    have hdi : i < dst.cap s.cfg := by omega
    obtain ⟨m, hm, hw, hr⟩ := ih (i + 1)
      { s with mem := Memory.write s.mem (dst.loc i) (s.byteAt src i) }
      (Memory.write_wf hwf _ _) (by simpa using by omega) (by simpa using by omega)
    refine ⟨m, ?_, hw, fun y j => ?_⟩
    · rw [blockCopy, loadByte_ok hsi, storeByte_ok hdi, andThen_ok, hm]
    · rw [hr y j, byteAt_write hwf, byteAt_write hwf]
      have hsrc : ¬(src = dst ∧ j = i) := fun h => hne h.1
      simp only [if_neg hsrc]
      by_cases hy : y = dst
      · by_cases hji : j = i
        · subst hji
          rw [if_neg (by omega), if_pos ⟨hy, rfl⟩, if_pos ⟨hy, by omega, by omega⟩]
        · by_cases hc : i + 1 ≤ j ∧ j < i + 1 + n
          · rw [if_pos ⟨hy, hc⟩, if_pos ⟨hy, by omega, by omega⟩]
          · rw [if_neg fun h => hc h.2, if_neg fun h => hji h.2, if_neg (by omega)]
      · rw [if_neg fun h => hy h.1, if_neg fun h => hy h.1, if_neg fun h => hy h.1]

/-- A completed block copy changes memory only. -/
theorem blockCopy_mem {src dst : Buf} {n i : Nat} {s t : State}
    (h : blockCopy src dst n i s = .next t) :
    t = { s with mem := t.mem } ∧ (n ≠ 0 → i + n ≤ src.cap s.cfg ∧ i + n ≤ dst.cap s.cfg) := by
  induction n generalizing i s with
  | zero => cases h; exact ⟨rfl, fun h => absurd rfl h⟩
  | succ n ih =>
    rw [blockCopy, loadByte_next] at h
    obtain ⟨hs, h⟩ := h
    obtain ⟨u, hu, h⟩ := andThen_next.mp h
    obtain ⟨hd, rfl⟩ := storeByte_next.mp hu
    obtain ⟨ht, hb⟩ := ih h
    refine ⟨ht, fun _ => ?_⟩
    simp only at hb
    by_cases hn : n = 0
    · omega
    · have := hb hn; omega

end Sys2Proof.Machine
end

