-- ==== Sys2Proof/Laws/Handlers.lean ====
section
/-! SUPPORT. What the slave operations, the upcalls and the four condition handlers can do: one inversion
lemma each for a next state, for later proofs to cite in place of unfolding them. -/

namespace Sys2Proof.Machine

/-! ### Index arithmetic and addressing -/

/-- R86: a decrement writes TXWI of one bus, and takes a free value only at 0. -/
theorem decrementTx_cases (b : BusId) (s : State) :
    (s.bus[b].txwi ≠ 0 ∧ decrementTx b s = s.setTxwi b (s.bus[b].txwi - 1)) ∨
    (s.bus[b].txwi = 0 ∧
      decrementTx b s =
        { s.setTxwi b (Config.indexDraw s.draws % 2 ^ s.cfg.idxw) with draws := s.draws + 1 }) := by
  by_cases h : s.bus[b].txwi = 0
  · exact .inr ⟨h, if_pos (beq_iff_eq.mpr h)⟩
  · exact .inl ⟨h, if_neg fun h' => h (beq_iff_eq.mp h')⟩

theorem countDownTx_ok {b : BusId} {s : State} (h1 : s.bus[b].txwi ≤ s.bus[b].txcs)
    (h2 : s.bus[b].txcs - s.bus[b].txwi < s.cfg.txCap) (k : Byte → Result) :
    countDownTx b s k =
      k (s.byteAt (.tx b) (s.bus[b].txcs - s.bus[b].txwi)) := by
  unfold countDownTx
  rw [if_neg (Nat.not_lt.mpr h1), loadByte_ok (buf := .tx b) h2]

theorem countDownTx_next {b : BusId} {s t : State} {k : Byte → Result} :
    countDownTx b s k = .next t ↔ s.bus[b].txwi ≤ s.bus[b].txcs ∧
      s.bus[b].txcs - s.bus[b].txwi < s.cfg.txCap ∧
      k (s.byteAt (.tx b) (s.bus[b].txcs - s.bus[b].txwi)) = .next t := by
  unfold countDownTx
  by_cases h : s.bus[b].txcs < s.bus[b].txwi
  · simp only [if_pos h, reduceCtorEq, false_iff]
    exact fun h' => Nat.not_lt.mpr h'.1 h
  · rw [if_neg h, loadByte_next]
    exact ⟨fun h' => ⟨Nat.not_lt.mp h, h'⟩, fun h' => h'.2⟩

theorem sendTx_next {b : BusId} {s t : State} {k : Byte → State → Result} :
    sendTx b s k = .next t ↔ s.bus[b].txwi < s.cfg.txCap ∧
      k (s.byteAt (.tx b) s.bus[b].txwi) (s.setTxwi b (s.bus[b].txwi + 1)) = .next t :=
  loadByte_next

/-- The cursor after a pop (R149). -/
def State.popCursor (d : DrvId) (s : State) : State :=
  if s.drv[d].rdi + 1 = s.drv[d].rdl then s.setCursor d 0 0
  else s.setCursor d (s.drv[d].rdi + 1) s.drv[d].rdl

theorem popRead_next {d : DrvId} {s t : State} {k : Byte → State → Result} :
    popRead d s k = .next t ↔ s.drv[d].rdi < s.cfg.rdCap ∧
      k (s.byteAt (.rd d) s.drv[d].rdi) (s.popCursor d) = .next t :=
  loadByte_next

/-! ### Callbacks -/

theorem callbackWrite_next {d : DrvId} {x : Byte} {s t : State} :
    callbackWrite d x s = .next t ↔ ∃ u, appendTx (s.busOf d) x s = .next u ∧
      t = respond 0x09 (indexByte d) false 0 u := by
  unfold callbackWrite
  rw [andThen_next]
  simp only [Host.Outcome.next.injEq, eq_comm]

theorem callbackRead_next {d : DrvId} {s t : State} :
    callbackRead d s = .next t ↔ s.cursorEmpty d = false ∧
      s.drv[d].rdi < s.cfg.rdCap ∧
      t = respond 0x0C (indexByte d) false (s.byteAt (.rd d) s.drv[d].rdi)
        (s.popCursor d) := by
  unfold callbackRead
  by_cases h : s.cursorEmpty d = true
  · simp [h]
  · rw [if_neg h, popRead_next]
    simp [h, eq_comm]

/-- R175, R176, R111: the three things a command of a callback can do. -/
theorem callbackCommand_next {u : Upcall} {d : DrvId} {w : Word} {s t : State}
    (h : callbackCommand u d w s = .next t) :
    (∃ x, callbackWrite d x s = .next t) ∨ (u = .onReceive ∧ callbackRead d s = .next t) ∨
      t = respondIllegal w s := by
  unfold callbackCommand at h
  split at h
  · split at h
    · exact .inl ⟨_, h⟩
    · cases h
  · split at h
    · exact .inr (.inl ⟨by tauto, h⟩)
    · cases h
  · cases h
  · cases h; exact .inr (.inr rfl)

/-- The one induction over the commands of a callback: a relation that every step a callback command
can take is in, and that composes, holds from the first state to the last. -/
theorem runCallback_induct {u : Upcall} {d : DrvId} (R : State → State → Prop)
    (refl : ∀ s, R s s) (trans : ∀ a b c, R a b → R b c → R a c)
    (one : ∀ w s t, callbackCommand u d w s = .next t → R s t) {ws : List Word} {s t : State}
    (h : runCallback u d ws s = .next t) : R s t := by
  induction ws generalizing s with
  | nil => cases h; exact refl _
  | cons w ws ih =>
    obtain ⟨v, hv, h⟩ := andThen_next.mp h
    exact trans _ _ _ (one w s v hv) (ih h)

/-- A callback that issues `xs` and then `ys`. -/
theorem runCallback_append (u : Upcall) (d : DrvId) (xs ys : List Word) (s : State) :
    runCallback u d (xs ++ ys) s = andThen (runCallback u d xs s) (runCallback u d ys) := by
  induction xs generalizing s with
  | nil => rfl
  | cons x xs ih =>
    rw [List.cons_append, runCallback, runCallback, andThen_assoc]
    exact congrArg _ (funext fun s => ih s)

/-! ### Slave operations -/

theorem refillAnswer_next {d : DrvId} {s t : State} (h : refillAnswer d s = .next t) :
    (s.bus[s.busOf d].txwi ≠ 0 ∧ t = s) ∨
    (s.bus[s.busOf d].txwi = 0 ∧ ∃ u,
      ((s.drv[d].onreq = true ∧ execUpOnRequest d s = .next u) ∨
        (s.drv[d].onreq = false ∧ u = s)) ∧
      t = (u.setTxcs (s.busOf d) u.bus[s.busOf d].txwi).setTxwi (s.busOf d) 0) := by
  unfold refillAnswer State.txIdle at h
  by_cases h0 : s.bus[s.busOf d].txwi = 0
  · simp only [h0, beq_self_eq_true, if_true] at h
    obtain ⟨u, hu, h⟩ := andThen_next.mp h
    cases h
    refine .inr ⟨h0, u, ?_, rfl⟩
    split at hu
    · exact .inl ⟨‹_›, hu⟩
    · cases hu; exact .inr ⟨Bool.eq_false_of_not_eq_true ‹_›, rfl⟩
  · simp only [beq_iff_eq, h0, if_false] at h
    cases h; exact .inl ⟨h0, rfl⟩

theorem serveAnswer_next {d : DrvId} {s t : State} (h : serveAnswer d s = .next t) :
    (s.bus[s.busOf d].txcs < s.bus[s.busOf d].txwi ∧
      t = (s.setTxwi (s.busOf d) 0).setTxcs (s.busOf d) 0) ∨
    (s.bus[s.busOf d].txwi ≤ s.bus[s.busOf d].txcs ∧
      s.bus[s.busOf d].txwi < s.cfg.txCap ∧
      t = halSendNextByte (s.busOf d) (some s.drv[d].role)
        (s.byteAt (.tx (s.busOf d)) s.bus[s.busOf d].txwi)
        (s.setTxwi (s.busOf d) (s.bus[s.busOf d].txwi + 1))) := by
  unfold serveAnswer State.answerExhausted at h
  by_cases h0 : s.bus[s.busOf d].txcs < s.bus[s.busOf d].txwi
  · simp only [h0, decide_true, if_true] at h
    cases h; exact .inl ⟨h0, rfl⟩
  · simp only [h0, decide_false, Bool.false_eq_true, if_false] at h
    obtain ⟨h1, h⟩ := sendTx_next.mp h
    cases h
    exact .inr ⟨Nat.not_lt.mp h0, h1, rfl⟩

theorem deliver_next {d : DrvId} {s t : State} (h : deliver d s = .next t) :
    ∃ m, blockCopy (.rx (s.busOf d)) (.rd d) s.bus[s.busOf d].rxwi 0 s =
        .next { s with mem := m } ∧
      t = ({ s with mem := m }.setCursor d 0 s.bus[s.busOf d].rxwi).setRxwi (s.busOf d) 0 := by
  unfold deliver at h
  obtain ⟨u, hu, h⟩ := andThen_next.mp h
  have hm := (blockCopy_mem hu).1
  rw [hm] at hu
  refine ⟨u.mem, hu, ?_⟩
  cases h
  rw [hm]

/-- R174: within the capacities the accepting path completes, and RDBUF holds the message. -/
theorem deliver_ok {d : DrvId} {s : State} (hwf : Memory.wf s.mem)
    (h1 : s.bus[s.busOf d].rxwi ≤ s.cfg.rxCap) (h2 : s.bus[s.busOf d].rxwi ≤ s.cfg.rdCap) :
    ∃ m, deliver d s =
        .next (({ s with mem := m }.setCursor d 0 s.bus[s.busOf d].rxwi).setRxwi (s.busOf d) 0) ∧
      Memory.wf m ∧
      ∀ (y : Buf) (j : Nat),
        Memory.read m (y.loc j) =
          if y = .rd d ∧ j < s.bus[s.busOf d].rxwi then s.byteAt (.rx (s.busOf d)) j
          else s.byteAt y j := by
  obtain ⟨m, hm, hw, hr⟩ := blockCopy_next (src := .rx (s.busOf d)) (dst := .rd d) (by simp)
    s.bus[s.busOf d].rxwi 0 s hwf (by simpa [Buf.cap] using h1)
    (by simpa [Buf.cap] using h2)
  refine ⟨m, ?_, hw, fun y j => ?_⟩
  · unfold deliver
    dsimp only
    rw [hm]
    rfl
  · rw [hr y j]
    simp

theorem handleReceive_next {d : DrvId} {s t : State} (h : execHandleReceive d s = .next t) :
    (s.cursorEmpty d = false ∧ t = s.setRxwi (s.busOf d) 0) ∨
    (s.cursorEmpty d = true ∧ ∃ u, deliver d s = .next u ∧
      (((u.isSlave d && u.drv[d].onrcv) = true ∧
          execUpOnReceive d (countByte s.bus[s.busOf d].rxwi) u = .next t) ∨
        ((u.isSlave d && u.drv[d].onrcv) = false ∧ t = u))) := by
  unfold execHandleReceive at h
  by_cases h0 : s.cursorEmpty d = true
  · simp only [h0, if_true] at h
    obtain ⟨u, hu, h⟩ := andThen_next.mp h
    refine .inr ⟨h0, u, hu, ?_⟩
    split at h
    · exact .inl ⟨‹_›, h⟩
    · cases h; exact .inr ⟨Bool.eq_false_of_not_eq_true ‹_›, rfl⟩
  · rw [if_neg h0] at h
    cases h; exact .inl ⟨by simpa using h0, rfl⟩

/-! ### The condition handlers -/

/-- R191: what a handler's LOOKUP leads to. -/
theorem withDriverOf_eq (b : BusId) (s : State) (hit : DrvId → State → Result)
    (miss : State → Result) :
    withDriverOf b s hit miss =
      match s.lookup b with
      | some d => hit d (s.setFound (some d))
      | none => miss (s.setFound none) := by
  unfold withDriverOf execLookup
  rw [andThen_ok]
  simp only [State.setFound_found]
  split <;> simp [*]

theorem evReceive_next {s t : State} (h : execEvReceive s = .next t) :
    ∃ u v, appendRx s.disp.bus s.nextAnswer (halReceiveNextByte s.disp.bus s) = .next u ∧
      (v = u ∨ v = halIssueStop s.disp.bus u) ∧
      (t = v ∨ t = v.setFound (v.lookup s.disp.bus) ∨
        ∃ d, v.lookup s.disp.bus = some d ∧ t = markDone d (v.setFound (some d))) := by
  unfold execEvReceive at h
  obtain ⟨u, hu, h⟩ := andThen_next.mp h
  split at h
  · dsimp only at h
    generalize hv : (if u.rxOneMissing s.disp.bus = true then halIssueStop s.disp.bus u else u) = v
      at h
    refine ⟨u, v, hu, by rw [← hv]; split <;> simp, ?_⟩
    split at h
    · rw [withDriverOf_eq] at h
      cases hl : v.lookup s.disp.bus with
      | some d => rw [hl] at h; cases h; exact .inr (.inr ⟨d, rfl, rfl⟩)
      | none => rw [hl] at h; cases h; exact .inr (.inl rfl)
    · cases h; exact .inl rfl
  · have ht : u = t := by cases h; rfl
    subst ht
    exact ⟨u, u, hu, .inl rfl, .inl rfl⟩

theorem transmitMaster_next {b : BusId} {d : DrvId} {s t : State}
    (h : transmitMaster b d s = .next t) :
    (s.bus[b].txwi = 0 ∧ t = exhaustTx b d s) ∨
    (s.bus[b].txwi ≠ 0 ∧ s.bus[b].txwi ≤ s.bus[b].txcs ∧
      t = (halSendNextByte b (some s.drv[d].role) (s.byteAt (.tx b) (s.bus[b].txcs - s.bus[b].txwi))
        s).setTxwi b (s.bus[b].txwi - 1)) := by
  unfold transmitMaster State.txIdle at h
  by_cases h0 : s.bus[b].txwi = 0
  · simp only [h0, beq_self_eq_true, if_true] at h
    cases h; exact .inl ⟨h0, rfl⟩
  · simp only [beq_iff_eq, h0, if_false] at h
    obtain ⟨h1, _, h⟩ := countDownTx_next.mp h
    cases h; exact .inr ⟨h0, h1, rfl⟩

theorem evTransmit_next {s t : State} (h : execEvTransmit s = .next t) :
    t = s.setFound (s.lookup s.disp.bus) ∨
    ∃ d, s.lookup s.disp.bus = some d ∧
      ((s.drv[d].role = .master ∧
          transmitMaster s.disp.bus d (s.setFound (some d)) = .next t) ∨
        (s.drv[d].role = .slave ∧ execHandleRequestSlave d (s.setFound (some d)) = .next t)) := by
  unfold execEvTransmit at h
  rw [withDriverOf_eq] at h
  split at h
  · rename_i d hd
    split at h
    · exact .inr ⟨d, hd, .inl ⟨beq_iff_eq.mp ‹State.isMaster _ d = true›, h⟩⟩
    · split at h
      · exact .inr ⟨d, hd, .inr ⟨beq_iff_eq.mp ‹State.isSlave _ d = true›, h⟩⟩
      · cases h; exact .inl (by simp [hd])
  · cases h; exact .inl (by simp [*])

theorem evNak_next {s t : State} (h : execEvNak s = .next t) :
    t = s.setFound none ∨
    ∃ d, s.lookup s.disp.bus = some d ∧ t = markNak d (s.setFound (some d)) := by
  unfold execEvNak at h
  rw [withDriverOf_eq] at h
  split at h
  · cases h; exact .inr ⟨_, ‹_›, rfl⟩
  · cases h; exact .inl rfl

theorem evStop_next {s t : State} (h : execEvStop s = .next t) :
    t = s.setFound (s.lookup s.disp.bus) ∨
    ∃ d, s.lookup s.disp.bus = some d ∧
      ((s.drv[d].role = .slave ∧ s.bus[s.disp.bus].txwi ≠ 0 ∧
          t = writeCollision s.disp.bus d (s.setFound (some d))) ∨
        (s.bus[s.disp.bus].rxwi ≠ 0 ∧ execHandleReceive d (s.setFound (some d)) = .next t)) := by
  unfold execEvStop at h
  rw [withDriverOf_eq] at h
  split at h
  · rename_i d hd
    split at h
    · cases h
      have hs := Bool.and_eq_true_iff.mp ‹(_ && _) = true›
      exact .inr ⟨d, hd, .inl ⟨beq_iff_eq.mp hs.1,
        fun h0 => (by
          have := hs.2
          rw [State.txIdle, State.setFound_bus, beq_iff_eq.mpr h0] at this
          exact absurd this (by decide)), rfl⟩⟩
    · split at h
      · cases h; exact .inl (by simp [hd])
      · exact .inr ⟨d, hd, .inr ⟨‹_›, h⟩⟩
  · cases h; exact .inl (by simp [*])

/-- R190: the states a completed dispatcher invocation of an existing bus goes through. -/
theorem handleConditions_next {s t : State} (h : handleConditions s = .next t) :
    ∃ a b c, onCondition 0 execEvReceive s = .next a ∧ onCondition 1 execEvTransmit a = .next b ∧
      onCondition 2 execEvNak b = .next c ∧ onCondition 3 execEvStop c = .next t := by
  unfold handleConditions at h
  obtain ⟨a, ha, h⟩ := andThen_next.mp h
  obtain ⟨b, hb, h⟩ := andThen_next.mp h
  obtain ⟨c, hc, h⟩ := andThen_next.mp h
  exact ⟨a, b, c, ha, hb, hc, h⟩

theorem onCondition_next {bit : Nat} {f : State → Result} {s t : State}
    (h : onCondition bit f s = .next t) : t = s ∨ f s = .next t := by
  unfold onCondition at h
  split at h
  · exact .inr h
  · cases h; exact .inl rfl

theorem dispatch_next {bus : Byte} {s t : State} (h : execDispatch bus s = .next t) :
    (s.cfg.hasBus bus.toFin = false ∧ t = s) ∨
    ∃ b : BusId, bus = indexByte b ∧ s.cfg.hasBus b = true ∧
      ∃ u, handleConditions (beginDispatch b s) = .next u ∧ t = leaveDispatcher u := by
  unfold execDispatch at h
  split at h
  · rename_i hb
    obtain ⟨u, hu, h⟩ := andThen_next.mp h
    cases h
    exact .inr ⟨bus.toFin, rfl, hb, u, hu, rfl⟩
  · cases h; exact .inl ⟨Bool.eq_false_of_not_eq_true ‹_›, rfl⟩

end Sys2Proof.Machine
end

