-- ==== Sys2Proof/Laws/Kept.lean ====
section
/-! SUPPORT. What no handler, upcall or callback writes, and that every operation on memory keeps the
canonical form. -/

namespace Sys2Proof.Machine

/-- What the dispatcher side leaves (10_state R31 to R40): the parameters, the registry, the
foreground, the inputs of the foreground, the configuration of every driver; the ports only grow,
the marker stays, and canonical memory stays canonical. -/
structure Kept (s t : State) : Prop where
  cfg : t.cfg = s.cfg
  reg : t.reg = s.reg
  fg : t.fg = s.fg
  disp : t.disp = s.disp
  cmd : t.cmd = s.cmd
  irq : t.irq = s.irq
  drv : ∀ d : DrvId, t.drv[d].role = s.drv[d].role ∧ t.drv[d].addr = s.drv[d].addr ∧
    t.drv[d].addrv = s.drv[d].addrv ∧ t.drv[d].speed = s.drv[d].speed ∧
    t.drv[d].onreq = s.drv[d].onreq ∧ t.drv[d].onrcv = s.drv[d].onrcv
  out : ∃ new, t.out = s.out ++ new
  wf : Memory.wf s.mem → Memory.wf t.mem

theorem Kept.refl (s : State) : Kept s s :=
  ⟨rfl, rfl, rfl, rfl, rfl, rfl, fun _ => ⟨rfl, rfl, rfl, rfl, rfl, rfl⟩, ⟨[], by simp⟩, id⟩

theorem Kept.trans {s t u : State} (h : Kept s t) (k : Kept t u) : Kept s u where
  cfg := k.cfg.trans h.cfg
  reg := k.reg.trans h.reg
  fg := k.fg.trans h.fg
  disp := k.disp.trans h.disp
  cmd := k.cmd.trans h.cmd
  irq := k.irq.trans h.irq
  drv d := by
    obtain ⟨a, b, c, e, f, g⟩ := h.drv d
    obtain ⟨a', b', c', e', f', g'⟩ := k.drv d
    exact ⟨a'.trans a, b'.trans b, c'.trans c, e'.trans e, f'.trans f, g'.trans g⟩
  out := by
    obtain ⟨x, hx⟩ := h.out
    obtain ⟨y, hy⟩ := k.out
    exact ⟨x ++ y, by rw [hy, hx, List.append_assoc]⟩
  wf := k.wf ∘ h.wf

/-! ### The single updates -/

theorem Kept.bus (s : State) (b : BusId) (r : BusRegs) : Kept s (s.setBus b r) :=
  { Kept.refl s with }

theorem Kept.found (s : State) (x : Option DrvId) : Kept s (s.setFound x) :=
  { Kept.refl s with }

theorem Kept.memory {s : State} {m : Memory} (h : Memory.wf s.mem → Memory.wf m) :
    Kept s { s with mem := m } :=
  { Kept.refl s with wf := h }

theorem Kept.emit (s : State) (e : PortEvent) : Kept s (s.emit e) :=
  { Kept.refl s with out := ⟨[e], rfl⟩ }

theorem Kept.takeAnswer (s : State) : Kept s s.takeAnswer := by
  unfold State.takeAnswer; split <;> exact { Kept.refl s with }

theorem Kept.takeScript (s : State) : Kept s s.takeScript := by
  unfold State.takeScript; split <;> exact { Kept.refl s with }

theorem Kept.driver (s : State) (d : DrvId) (rdi rdl : Idx) (done nak stop : Bool) :
    Kept s (s.setDrv d { s.drv[d] with
      rdi := rdi, rdl := rdl, reqdone := done, gotnak := nak, sendstop := stop }) :=
  { Kept.refl s with
    drv := fun d' => by
      rw [State.setDrv_drv, vector_get_set]
      split
      · subst d'; exact ⟨rfl, rfl, rfl, rfl, rfl, rfl⟩
      · exact ⟨rfl, rfl, rfl, rfl, rfl, rfl⟩ }

theorem Kept.halCall (hop : Byte) (b : BusId) (x : Byte) (s : State) :
    Kept s (halCall hop b x s) := Kept.emit _ _

theorem Kept.sendNextByte (b : BusId) (role : Option Role) (x : Byte) (s : State) :
    Kept s (halSendNextByte b role x s) := Kept.emit _ _

theorem Kept.halQuery (hop : Byte) (b : BusId) (s : State) : Kept s (halQuery hop b s) :=
  (Kept.takeAnswer s).trans (Kept.emit _ _)

theorem Kept.respond (op drv : Byte) (ill : Bool) (v : Byte) (s : State) :
    Kept s (respond op drv ill v s) := Kept.emit _ _

/-! ### The operations -/

theorem storeByte_kept {buf : Buf} {i : Nat} {v : Byte} {s t : State}
    (h : storeByte buf i v s = .next t) : Kept s t := by
  obtain ⟨_, rfl⟩ := storeByte_next.mp h
  exact Kept.memory fun hw => Memory.write_wf hw _ _

theorem appendTx_kept {b : BusId} {v : Byte} {s t : State} (h : appendTx b v s = .next t) :
    Kept s t := by
  obtain ⟨_, rfl⟩ := appendTx_next.mp h
  exact (Kept.memory fun hw => Memory.write_wf hw _ _).trans (Kept.bus _ b _)

theorem appendRx_kept {b : BusId} {v : Byte} {s t : State} (h : appendRx b v s = .next t) :
    Kept s t := by
  obtain ⟨_, rfl⟩ := appendRx_next.mp h
  exact (Kept.memory fun hw => Memory.write_wf hw _ _).trans (Kept.bus _ b _)

theorem blockCopy_kept {src dst : Buf} {n i : Nat} {s t : State}
    (h : blockCopy src dst n i s = .next t) : Kept s t := by
  induction n generalizing i s with
  | zero => cases h; exact Kept.refl _
  | succ n ih =>
    obtain ⟨_, h⟩ := loadByte_next.mp h
    obtain ⟨u, hu, h⟩ := andThen_next.mp h
    exact (storeByte_kept hu).trans (ih h)

theorem popCursor_kept (d : DrvId) (s : State) : Kept s (s.popCursor d) := by
  unfold State.popCursor; split <;> exact Kept.driver ..

theorem callbackCommand_kept {u : Upcall} {d : DrvId} {w : Word} {s t : State}
    (h : callbackCommand u d w s = .next t) : Kept s t := by
  rcases callbackCommand_next h with ⟨x, h⟩ | ⟨_, h⟩ | rfl
  · obtain ⟨v, hv, rfl⟩ := callbackWrite_next.mp h
    exact (appendTx_kept hv).trans (Kept.respond ..)
  · obtain ⟨_, _, rfl⟩ := callbackRead_next.mp h
    exact (popCursor_kept d s).trans (Kept.respond ..)
  · exact Kept.respond ..

theorem runCallback_kept {u : Upcall} {d : DrvId} {ws : List Word} {s t : State}
    (h : runCallback u d ws s = .next t) : Kept s t :=
  runCallback_induct Kept Kept.refl (fun _ _ _ => Kept.trans)
    (fun _ _ _ => callbackCommand_kept) h

theorem upOnRequest_kept {d : DrvId} {s t : State} (h : execUpOnRequest d s = .next t) :
    Kept s t := ((Kept.takeScript s).trans (Kept.emit _ _)).trans (runCallback_kept h)

theorem upOnReceive_kept {d : DrvId} {n : Byte} {s t : State}
    (h : execUpOnReceive d n s = .next t) : Kept s t :=
  ((Kept.takeScript s).trans (Kept.emit _ _)).trans (runCallback_kept h)

theorem handleRequestSlave_kept {d : DrvId} {s t : State}
    (h : execHandleRequestSlave d s = .next t) : Kept s t := by
  obtain ⟨u, hu, h⟩ := andThen_next.mp h
  refine Kept.trans (t := u) ?_ ?_
  · rcases refillAnswer_next hu with ⟨_, rfl⟩ | ⟨_, v, ⟨_, hv⟩ | ⟨_, rfl⟩, rfl⟩
    · exact Kept.refl _
    · exact (upOnRequest_kept hv).trans ((Kept.bus ..).trans (Kept.bus ..))
    · exact (Kept.bus ..).trans (Kept.bus ..)
  · rcases serveAnswer_next h with ⟨_, rfl⟩ | ⟨_, _, rfl⟩
    · exact (Kept.bus ..).trans (Kept.bus ..)
    · exact (Kept.bus ..).trans (Kept.sendNextByte ..)

theorem deliver_kept {d : DrvId} {s t : State} (h : deliver d s = .next t) : Kept s t := by
  obtain ⟨m, hm, rfl⟩ := deliver_next h
  exact (blockCopy_kept hm).trans ((Kept.driver ..).trans (Kept.bus ..))

theorem handleReceive_kept {d : DrvId} {s t : State} (h : execHandleReceive d s = .next t) :
    Kept s t := by
  rcases handleReceive_next h with ⟨_, rfl⟩ | ⟨_, u, hu, ⟨_, h⟩ | ⟨_, rfl⟩⟩
  · exact Kept.bus ..
  · exact (deliver_kept hu).trans (upOnReceive_kept h)
  · exact deliver_kept hu

theorem evReceive_kept {s t : State} (h : execEvReceive s = .next t) : Kept s t := by
  obtain ⟨u, v, hu, hv, ht⟩ := evReceive_next h
  refine ((Kept.halQuery ..).trans (appendRx_kept hu)).trans (Kept.trans (t := v) ?_ ?_)
  · rcases hv with rfl | rfl
    · exact Kept.refl _
    · exact Kept.halCall ..
  · rcases ht with rfl | rfl | ⟨d, _, rfl⟩
    · exact Kept.refl _
    · exact Kept.found ..
    · exact (Kept.found ..).trans (Kept.driver ..)

theorem transmitMaster_kept {b : BusId} {d : DrvId} {s t : State}
    (h : transmitMaster b d s = .next t) : Kept s t := by
  rcases transmitMaster_next h with ⟨_, rfl⟩ | ⟨_, _, rfl⟩
  · unfold exhaustTx
    split
    · exact (Kept.halCall ..).trans (Kept.bus ..)
    · exact (Kept.driver ..).trans (Kept.bus ..)
  · exact (Kept.sendNextByte ..).trans (Kept.bus ..)

theorem evTransmit_kept {s t : State} (h : execEvTransmit s = .next t) : Kept s t := by
  rcases evTransmit_next h with rfl | ⟨d, _, ⟨_, h⟩ | ⟨_, h⟩⟩
  · exact Kept.found ..
  · exact (Kept.found ..).trans (transmitMaster_kept h)
  · exact (Kept.found ..).trans (handleRequestSlave_kept h)

theorem evNak_kept {s t : State} (h : execEvNak s = .next t) : Kept s t := by
  rcases evNak_next h with rfl | ⟨d, _, rfl⟩
  · exact Kept.found ..
  · exact (Kept.found ..).trans (Kept.driver ..)

theorem evStop_kept {s t : State} (h : execEvStop s = .next t) : Kept s t := by
  rcases evStop_next h with rfl | ⟨d, _, ⟨_, _, rfl⟩ | ⟨_, h⟩⟩
  · exact Kept.found ..
  · exact (Kept.found ..).trans ((Kept.sendNextByte ..).trans ((Kept.bus ..).trans (Kept.bus ..)))
  · exact (Kept.found ..).trans (handleReceive_kept h)

theorem handleConditions_kept {s t : State} (h : handleConditions s = .next t) : Kept s t := by
  obtain ⟨a, b, c, ha, hb, hc, ht⟩ := handleConditions_next h
  have step : ∀ {bit f} {x y : State}, (∀ {x y : State}, f x = .next y → Kept x y) →
      onCondition bit f x = .next y → Kept x y := fun hf hx => by
    rcases onCondition_next hx with rfl | hx
    · exact Kept.refl _
    · exact hf hx
  exact (((step evReceive_kept ha).trans (step evTransmit_kept hb)).trans
    (step evNak_kept hc)).trans (step evStop_kept ht)

/-- Before the first test of a dispatcher invocation. -/
theorem beginDispatch_eq (b : BusId) (s : State) :
    beginDispatch b s =
      { s.takeAnswer with
        disp := { active := true, bus := b, status := s.nextAnswer }
        out := s.out ++
          [.hal (pack 0x0D (indexByte b) 0 0) (some (pack 0x0D (indexByte b) 0 s.nextAnswer)),
           .hal (pack 0x0E (indexByte b) 0 s.nextAnswer) none] } := by
  unfold beginDispatch enterDispatcher latchStatus halGetInterruptStatus halClearInterruptStatus
    halQuery halCall State.nextAnswer State.takeAnswer
  rcases s with ⟨_, _, _, _, _, _, _, _, _, _, answers, _, _, _⟩
  cases answers <;>
    simp [State.emit, State.setDisp, halWord, halReturnWord]

/-- The memory after reset is canonical. -/
theorem reset_memory_wf : Memory.wf State.reset.mem := by
  decide

end Sys2Proof.Machine
end

