-- ==== Sys2Proof/Laws/PerInstr.lean ====
section
/-! SUPPORT. Per operation: its word fits its row of the opcode table (30_encoding R107, R108, R109). -/

namespace Sys2Proof.Laws.TableRow

open Sys2Proof

/-- An operation has a word exactly if it has a row, and the word under the row's mask is the row's
match. -/
def Statement (i : Instr) : Prop :=
  (encode i).isSome = (tableRow i).isSome ∧
  ∀ port w pattern mask, encode i = some (port, w) → tableRow i = some (pattern, mask) →
    w &&& mask = pattern

theorem pack_and (a3 a2 a1 a0 b3 b2 b1 b0 : Byte) :
    pack a3 a2 a1 a0 &&& pack b3 b2 b1 b0 = pack (a3 &&& b3) (a2 &&& b2) (a1 &&& b1) (a0 &&& b0) := by
  simp only [pack, ← BitVec.and_append]

/-- A word under a mask, field by field. -/
theorem pack_mask {a3 a2 a1 a0 : Byte} {mask pattern : Word} (h3 : a3 &&& byte3 mask = byte3 pattern)
    (h2 : a2 &&& byte2 mask = byte2 pattern) (h1 : a1 &&& byte1 mask = byte1 pattern)
    (h0 : a0 &&& byte0 mask = byte0 pattern) : pack a3 a2 a1 a0 &&& mask = pattern := by
  rw [← pack_bytes mask, pack_and, h3, h2, h1, h0, pack_bytes]

/-- A free field: the mask is zero there. -/
theorem free_field (x : Byte) {m p : Byte} (hm : m = 0) (hp : p = 0) : x &&& m = p := by
  subst hm hp; simp

/-- A one-bit option: the mask covers bits 7:1. -/
theorem option_field (v : Bool) {m p : Byte} (hm : m = 0xFE) (hp : p = 0) :
    boolByte v &&& m = p := by
  subst hm hp; cases v <;> rfl

theorem of_pack {i : Instr} {port : Port} {w pattern mask : Word} (he : encode i = some (port, w))
    (ht : tableRow i = some (pattern, mask)) (h : w &&& mask = pattern) : Statement i := by
  refine ⟨by rw [he, ht]; rfl, fun port' w' pattern' mask' he' ht' => ?_⟩
  rw [he] at he'; rw [ht] at ht'
  cases he'; cases ht'
  exact h

theorem register (d : DrvId) (bus : BusId) : Statement (.register d bus) :=
  of_pack rfl rfl
    (pack_mask (by decide) (free_field _ rfl rfl) (free_field _ rfl rfl) (by decide))

theorem unregister (bus : BusId) : Statement (.unregister bus) :=
  of_pack rfl rfl
    (pack_mask (by decide) (by decide) (free_field _ rfl rfl) (by decide))

theorem setSpeed (d : DrvId) (speed : Speed) : Statement (.setSpeed d speed) :=
  of_pack rfl rfl
    (pack_mask (by decide) (free_field _ rfl rfl) (by decide) (option_field _ rfl rfl))

theorem beginMaster (d : DrvId) : Statement (.beginMaster d) :=
  of_pack rfl rfl
    (pack_mask (by decide) (free_field _ rfl rfl) (by decide) (by decide))

theorem beginSlave (d : DrvId) (addr : Byte) : Statement (.beginSlave d addr) :=
  of_pack rfl rfl
    (pack_mask (by decide) (free_field _ rfl rfl) (free_field _ rfl rfl) (by decide))

theorem onRequest (d : DrvId) (bind : Bool) : Statement (.onRequest d bind) :=
  of_pack rfl rfl
    (pack_mask (by decide) (free_field _ rfl rfl) (by decide) (option_field _ rfl rfl))

theorem onReceive (d : DrvId) (bind : Bool) : Statement (.onReceive d bind) :=
  of_pack rfl rfl
    (pack_mask (by decide) (free_field _ rfl rfl) (by decide) (option_field _ rfl rfl))

theorem beginTransmission (d : DrvId) (addr : Byte) : Statement (.beginTransmission d addr) :=
  of_pack rfl rfl
    (pack_mask (by decide) (free_field _ rfl rfl) (free_field _ rfl rfl) (by decide))

theorem write (d : DrvId) (byte : Byte) : Statement (.write d byte) :=
  of_pack rfl rfl
    (pack_mask (by decide) (free_field _ rfl rfl) (free_field _ rfl rfl) (by decide))

theorem endTransmission (d : DrvId) (sendStop : Bool) : Statement (.endTransmission d sendStop) :=
  of_pack rfl rfl
    (pack_mask (by decide) (free_field _ rfl rfl) (by decide) (option_field _ rfl rfl))

theorem requestFrom (d : DrvId) (addr : Byte) (numBytes : Byte) : Statement (.requestFrom d addr numBytes) :=
  of_pack rfl rfl
    (pack_mask (by decide) (free_field _ rfl rfl) (free_field _ rfl rfl) (free_field _ rfl rfl))

theorem read (d : DrvId) : Statement (.read d) :=
  of_pack rfl rfl
    (pack_mask (by decide) (free_field _ rfl rfl) (by decide) (by decide))

theorem halInitMaster (b : BusId) (config : Speed) : Statement (.halInitMaster b config) :=
  of_pack rfl rfl
    (pack_mask (by decide) (free_field _ rfl rfl) (by decide) (option_field _ rfl rfl))

theorem halInitSlave (b : BusId) (addr : Byte) : Statement (.halInitSlave b addr) :=
  of_pack rfl rfl
    (pack_mask (by decide) (free_field _ rfl rfl) (by decide) (free_field _ rfl rfl))

theorem halEnableModule (b : BusId) : Statement (.halEnableModule b) :=
  of_pack rfl rfl
    (pack_mask (by decide) (free_field _ rfl rfl) (by decide) (by decide))

theorem halDisableModule (b : BusId) : Statement (.halDisableModule b) :=
  of_pack rfl rfl
    (pack_mask (by decide) (free_field _ rfl rfl) (by decide) (by decide))

theorem halSetMode (b : BusId) (mode : Mode) : Statement (.halSetMode b mode) :=
  of_pack rfl rfl
    (pack_mask (by decide) (free_field _ rfl rfl) (by decide) (option_field _ rfl rfl))

theorem halSetTargetAddress (b : BusId) (addr : Byte) : Statement (.halSetTargetAddress b addr) :=
  of_pack rfl rfl
    (pack_mask (by decide) (free_field _ rfl rfl) (by decide) (free_field _ rfl rfl))

theorem halIssueStart (b : BusId) : Statement (.halIssueStart b) :=
  of_pack rfl rfl
    (pack_mask (by decide) (free_field _ rfl rfl) (by decide) (by decide))

theorem halIssueStop (b : BusId) : Statement (.halIssueStop b) :=
  of_pack rfl rfl
    (pack_mask (by decide) (free_field _ rfl rfl) (by decide) (by decide))

theorem halSendNextByte (b : BusId) (byte : Byte) : Statement (.halSendNextByte b byte) :=
  of_pack rfl rfl
    (pack_mask (by decide) (free_field _ rfl rfl) (by decide) (free_field _ rfl rfl))

theorem halReceiveNextByte (b : BusId) : Statement (.halReceiveNextByte b) :=
  of_pack rfl rfl
    (pack_mask (by decide) (free_field _ rfl rfl) (by decide) (by decide))

theorem halIsBusBusy (b : BusId) : Statement (.halIsBusBusy b) :=
  of_pack rfl rfl
    (pack_mask (by decide) (free_field _ rfl rfl) (by decide) (by decide))

theorem halIsStopPending (b : BusId) : Statement (.halIsStopPending b) :=
  of_pack rfl rfl
    (pack_mask (by decide) (free_field _ rfl rfl) (by decide) (by decide))

theorem halGetInterruptStatus (b : BusId) : Statement (.halGetInterruptStatus b) :=
  of_pack rfl rfl
    (pack_mask (by decide) (free_field _ rfl rfl) (by decide) (by decide))

theorem halClearInterruptStatus (b : BusId) (bits : Byte) : Statement (.halClearInterruptStatus b bits) :=
  of_pack rfl rfl
    (pack_mask (by decide) (free_field _ rfl rfl) (by decide) (free_field _ rfl rfl))

theorem halEnableInterruptSources (b : BusId) (bits : Byte) : Statement (.halEnableInterruptSources b bits) :=
  of_pack rfl rfl
    (pack_mask (by decide) (free_field _ rfl rfl) (by decide) (free_field _ rfl rfl))

theorem dispatch (bus : Byte) : Statement (.dispatch bus) :=
  of_pack rfl rfl
    (pack_mask (by decide) (free_field _ rfl rfl) (by decide) (by decide))

theorem evReceive : Statement .evReceive :=
  of_pack rfl rfl (by decide)

theorem evTransmit : Statement .evTransmit :=
  of_pack rfl rfl (by decide)

theorem evNak : Statement .evNak :=
  of_pack rfl rfl (by decide)

theorem evStop : Statement .evStop :=
  of_pack rfl rfl (by decide)

theorem upOnRequest (d : DrvId) : Statement (.upOnRequest d) :=
  of_pack rfl rfl
    (pack_mask (by decide) (free_field _ rfl rfl) (by decide) (by decide))

theorem upOnReceive (d : DrvId) (count : Byte) : Statement (.upOnReceive d count) :=
  of_pack rfl rfl
    (pack_mask (by decide) (free_field _ rfl rfl) (by decide) (free_field _ rfl rfl))

theorem lookup (b : BusId) : Statement (.lookup b) :=
  ⟨rfl, fun _ _ _ _ h => by cases h⟩

theorem handleRequestSlave (d : DrvId) : Statement (.handleRequestSlave d) :=
  ⟨rfl, fun _ _ _ _ h => by cases h⟩

theorem handleReceive (d : DrvId) : Statement (.handleReceive d) :=
  ⟨rfl, fun _ _ _ _ h => by cases h⟩

end Sys2Proof.Laws.TableRow
end

