-- ==== Sys2Proof/Laws/Ports.lean ====
section
/-! SUPPORT. What is read off the ports, for a history that grew. -/

namespace Sys2Proof.Machine

theorem callsOf_append (p : Params) (b : BusId) (xs ys : List PortEvent) :
    callsOf p b (xs ++ ys) = callsOf p b xs ++ callsOf p b ys :=
  List.filterMap_append

/-- The call of one event: none but of a HAL word of that bus that decodes. -/
theorem callOf_eq_some {p : Params} {b : BusId} {e : PortEvent} {c : Call} :
    callOf p b e = some c ↔
      ∃ w, e = .hal w c.ret c.role ∧ decodeHal p w = .ok c.op ∧ byte2 w = indexByte b := by
  obtain ⟨i, ret, role⟩ := c
  cases e with
  | hal w r q =>
    cases hd : decodeHal p w with
    | ok j =>
      by_cases hb : byte2 w = indexByte b
      · simp only [callOf, hd, if_pos hb]
        exact ⟨fun h => by cases h; exact ⟨w, rfl, hd, hb⟩,
          fun ⟨_, h, hi, _⟩ => by cases h; rw [hd] at hi; cases hi; rfl⟩
      · simp only [callOf, hd, if_neg hb, reduceCtorEq, false_iff]
        exact fun ⟨_, h, _, h'⟩ => by cases h; exact hb h'
    | error x =>
      simp only [callOf, hd, reduceCtorEq, false_iff]
      exact fun ⟨_, h, hi, _⟩ => by cases h; rw [hd] at hi; cases hi
  | rsp w => simp [callOf]
  | upcall w => simp [callOf]

theorem readWire_append (started : Bool) (xs ys : List Call) :
    readWire started (xs ++ ys) =
      readWire started xs ++ readWire (started || xs.any Call.isStart) ys := by
  induction xs generalizing started with
  | nil => simp [readWire]
  | cons x xs ih =>
    rw [List.cons_append, readWire, readWire, ih, List.append_assoc, List.any_cons, Bool.or_assoc]

/-- R229: the wire of a longer history. -/
theorem wire_append (p : Params) (b : BusId) (xs ys : List PortEvent) :
    wire p b (xs ++ ys) =
      wire p b xs ++ readWire ((callsOf p b xs).any Call.isStart) (callsOf p b ys) := by
  rw [wire, callsOf_append, readWire_append, Bool.false_or]
  rfl

theorem collaborator_append (p : Params) (b : BusId) (xs ys : List PortEvent) :
    collaborator p b (xs ++ ys) =
      (callsOf p b ys).foldl (fun c e => c.call e.op) (collaborator p b xs) := by
  rw [collaborator, callsOf_append, List.foldl_append]
  rfl

end Sys2Proof.Machine
end

