-- ==== Sys2Proof/Laws/Step.lean ====
section
/-! SUPPORT. What a step can do, said once: the cases of `fetch`, and the operation a command word of the
foreground can name. -/

namespace Sys2Proof.Machine

/-! ### Passing a step -/

@[simp] theorem tick_cfg (s : State) : (tick s).cfg = s.cfg := by unfold tick; split <;> rfl
@[simp] theorem tick_bus (s : State) : (tick s).bus = s.bus := by unfold tick; split <;> rfl
@[simp] theorem tick_reg (s : State) : (tick s).reg = s.reg := by unfold tick; split <;> rfl
@[simp] theorem tick_drv (s : State) : (tick s).drv = s.drv := by unfold tick; split <;> rfl
@[simp] theorem tick_fg (s : State) : (tick s).fg = s.fg := by unfold tick; split <;> rfl
@[simp] theorem tick_disp (s : State) : (tick s).disp = s.disp := by unfold tick; split <;> rfl
@[simp] theorem tick_mem (s : State) : (tick s).mem = s.mem := by unfold tick; split <;> rfl
@[simp] theorem tick_found (s : State) : (tick s).found = s.found := by unfold tick; split <;> rfl
@[simp] theorem tick_cmd (s : State) : (tick s).cmd = s.cmd := by unfold tick; split <;> rfl
@[simp] theorem tick_answers (s : State) : (tick s).answers = s.answers := by
  unfold tick; split <;> rfl
@[simp] theorem tick_scripts (s : State) : (tick s).scripts = s.scripts := by
  unfold tick; split <;> rfl
@[simp] theorem tick_draws (s : State) : (tick s).draws = s.draws := by unfold tick; split <;> rfl
@[simp] theorem tick_out (s : State) : (tick s).out = s.out := by unfold tick; split <;> rfl

/-! ### What a word can name -/

/-- R105: an event word names DISPATCH of the bus in it, and nothing else does. -/
theorem decodeEvent_ok {w : Word} {i : Instr} (h : decodeEvent w = .ok i) :
    ∃ bus, w = eventWord bus ∧ i = .dispatch bus := by
  unfold decodeEvent at h
  split at h
  · rename_i h3
    obtain ⟨h1, h⟩ := needZero_ok h
    obtain ⟨h0, h⟩ := needZero_ok h
    cases h
    refine ⟨byte2 w, ?_, rfl⟩
    conv_lhs => rw [← pack_bytes w, h3, h1, h0]
    rfl
  · cases h

/-- R107: a command word names one of the twelve commands. -/
theorem decodeCmd_phaseCount {p : Params} {w : Word} {i : Instr} (h : decodeCmd p w = .ok i) :
    phaseCount i ≠ 0 := by
  unfold decodeCmd at h
  split at h
  · obtain ⟨_, h⟩ := needZero_ok h
    obtain ⟨d, _, _, h⟩ := withDriver_ok h
    obtain ⟨b, _, _, h⟩ := withBus_ok h
    split at h <;> cases h
    simp [phaseCount]
  · obtain ⟨_, h⟩ := needZero_ok h
    obtain ⟨_, h⟩ := needZero_ok h
    obtain ⟨b, _, _, h⟩ := withBus_ok h
    cases h; simp [phaseCount]
  · obtain ⟨_, h⟩ := needZero_ok h
    obtain ⟨d, _, _, h⟩ := withDriver_ok h
    obtain ⟨v, _, h⟩ := withBit_ok h
    cases h; simp [phaseCount]
  · obtain ⟨_, h⟩ := needZero_ok h
    obtain ⟨_, h⟩ := needZero_ok h
    obtain ⟨d, _, _, h⟩ := withDriver_ok h
    cases h; simp [phaseCount]
  · obtain ⟨_, h⟩ := needZero_ok h
    obtain ⟨d, _, _, h⟩ := withDriver_ok h
    cases h; simp [phaseCount]
  · obtain ⟨_, h⟩ := needZero_ok h
    obtain ⟨d, _, _, h⟩ := withDriver_ok h
    obtain ⟨v, _, h⟩ := withBit_ok h
    cases h; simp [phaseCount]
  · obtain ⟨_, h⟩ := needZero_ok h
    obtain ⟨d, _, _, h⟩ := withDriver_ok h
    obtain ⟨v, _, h⟩ := withBit_ok h
    cases h; simp [phaseCount]
  · obtain ⟨_, h⟩ := needZero_ok h
    obtain ⟨d, _, _, h⟩ := withDriver_ok h
    cases h; simp [phaseCount]
  · obtain ⟨_, h⟩ := needZero_ok h
    obtain ⟨d, _, _, h⟩ := withDriver_ok h
    cases h; simp [phaseCount]
  · obtain ⟨_, h⟩ := needZero_ok h
    obtain ⟨d, _, _, h⟩ := withDriver_ok h
    obtain ⟨v, _, h⟩ := withBit_ok h
    cases h; simp [phaseCount]
  · obtain ⟨d, _, _, h⟩ := withDriver_ok h
    cases h; simp [phaseCount]
  · obtain ⟨_, h⟩ := needZero_ok h
    obtain ⟨_, h⟩ := needZero_ok h
    obtain ⟨d, _, _, h⟩ := withDriver_ok h
    cases h; simp [phaseCount]
  · cases h

/-! ### The step -/

theorem dueEvent_due {s : State} {w : Word} {rest : List Arrival}
    (h : s.irq = { delay := 0, word := w } :: rest) : s.dueEvent = some w := by
  unfold State.dueEvent
  rw [h]
  rfl

theorem fetch_due {s : State} {w : Word} {rest : List Arrival} (hd : s.disp.active = false)
    (h : s.irq = { delay := 0, word := w } :: rest) :
    fetch s = match decodeEvent w with
      | .ok i => .run i { s with irq := rest }
      | .error _ => .settle { s with irq := rest } := by
  unfold fetch
  rw [if_neg (by simp [hd]), h]
  rfl

/-- What a step from a state with no invocation in progress is: an invocation served, a word that is
no event dropped, a phase of the command in progress, an illegal word in FG answered, a command
word accepted or answered, or nothing. -/
theorem step_cases (s : State) (hd : s.disp.active = false) :
    (∃ bus rest, s.irq = { delay := 0, word := eventWord bus } :: rest ∧
      s.dueEvent = some (eventWord bus) ∧ step s = exec (.dispatch bus) { s with irq := rest }) ∨
    (∃ w rest, s.irq = { delay := 0, word := w } :: rest ∧ s.dueEvent = some w ∧
      step s = .next { s with irq := rest }) ∨
    (s.dueEvent = none ∧
      ((∃ i, s.fg.busy = true ∧ decodeCmd s.cfg s.fg.word = .ok i ∧ s.inProgress = some i ∧
          step s = exec i (tick s)) ∨
        (∃ e, s.fg.busy = true ∧ decodeCmd s.cfg s.fg.word = .error e ∧
          step s = .next (respondIllegal s.fg.word (release (tick s)))) ∨
        (∃ w rest, s.fg.busy = false ∧ s.cmd = w :: rest ∧
          step s = .next (acceptCommand w { tick s with cmd := rest })) ∨
        (s.fg.busy = false ∧ s.cmd = [] ∧ step s = .next (tick s)))) := by
  have fore : (∀ w rest, s.irq ≠ { delay := 0, word := w } :: rest) →
      fetch s = foregroundMove s → s.dueEvent = none →
      (s.dueEvent = none ∧
        ((∃ i, s.fg.busy = true ∧ decodeCmd s.cfg s.fg.word = .ok i ∧ s.inProgress = some i ∧
            step s = exec i (tick s)) ∨
          (∃ e, s.fg.busy = true ∧ decodeCmd s.cfg s.fg.word = .error e ∧
            step s = .next (respondIllegal s.fg.word (release (tick s)))) ∨
          (∃ w rest, s.fg.busy = false ∧ s.cmd = w :: rest ∧
            step s = .next (acceptCommand w { tick s with cmd := rest })) ∨
          (s.fg.busy = false ∧ s.cmd = [] ∧ step s = .next (tick s)))) := fun _ hf hn => by
    refine ⟨hn, ?_⟩
    unfold step
    rw [hf]
    unfold foregroundMove
    cases hb : s.fg.busy with
    | true =>
      cases hc : decodeCmd s.cfg s.fg.word with
      | ok i => exact .inl ⟨i, rfl, rfl, by simp [State.inProgress, hb, hc, Except.toOption], rfl⟩
      | error e => exact .inr (.inl ⟨e, rfl, rfl, rfl⟩)
    | false =>
      cases hc : s.cmd with
      | cons w rest => exact .inr (.inr (.inl ⟨w, rest, rfl, rfl, rfl⟩))
      | nil => exact .inr (.inr (.inr ⟨rfl, rfl, rfl⟩))
  have hd' : ¬ s.disp.active = true := by simp [hd]
  rcases hi : s.irq with _ | ⟨⟨_ | n, w⟩, rest⟩
  · exact .inr (.inr (fore (by simp [hi]) (by unfold fetch; rw [if_neg hd', hi])
      (by unfold State.dueEvent; rw [hi])))
  · have hdue := dueEvent_due hi
    cases he : decodeEvent w with
    | ok i =>
      obtain ⟨bus, rfl, rfl⟩ := decodeEvent_ok he
      refine .inl ⟨bus, rest, rfl, hdue, ?_⟩
      unfold step
      rw [fetch_due hd hi, he]
    | error e =>
      refine .inr (.inl ⟨w, rest, rfl, hdue, ?_⟩)
      unfold step
      rw [fetch_due hd hi, he]
  · exact .inr (.inr (fore (by simp [hi]) (by unfold fetch; rw [if_neg hd', hi]; rfl)
      (by unfold State.dueEvent; rw [hi]; rfl)))

/-- A step that leads anywhere starts with no invocation in progress. -/
theorem step_next_idle {s t : State} (h : step s = .next t) : s.disp.active = false := by
  by_contra hd
  unfold step fetch at h
  rw [if_pos (by simpa using hd)] at h
  cases h

end Sys2Proof.Machine
end

