-- ==== Sys2Proof/Tests/Slice0.lean ====
section
/-! SUPPORT. Tests of one step each, with the results of spec/95_test_vectors.md, and a witness for every
statement with hypotheses. -/

namespace Sys2Proof.Tests

open Sys2Proof Sys2Proof.Machine

/-! ### Small states -/

/-- What a result shows of its next state. -/
def after {α : Type} (r : Result) (f : State → α) : Option α :=
  match r with
  | .next t => some (f t)
  | .fault _ => none
  | .refused _ => none

/-- What a stopped result stopped with. -/
def stopOf (r : Result) : Option (Fault ⊕ Refusal) :=
  match r with
  | .next _ => none
  | .fault e => some (.inl e)
  | .refused e => some (.inr e)

/-- Driver `d` registered for its bus in a role. -/
def withRole (d : DrvId) (role : Role) (s : State) : State :=
  (s.setReg (s.busOf d) { valid := true, drv := d }).setDrv d { s.drv[d] with role := role }

/-- Driver 0 a registered master. -/
def master : State := withRole 0 .master State.reset

/-- Driver 1 a registered slave. -/
def slave : State := withRole 1 .slave State.reset

/-- Some bytes put into an array from index 0 upwards. -/
def filled (buf : Buf) (xs : List Byte) (s : State) : State :=
  { s with mem := (xs.zipIdx).foldl (fun m x => Memory.write m (buf.loc x.2) x.1) s.mem }

/-- An event of bus `b` served, with the answers the environment gives. -/
def served (b : BusId) (answers : List Byte) (s : State) : Result :=
  exec (.dispatch (indexByte b)) { s with answers := answers }

/-- A command word in FG at a phase. -/
def running (w : Word) (phase : BitVec 4) (s : State) : State := goto phase (latchCommand w s)

/-- Another configuration: drivers 0 and 1 share bus 0, eight drivers, two buses. -/
def otherConfig : Params :=
  { Config.reference with numBuses := 2, numDrivers := 8, busOf := Config.identity.set 1 0 }

/-! ### Ill-formed terms are refused (30_encoding R111, 00_scope R8) -/

/-- The check of the bus of REGISTER. -/
theorem test_illformed_register : (Instr.register 0 1).wellFormed Config.reference = false := by
  decide
theorem test_wellformed_register : (Instr.register 3 3).wellFormed Config.reference = true := by
  decide
theorem test_illformed_register_other_configuration :
    (Instr.register 1 1).wellFormed otherConfig = false ∧
    (Instr.register 1 0).wellFormed otherConfig = true := by decide

/-- The check of the driver. -/
theorem test_illformed_driver :
    (Instr.register 4 4).wellFormed Config.reference = false ∧
    (Instr.setSpeed 4 .fast400k).wellFormed Config.reference = false ∧
    (Instr.write 4 0).wellFormed Config.reference = false ∧
    (Instr.upOnRequest 4).wellFormed Config.reference = false ∧
    (Instr.upOnReceive 4 1).wellFormed Config.reference = false ∧
    (Instr.handleReceive 255).wellFormed Config.reference = false ∧
    (Instr.write 7 0).wellFormed otherConfig = true ∧
    (Instr.write 8 0).wellFormed otherConfig = false := by decide

/-- The check of the bus. -/
theorem test_illformed_bus :
    (Instr.unregister 4).wellFormed Config.reference = false ∧
    (Instr.halIssueStart 4).wellFormed Config.reference = false ∧
    (Instr.lookup 4).wellFormed Config.reference = false ∧
    (Instr.unregister 2).wellFormed otherConfig = false ∧
    (Instr.halIssueStart 1).wellFormed otherConfig = true := by decide

/-- R8: the decoder follows the configuration. -/
theorem test_decode_other_configuration :
    decodeCmd otherConfig 0x0907A100 = .ok (.write 7 0xA1) ∧
    decodeCmd otherConfig 0x02000200 = .error .noSuchBus ∧
    decodeCmd otherConfig 0x01010000 = .ok (.register 1 0) ∧
    decodeHal otherConfig 0x07020000 = .error .noSuchBus ∧
    decodeUpcall otherConfig 0xF0070000 = .ok (.upOnRequest 7) := by decide

/-! ### Decoding of words written out from R101 to R108 and 95_test_vectors section 2 -/

theorem test_decode_register : decodeCmd Config.reference 0x01000000 = .ok (.register 0 0) := by
  decide
theorem test_decode_unregister : decodeCmd Config.reference 0x02000300 = .ok (.unregister 3) := by
  decide
theorem test_decode_setSpeed :
    decodeCmd Config.reference 0x03000001 = .ok (.setSpeed 0 .fast400k) := by decide
theorem test_decode_beginMaster : decodeCmd Config.reference 0x04020000 = .ok (.beginMaster 2) := by
  decide
theorem test_decode_beginSlave :
    decodeCmd Config.reference 0x05014200 = .ok (.beginSlave 1 0x42) := by decide
theorem test_decode_onRequest :
    decodeCmd Config.reference 0x06010001 = .ok (.onRequest 1 true) := by decide
theorem test_decode_onReceive :
    decodeCmd Config.reference 0x07010000 = .ok (.onReceive 1 false) := by decide
theorem test_decode_beginTransmission :
    decodeCmd Config.reference 0x08005000 = .ok (.beginTransmission 0 0x50) := by decide
theorem test_decode_write : decodeCmd Config.reference 0x0900A100 = .ok (.write 0 0xA1) := by decide
theorem test_decode_endTransmission :
    decodeCmd Config.reference 0x0A000000 = .ok (.endTransmission 0 false) := by decide
theorem test_decode_requestFrom :
    decodeCmd Config.reference 0x0B0048FF = .ok (.requestFrom 0 0x48 255) := by decide
theorem test_decode_read : decodeCmd Config.reference 0x0C030000 = .ok (.read 3) := by decide

theorem test_decode_halInitMaster :
    decodeHal Config.reference 0x01020001 = .ok (.halInitMaster 2 .fast400k) := by
  decide
theorem test_decode_halInitSlave :
    decodeHal Config.reference 0x02020042 = .ok (.halInitSlave 2 0x42) := by decide
theorem test_decode_halEnableModule :
    decodeHal Config.reference 0x03020000 = .ok (.halEnableModule 2) := by decide
theorem test_decode_halDisableModule :
    decodeHal Config.reference 0x04020000 = .ok (.halDisableModule 2) := by decide
theorem test_decode_halSetMode :
    decodeHal Config.reference 0x05020001 = .ok (.halSetMode 2 .receive) := by decide
theorem test_decode_halSetTargetAddress :
    decodeHal Config.reference 0x06020050 = .ok (.halSetTargetAddress 2 0x50) := by decide
theorem test_decode_halIssueStart :
    decodeHal Config.reference 0x07020000 = .ok (.halIssueStart 2) := by decide
theorem test_decode_halIssueStop :
    decodeHal Config.reference 0x08020000 = .ok (.halIssueStop 2) := by decide
theorem test_decode_halSendNextByte :
    decodeHal Config.reference 0x090200A1 = .ok (.halSendNextByte 2 0xA1) := by
  decide
theorem test_decode_halReceiveNextByte :
    decodeHal Config.reference 0x0A020000 = .ok (.halReceiveNextByte 2) := by
  decide
theorem test_decode_halIsBusBusy :
    decodeHal Config.reference 0x0B020000 = .ok (.halIsBusBusy 2) := by decide
theorem test_decode_halIsStopPending :
    decodeHal Config.reference 0x0C020000 = .ok (.halIsStopPending 2) := by decide
theorem test_decode_halGetInterruptStatus :
    decodeHal Config.reference 0x0D020000 = .ok (.halGetInterruptStatus 2) := by decide
theorem test_decode_halClearInterruptStatus :
    decodeHal Config.reference 0x0E020009 = .ok (.halClearInterruptStatus 2 0x09) := by decide
theorem test_decode_halEnableInterruptSources :
    decodeHal Config.reference 0x0F02000B = .ok (.halEnableInterruptSources 2 0x0B) := by decide

theorem test_decode_dispatch : decodeEvent 0xE0010000 = .ok (.dispatch 1) := by decide
theorem test_decode_dispatch_no_such_bus : decodeEvent 0xE0090000 = .ok (.dispatch 9) := by decide
theorem test_decode_status :
    decodeStatus 0x01 = .ok .evReceive ∧ decodeStatus 0x02 = .ok .evTransmit ∧
    decodeStatus 0x04 = .ok .evNak ∧ decodeStatus 0x08 = .ok .evStop ∧
    decodeStatus 0xF0 = .error .noCondition := by decide
theorem test_status_order : statusHandlers 0x0F = [.evReceive, .evTransmit, .evNak, .evStop] := by
  decide
theorem test_decode_upOnRequest :
    decodeUpcall Config.reference 0xF0010000 = .ok (.upOnRequest 1) := by decide
theorem test_decode_upOnReceive :
    decodeUpcall Config.reference 0xF1010003 = .ok (.upOnReceive 1 3) := by decide

/-- V-ILL-1 to V-ILL-9. -/
theorem test_decode_illegal :
    decodeCmd Config.reference 0x00000000 = .error .unknownCode ∧
    decodeCmd Config.reference 0x0D000000 = .error .unknownCode ∧
    decodeCmd Config.reference 0x04000001 = .error .reservedBits ∧
    decodeCmd Config.reference 0x01000100 = .error .wrongBus ∧
    decodeCmd Config.reference 0x09040000 = .error .noSuchDriver ∧
    decodeCmd Config.reference 0x02010000 = .error .reservedBits ∧
    decodeCmd Config.reference 0x0A000002 = .error .reservedBits ∧
    decodeCmd Config.reference 0x02000400 = .error .noSuchBus ∧
    decodeCmd Config.reference 0xFF000000 = .error .unknownCode := by decide

/-- The four ports that are not CMD refuse words that are not theirs (R103 to R105). -/
theorem test_decode_illegal_elsewhere :
    decodeHal Config.reference 0x10000000 = .error .unknownCode ∧ decodeHal Config.reference 0x07020001 = .error .reservedBits ∧
    decodeHal Config.reference 0x07040000 = .error .noSuchBus ∧ decodeEvent 0xE1000000 = .error .unknownCode ∧
    decodeUpcall Config.reference 0xF0010001 = .error .reservedBits ∧ decodeUpcall Config.reference 0xF2000000 = .error .unknownCode := by
  decide

/-! ### The step -/

/-- V-ILL-7: the response of an illegal word. -/
theorem test_step_illegal :
    after (step { State.reset with cmd := [0x0A000002] }) (fun t => (t.fg.busy, t.out)) =
      some (false, [.rsp 0x0A000100]) := by decide
/-- R42: acceptance is a step of its own. -/
theorem test_step_accepts :
    after (step { State.reset with cmd := [0x0900A100] })
      (fun t => (t.fg.busy, t.fg.phase, t.bus[0].txwi, t.out)) = some (true, 0, 0, []) := by decide
/-- R45: an interrupt goes before the foreground. -/
theorem test_step_interrupt_first :
    after (step { running 0x0900A100 0 State.reset with
        irq := [⟨0, 0xE0010000⟩], answers := [0x00] }) (fun t => (t.fg.busy, t.out)) =
      some (true, [.hal 0x0D010000 (some 0x0D010000), .hal 0x0E010000 none]) := by decide

/-- A word placed for the next step is run by it: a command, a HAL word, an event condition. -/
theorem test_withFetchWord :
    after (step (State.reset.withFetchWord 32 0x0900A100))
      (fun t => (t.byteAt (.tx 0) 0, t.out)) = some (0xA1, [.rsp 0x09000000]) ∧
    after (step (State.reset.withFetchWord 32 0x06020050)) (fun t => t.out.head?) =
      some (some (.hal 0x06020050 none)) ∧
    after (step (State.reset.withFetchWord 8 0x01)) (fun t => t.bus[0].rxwi) = some 1 := by decide

/-! ### Registry and configuration -/

/-- V-REG-5. -/
theorem test_register_last_wins :
    after (exec (.register 1 0)
        { State.reset.setReg 0 ⟨true, 0⟩ with
          cfg := otherConfig })
      (fun t => (t.reg[0], t.out)) = some (⟨true, 1⟩, [.rsp 0x01010000]) := by decide
/-- V-REG-3. -/
theorem test_unregister :
    after (exec (.unregister 2) (State.reset.setReg 2 ⟨true, 2⟩)) (fun t => (t.reg[2].valid, t.out)) =
      some (false, [.rsp 0x02000000]) := by decide
/-- V-CFG-7. -/
theorem test_setSpeed :
    after (exec (.setSpeed 0 .fast400k) master) (fun t => (t.drv[0].speed, t.out)) =
      some (.fast400k, [.rsp 0x03000000]) := by decide
/-- V-CFG-2. -/
theorem test_beginMaster :
    after (exec (.beginMaster 0) (cacheAddress 0 0x50 master))
      (fun t => (t.drv[0].addrv, t.drv[0].addr, t.out)) =
      some (false, 0x50,
        [.hal 0x01000000 none, .hal 0x03000000 none, .hal 0x0F000007 none, .rsp 0x04000000]) := by
  decide
/-- V-CFG-3, V-CFG-5. -/
theorem test_beginSlave :
    after (exec (.beginSlave 1 0x42) (State.reset.setTxwi 1 2))
      (fun t => (t.drv[1].role, t.drv[1].addr, t.drv[1].addrv, t.bus[1].txwi, t.out)) =
      some (.slave, 0x42, true, 2,
        [.hal 0x02010042 none, .hal 0x03010000 none, .hal 0x0F01000B none, .rsp 0x05010000]) := by
  decide
/-- V-CFG-6. -/
theorem test_onRequest :
    after (exec (.onRequest 1 true) State.reset) (fun t => (t.drv[1].onreq, t.drv[1].onrcv)) =
      some (true, false) := by decide
theorem test_onReceive :
    after (exec (.onReceive 1 true) State.reset) (fun t => (t.drv[1].onreq, t.drv[1].onrcv)) =
      some (false, true) := by decide
/-- R132 and R131: an entry taken out is not found although its driver field stays. -/
theorem test_lookup :
    after (exec (.lookup 2) (State.reset.setReg 2 ⟨true, 3⟩)) (fun t => t.found) = some (some 3) ∧
    after (exec (.lookup 2) (State.reset.setReg 2 ⟨false, 3⟩)) (fun t => t.found) = some none := by
  decide

/-! ### Master data path -/

/-- V-GUARD-1. -/
theorem test_beginTransmission_guard :
    after (exec (.beginTransmission 1 0x50) slave) (fun t => (t.fg.busy, t.out)) =
      some (false, [.rsp 0x08010000]) := by decide
/-- V-BT-4: address 0 is programmed on first use although ADDR is 0. -/
theorem test_beginTransmission_first_use :
    after (exec (.beginTransmission 0 0x00) (goto 2 master)) (fun t => (t.drv[0].addrv, t.out)) =
      some (true, [.hal 0x06000000 none, .rsp 0x08000000]) := by decide
/-- V-WR-2. -/
theorem test_write_last :
    after (exec (.write 0 0xFF) (State.reset.setTxwi 0 31))
      (fun t => (t.byteAt (.tx 0) 31, t.bus[0].txwi)) = some (0xFF, 32) := by decide
/-- V-WR-3. -/
theorem test_write_overrun :
    stopOf (exec (.write 0 0x00) (State.reset.setTxwi 0 32)) = some (.inl (.overrun (.tx 0) 32)) := by
  decide
/-- V-ET-2. -/
theorem test_endTransmission_starts :
    after (exec (.endTransmission 0 true)
        (goto 2 ((filled (.tx 0) [0x10, 0x20, 0x30] master).setTxwi 0 3)))
      (fun t => (t.drv[0].sendstop, t.bus[0].txcs, t.bus[0].txwi, t.out)) =
      some (true, 3, 2, [.hal 0x07000000 none, .hal 0x09000010 none (some .master), .rsp 0x0A000000]) := by decide
/-- V-ET-6: a busy bus keeps the command in phase 1. -/
theorem test_endTransmission_busy :
    after (exec (.endTransmission 0 true) { goto 1 master with answers := [1] })
      (fun t => (t.fg.phase, t.out)) = some (1, [.hal 0x0B000000 (some 0x0B000001)]) := by decide
/-- V-RF-1: phase 5 of a one-byte read asks for the stop. -/
theorem test_requestFrom_one_byte :
    after (exec (.requestFrom 0 0x48 1) (goto 5 master)) (fun t => (t.fg.phase, t.out)) =
      some (6, [.hal 0x08000000 none]) := by decide
/-- V-RF-6: an undrained cursor drops the message; the old length is returned. -/
theorem test_requestFrom_old_length :
    after (exec (.requestFrom 0 0x48 1)
        (goto 8 ((((filled (.rd 0) [0x11, 0x22] master).setCursor 0 0 2).setRxwi 0 1).setRxcs 0 1)))
      (fun t => (t.drv[0].rdl, t.byteAt (.rd 0) 0, t.bus[0].rxwi, t.bus[0].rxcs, t.out)) =
      some (2, 0x11, 0, 0, [.hal 0x05000000 none, .rsp 0x0B000002]) := by decide
/-- V-RD-2. -/
theorem test_read :
    after (exec (.read 0) (goto 1 ((filled (.rd 0) [0x11, 0x22, 0x33] State.reset).setCursor 0 1 3)))
      (fun t => (t.drv[0].rdi, t.drv[0].rdl, t.out)) = some (2, 3, [.rsp 0x0C000022]) := by decide
/-- V-RD-1: the last byte empties the cursor. -/
theorem test_read_last :
    after (exec (.read 0) (goto 1 ((filled (.rd 0) [0x7E] State.reset).setCursor 0 0 1)))
      (fun t => (t.drv[0].rdi, t.drv[0].rdl, t.out)) = some (0, 0, [.rsp 0x0C00007E]) := by decide

/-! ### HAL -/

theorem test_hal_call :
    after (exec (.halSendNextByte 2 0xA1) State.reset) (fun t => t.out) =
      some [.hal 0x090200A1 none none] := by decide
/-- R111: a boolean answer is bit 0 alone. -/
theorem test_hal_answer_bit :
    after (exec (.beginTransmission 0 0x50) { goto 1 master with answers := [0xFE] })
      (fun t => t.fg.phase) = some 2 := by decide
theorem test_hal_query :
    after (exec (.halReceiveNextByte 0) { State.reset with answers := [0x7E, 0x01] })
      (fun t => (t.answers, t.out)) = some ([0x01], [.hal 0x0A000000 (some 0x0A00007E)]) := by decide

/-! ### Dispatcher -/

/-- V-MISS-2. -/
theorem test_dispatch_miss :
    after (served 0 [0x01, 0x99] (State.reset.setRxcs 0 1))
      (fun t => (t.byteAt (.rx 0) 0, t.bus[0].rxwi, t.drv[0].reqdone, t.out)) =
      some (0x99, 1, false,
        [.hal 0x0D000000 (some 0x0D000001), .hal 0x0E000001 none,
         .hal 0x0A000000 (some 0x0A000099)]) := by decide
/-- V-RF-4: RECEIVE, then NAK, in one invocation. -/
theorem test_dispatch_two_conditions :
    after (served 0 [0x05, 0x11] (master.setRxcs 0 2))
      (fun t => (t.drv[0].reqdone, t.drv[0].gotnak, t.bus[0].rxwi, t.out)) =
      some (true, true, 1,
        [.hal 0x0D000000 (some 0x0D000005), .hal 0x0E000005 none,
         .hal 0x0A000000 (some 0x0A000011), .hal 0x08000000 none]) := by decide
/-- V-RF-9. -/
theorem test_evReceive_overrun :
    stopOf (served 0 [0x01, 0x00] (master.setRxwi 0 32)) = some (.inl (.overrun (.rx 0) 32)) := by
  decide
/-- V-TX-2. -/
theorem test_evTransmit_counts_down :
    after (served 0 [0x02] (((filled (.tx 0) [0x10, 0x20, 0x30] master).setTxcs 0 3).setTxwi 0 2))
      (fun t => (t.bus[0].txwi, t.out)) =
      some (1, [.hal 0x0D000000 (some 0x0D000002), .hal 0x0E000002 none,
        .hal 0x09000020 none (some .master)]) := by decide
/-- V-TX-5. -/
theorem test_evTransmit_overrun :
    stopOf (served 0 [0x02] ((master.setTxcs 0 1).setTxwi 0 2)) =
      some (.inl (.overrun (.tx 0) (-1))) := by decide
/-- V-NAK-1. -/
theorem test_evNak :
    after (served 1 [0x04] slave) (fun t => (t.drv[1].reqdone, t.drv[1].gotnak)) =
      some (true, true) := by decide
/-- V-SL-7. -/
theorem test_evStop_collision :
    after (served 1 [0x08] (((slave.setTxwi 1 2).setTxcs 1 2).setRxwi 1 1))
      (fun t => (t.bus[1], t.out)) =
      some (⟨2, 2, 0, 0⟩, [.hal 0x0D010000 (some 0x0D010008), .hal 0x0E010008 none,
        .hal 0x09010000 none (some .slave)]) := by decide
/-- V-SL-9: delivered, and no upcall in Master role. -/
theorem test_evStop_master :
    after (served 1 [0x08]
        ((filled (.rx 1) [0x0A, 0x0B] (withRole 1 .master
          (State.reset.setDrv 1 { State.reset.drv[1] with onrcv := true }))).setRxwi 1 2))
      (fun t => (t.drv[1].rdl, t.byteAt (.rd 1) 1, t.bus[1].rxwi, t.out.length)) =
      some (2, 0x0B, 0, 2) := by decide

/-! ### Slave -/

/-- V-SL-2. -/
theorem test_handleRequestSlave_stale :
    after (exec (.handleRequestSlave 1) (filled (.tx 1) [0x33] slave))
      (fun t => (t.bus[1].txcs, t.bus[1].txwi, t.out)) =
      some (0, 1, [.hal 0x09010033 none (some .slave)]) := by decide
/-- V-SL-3. -/
theorem test_handleRequestSlave_exhausted :
    after (exec (.handleRequestSlave 1) (slave.setTxwi 1 1))
      (fun t => (t.bus[1].txcs, t.bus[1].txwi, t.out)) = some (0, 0, []) := by decide
/-- V-SL-1. -/
theorem test_upOnRequest :
    after (exec (.upOnRequest 1) { slave with scripts := [[0x0901AA00, 0x0901BB00]] })
      (fun t => (t.bus[1].txwi, t.byteAt (.tx 1) 1, t.out)) =
      some (2, 0xBB, [.upcall 0xF0010000, .rsp 0x09010000, .rsp 0x09010000]) := by decide
/-- R175: READ is outside onRequest's contract. -/
theorem test_upOnRequest_refused :
    stopOf (exec (.upOnRequest 1) { slave with scripts := [[0x0C010000]] }) =
      some (.inr .callbackContract) := by decide
/-- V-SL-5, the callback. -/
theorem test_upOnReceive :
    after (exec (.upOnReceive 1 2)
        { (filled (.rd 1) [0x01, 0x02] slave).setCursor 1 0 2 with
          scripts := [[0x0C010000, 0x0C010000]] })
      (fun t => (t.drv[1].rdi, t.drv[1].rdl, t.out)) =
      some (0, 0, [.upcall 0xF1010002, .rsp 0x0C010001, .rsp 0x0C010002]) := by decide
/-- R176: WRITE is in onReceive's contract, and a message not drained stays. -/
theorem test_upOnReceive_write :
    after (exec (.upOnReceive 1 2)
        { (filled (.rd 1) [0x01, 0x02] slave).setCursor 1 0 2 with
          scripts := [[0x0901AA00, 0x0C010000]] })
      (fun t => (t.byteAt (.tx 1) 0, t.bus[1].txwi, t.drv[1].rdi, t.drv[1].rdl, t.out)) =
      some (0xAA, 1, 1, 2, [.upcall 0xF1010002, .rsp 0x09010000, .rsp 0x0C010001]) := by decide
/-- R176, R289: the (n+1)-th READ in a callback has no successor. -/
theorem test_upOnReceive_hold :
    stopOf (exec (.upOnReceive 1 1)
        { slave.setCursor 1 0 1 with scripts := [[0x0C010000, 0x0C010000]] }) =
      some (.inl (.callbackHold 1)) := by decide
/-- V-SL-6, the delivery. -/
theorem test_handleReceive :
    after (exec (.handleReceive 1) ((filled (.rx 1) [0x01, 0x02, 0x03] slave).setRxwi 1 3))
      (fun t => (t.byteAt (.rd 1) 2, t.drv[1].rdl, t.bus[1].rxwi, t.out)) =
      some (0x03, 3, 0, []) := by decide
/-- P6: the second message is dropped. -/
theorem test_handleReceive_drops :
    after (exec (.handleReceive 1)
        (((filled (.rd 1) [0x01] (filled (.rx 1) [0x0A, 0x0B] slave)).setCursor 1 0 1).setRxwi 1 2))
      (fun t => (t.byteAt (.rd 1) 0, t.drv[1].rdl, t.bus[1].rxwi)) = some (0x01, 1, 0) := by decide

/-! ### What is read off the ports -/

/-- R229, in Master role; the calls of another bus do not count. -/
theorem test_wire :
    wire Config.reference 0 [.hal 0x01000000 none, .hal 0x07000000 none,
      .hal 0x090000A1 none (some .master), .hal 0x0A000000 (some 0x0A00005A),
      .hal 0x09010033 none (some .slave), .hal 0x08000000 none] =
      [.start, .sent 0xA1, .clockedIn 0x5A, .stop] := by decide
/-- R229: in Slave role a byte counts with no start, in Master role not before one, and a second
BEGIN_MASTER in the middle of a transmission takes nothing back. -/
theorem test_wire_roles :
    wire Config.reference 1 [.hal 0x09010033 none (some .slave), .hal 0x01010000 none,
      .hal 0x09010044 none (some .master), .hal 0x07010000 none,
      .hal 0x09010055 none (some .master), .hal 0x01010000 none,
      .hal 0x09010066 none (some .master)] =
      [.sent 0x33, .start, .sent 0x55, .sent 0x66] := by decide
/-- V-SL-1: the answer of a slave whose trace holds no initSlave is on the wire. -/
theorem test_wire_slave_answer :
    after (served 1 [0x02] { slave.setDrv 1 { slave.drv[1] with onreq := true } with
        scripts := [[0x0901AA00, 0x0901BB00]] })
      (fun t => (wire t.cfg 1 t.out, t.bus[1].txcs, t.bus[1].txwi)) =
      some ([.sent 0xAA], 2, 1) := by decide
/-- A master byte sent by a later interrupt, after BEGIN_MASTER ran again in mid-send. -/
theorem test_wire_begin_master_again :
    after (andThen (exec (.endTransmission 0 true)
        (goto 2 ((filled (.tx 0) [0x10, 0x20] master).setTxwi 0 2))) fun s =>
        andThen (exec (.beginMaster 0) s) (served 0 [0x02]))
      (fun t => wire t.cfg 0 t.out) = some [.start, .sent 0x10, .sent 0x20] := by decide

/-- R214 to R217, R224: a start has the mode and the target of the calls before it; sources add up. -/
theorem test_collaborator :
    collaborator Config.reference 2 [.hal 0x06020050 none, .hal 0x05020001 none,
      .hal 0x07020000 none, .hal 0x0F020003 none, .hal 0x0F02000A none, .hal 0x04030000 none] =
      { Collaborator.unasked with
        target := some 0x50, mode := some .receive, start := some ⟨some .receive, some 0x50⟩
        sources := 0x0B } := by decide

/-! ### Witnesses: a state and operands that meet the hypotheses of each statement, clause by clause -/

theorem of_after {α : Type} {r : Result} {f : State → α} {x : α} (h : after r f = some x) :
    ∃ t, r = .next t ∧ f t = x := by
  cases r <;> simp_all [after]

/-- The reference parameters fit together. -/
theorem reference_wf : Config.reference.wf where
  buses := by decide
  drivers := by decide
  bound := by decide +kernel
  start := by decide
  delivery := by decide
  txWidth := by decide
  rdWidth := by decide
  count := by decide
  numBytes := by decide
  address := by decide

/-- A check passed by every entry of a register file holds of each. -/
theorem of_all {α : Type} {n : Nat} {v : Vector α n} {p : α → Bool} (h : v.toList.all p = true)
    (i : Fin n) : p v[i] = true :=
  List.all_eq_true.mp h _ (by simp)

/-- The same for a check that knows the entry's index. -/
theorem of_all_zipIdx {α : Type} {n : Nat} {v : Vector α n} {p : α × Nat → Bool}
    (h : v.toList.zipIdx.all p = true) (i : Fin n) : p (v[i], i.val) = true :=
  List.all_eq_true.mp h _ (by simp [List.mem_zipIdx_iff_getElem?])

/-- What is to be checked of a state with the reference parameters whose command in progress, if
there is one, is at its first phase. -/
def fits (s : State) : Bool :=
  decide (Memory.wf s.mem) && !s.disp.active && s.fg.phase == 0 &&
  (!s.fg.busy || (decodeCmd s.cfg s.fg.word).toOption.isSome) &&
  s.bus.toList.all (fun r => decide ((r.txwi < 256 ∧ r.txcs < 256 ∧ r.rxwi < 256 ∧ r.rxcs < 256) ∧
    r.rxwi ≤ 32)) &&
  s.reg.toList.zipIdx.all (fun e => !e.1.valid ||
    decide (e.1.drv.val < 4 ∧ (s.busOf e.1.drv).val = e.2)) &&
  s.drv.toList.all (fun r => decide ((r.rdi < 256 ∧ r.rdl < 256 ∧ r.addr < 256) ∧
    ((r.rdi == 0 && r.rdl == 0) = true ∨ r.rdi < r.rdl ∧ r.rdl ≤ 32)))

/-- The invariant of such a state. -/
theorem inv_of_fits {s : State} (cfg : s.cfg = Config.reference) (h : fits s = true) : s.Inv := by
  simp only [fits, Bool.and_eq_true, decide_eq_true_eq] at h
  obtain ⟨⟨⟨⟨⟨⟨mem, idle⟩, phase⟩, legal⟩, bus⟩, reg⟩, drv⟩ := h
  have idle : s.disp.active = false := by simpa using idle
  have phase : s.fg.phase = 0 := by simpa using phase
  have legal : s.fg.busy = true → (decodeCmd s.cfg s.fg.word).toOption.isSome = true := by
    intro hb; simpa [hb] using legal
  have bus := fun b : BusId => of_decide_eq_true (of_all bus b)
  have drv := fun d : DrvId => of_decide_eq_true (of_all drv d)
  have reg : ∀ b : BusId, s.reg[b].valid = true →
      s.reg[b].drv.val < 4 ∧ s.busOf s.reg[b].drv = b := fun b hv => by
    have h := of_all_zipIdx reg b
    simp only [hv, Bool.not_true, Bool.false_or, decide_eq_true_eq] at h
    exact ⟨h.1, Fin.ext h.2⟩
  exact {
    cfg := cfg ▸ reference_wf
    mem := mem
    widths := ⟨fun b => cfg ▸ (bus b).1, fun d => cfg ▸ (drv d).1⟩
    rxwi := fun b => cfg ▸ (bus b).2
    cursor := fun d => by
      rw [State.cursorOk, cfg]
      simpa [State.cursorEmpty, Config.reference] using (drv d).2
    registry := fun b => by rw [cfg]; exact reg b
    idle := idle
    sequencer := fun hb => by
      cases hi : decodeCmd s.cfg s.fg.word with
      | ok i =>
        refine ⟨i, rfl, ?_⟩
        rw [phase]
        exact Nat.pos_of_ne_zero (decodeCmd_phaseCount hi)
      | error e => have := legal hb; rw [hi] at this; cases this
    guarded := fun _ _ _ _ h => absurd phase h
    reading := fun _ _ h => by rw [phase] at h; exact absurd h (by decide) }

/-- A bus event due now. -/
def due (b : BusId) (answers : List Byte) (s : State) : State :=
  { s with irq := [⟨0, eventWord (indexByte b)⟩], answers := answers }

/-- Driver 1 a slave with both callbacks bound. -/
def boundSlave : State :=
  withRole 1 .slave (State.reset.setDrv 1 { State.reset.drv[1] with onreq := true, onrcv := true })

theorem witness_ResetMeetsTheInvariant : Config.reference.wf := reference_wf

theorem master_inv : master.Inv :=
  inv_of_fits rfl (by decide +kernel)

/-- A WRITE with the buffer full, a step before its overrun. -/
def writeFull : State := running 0x0900A100 0 (master.setTxwi 0 32)

theorem writeFull_inv : writeFull.Inv :=
  inv_of_fits rfl (by decide +kernel)

/-- A READ of the last byte in its second phase. -/
def readLast : State := running 0x0C000000 1 (master.setCursor 0 31 32)

theorem witness_DecodeEncodeRoundTrip :
    ((Instr.register 3 3).wellFormed Config.reference = true ∧
      encode (.register 3 3) = some (.cmd, 0x01030300)) ∧
    ((Instr.halSetMode 3 .receive).wellFormed Config.reference = true ∧
      encode (.halSetMode 3 .receive) = some (.hal, 0x05030001)) ∧
    encode (.dispatch 0xFF) = some (.irq, 0xE0FF0000) ∧ encode .evStop = some (.status, 0x08) ∧
    encode (.upOnReceive 3 0xFF) = some (.upcall, 0xF10300FF) := by decide

theorem witness_EncodeDecodeRoundTrip :
    decode Config.reference .cmd 0x0B0048FF = .ok (.requestFrom 0 0x48 255) ∧
    decode Config.reference .hal 0x0F03000B = .ok (.halEnableInterruptSources 3 0x0B) ∧
    decode Config.reference .irq 0xE0040000 = .ok (.dispatch 4) ∧
    decode Config.reference .upcall 0xF0030000 = .ok (.upOnRequest 3) := by decide

theorem witness_IllegalCommandsAreExactlyTheListed :
    illegalCommand Config.reference 0x00000000 ∧ illegalCommand Config.reference 0x0D000000 ∧
    illegalCommand Config.reference 0x0A000002 ∧ illegalCommand Config.reference 0x09040000 ∧
    illegalCommand Config.reference 0x02000400 ∧ illegalCommand Config.reference 0x01000100 := by
  refine ⟨by decide, by decide, by decide, by decide, by decide, ?_⟩
  exact .inr (.inr (.inr (.inr (.inr ⟨rfl, 0, rfl, by decide⟩))))

theorem witness_StepRunsTheLatchedCommand :
    writeFull.disp.active = false ∧ writeFull.dueEvent = none ∧ writeFull.fg.busy = true ∧
    decodeCmd writeFull.cfg
      (pack writeFull.fg.op writeFull.fg.drv writeFull.fg.a writeFull.fg.b) =
        .ok (.write 0 0xA1) := by decide

theorem witness_StepServesTheDueInterrupt :
    (due 3 [] master).disp.active = false ∧
    (due 3 [] master).irq = { delay := 0, word := eventWord 3 } :: [] := by decide

theorem witness_StepAcceptsALegalCommand :
    master.disp.active = false ∧ { master with cmd := [0x0C030000] }.dueEvent = none ∧
    master.fg.busy = false ∧ { master with cmd := [0x0C030000] }.cmd = 0x0C030000 :: [] ∧
    decodeCmd master.cfg 0x0C030000 = .ok (.read 3) := by decide

theorem witness_StepOnlyAnswersAnIllegalCommand :
    master.disp.active = false ∧ { master with cmd := [0xFF000000] }.dueEvent = none ∧
    master.fg.busy = false ∧ { master with cmd := [0xFF000000] }.cmd = 0xFF000000 :: [] ∧
    illegalCommand master.cfg 0xFF000000 := by
  refine ⟨by decide, by decide, by decide, by decide, by decide⟩

theorem witness_IdleBlockWaits :
    { master with irq := [⟨3, 0xE0000000⟩] }.disp.active = false ∧
    { master with irq := [⟨3, 0xE0000000⟩] }.dueEvent = none ∧ master.fg.busy = false ∧
    master.cmd = [] := by decide

theorem witness_BeginTransmissionPhases :
    (master.fg.phase = 0 ∧ master.drv[3].role ≠ .master) ∧
    (master.fg.phase = 0 ∧ master.drv[0].role = .master) ∧
    (goto 1 master).fg.phase = 1 ∧
    ((goto 2 (cacheAddress 0 0xFF master)).fg.phase = 2 ∧
      (goto 2 (cacheAddress 0 0xFF master)).drv[0].addrv = true ∧
      (goto 2 (cacheAddress 0 0xFF master)).drv[0].addr = 0xFF) ∧
    ((goto 2 master).fg.phase = 2 ∧ (goto 2 master).drv[0].addrv = false) ∧
    (goto 2 (cacheAddress 0 0x50 master)).drv[0].addr ≠ 0x51 := by decide

theorem witness_WriteAppendsAByte :
    (master.setTxwi 0 31).bus[(master.setTxwi 0 31).busOf 0].txwi <
      (master.setTxwi 0 31).cfg.txCap := by decide

theorem witness_OverrunsRaiseTheFault :
    (master.setTxwi 3 32).cfg.txCap ≤ (master.setTxwi 3 32).bus[(master.setTxwi 3 32).busOf 3].txwi ∧
    (master.disp.bus = 0 ∧ master.cfg.rxCap ≤ (master.setRxwi 0 32).bus[0].rxwi) ∧
    (master.lookup 0 = some 0 ∧ master.drv[0].role = .master ∧
      ((master.setTxwi 0 1).bus[0].txwi ≠ 0 ∧
        (master.setTxwi 0 1).bus[0].txcs < (master.setTxwi 0 1).bus[0].txwi) ∧
      (((master.setTxcs 0 33).setTxwi 0 1).bus[0].txwi ≠ 0 ∧
        master.cfg.txCap ≤
          ((master.setTxcs 0 33).setTxwi 0 1).bus[0].txcs -
            ((master.setTxcs 0 33).setTxwi 0 1).bus[0].txwi)) ∧
    (((slave.setTxcs 1 32).setTxwi 1 32).bus[slave.busOf 1].txwi ≠ 0 ∧
      ((slave.setTxcs 1 32).setTxwi 1 32).bus[slave.busOf 1].txwi ≤
        ((slave.setTxcs 1 32).setTxwi 1 32).bus[slave.busOf 1].txcs ∧
      slave.cfg.txCap ≤ ((slave.setTxcs 1 32).setTxwi 1 32).bus[slave.busOf 1].txwi) := by decide

theorem witness_EndTransmissionGuardAndHold :
    (master.fg.phase = 0 ∧ master.bus[master.busOf 0].txwi = 0) ∧
    (slave.fg.phase = 0 ∧ slave.drv[1].role ≠ .master) ∧
    (writeFull.fg.phase = 0 ∧ writeFull.drv[0].role = .master ∧
      writeFull.bus[writeFull.busOf 0].txwi ≠ 0) ∧
    (goto 1 master).fg.phase = 1 := by decide

theorem witness_EndTransmissionStarts :
    (goto 2 (master.setTxwi 0 1)).fg.phase = 2 ∧ 0 < master.cfg.txCap ∧
    (goto 2 (master.setTxwi 0 1)).bus[master.busOf 0].txwi ≠ 0 := by decide

theorem witness_StartOnEmptyBufferStillRuns :
    (goto 2 master).fg.phase = 2 ∧ 0 < (goto 2 master).cfg.txCap ∧
    (goto 2 master).bus[(goto 2 master).busOf 0].txwi = 0 := by decide

theorem witness_RequestFromFlushesFirst :
    (slave.fg.phase = 0 ∧ slave.drv[1].role ≠ .master) ∧
    (master.fg.phase = 0 ∧ master.drv[0].role = .master) ∧
    (goto 1 master).fg.phase = 1 ∧
    ((goto 2 (master.setTxwi 0 32)).fg.phase = 2 ∧ 0 < master.cfg.txCap ∧
      (goto 2 (master.setTxwi 0 32)).bus[master.busOf 0].txwi ≠ 0) ∧
    ((goto 3 (latchStop 0 false master)).fg.phase = 3 ∧
      (goto 3 (latchStop 0 false master)).drv[0].sendstop = false) ∧
    ((goto 3 master).fg.phase = 3 ∧ (goto 3 master).drv[0].sendstop = true) := by decide

theorem witness_RequestFromStartsTheReceive :
    (goto 4 master).fg.phase = 4 ∧ (goto 5 master).fg.phase = 5 ∧ (goto 6 master).fg.phase = 6 ∧
    ((goto 7 master).fg.phase = 7 ∧ (goto 7 master).drv[0].reqdone = false) ∧
    ((goto 7 (markDone 0 master)).fg.phase = 7 ∧
      (goto 7 (markDone 0 master)).drv[0].reqdone = true) := by decide

theorem witness_RequestFromReturnsZeroOnNak :
    (goto 8 (markNak 0 master)).fg.phase = 8 ∧ (goto 8 (markNak 0 master)).drv[0].gotnak = true := by
  decide

/-- With the cursor empty, and with a message in it. -/
theorem witness_RequestFromReturnsTheCursorLength :
    ∀ s ∈ [goto 8 (master.setRxwi 0 32), goto 8 ((master.setRxwi 0 32).setCursor 0 0 2)],
      s.fg.phase = 8 ∧ s.drv[0].gotnak = false ∧ s.drv[0].role = .master ∧ Memory.wf s.mem ∧
      s.bus[s.busOf 0].rxwi ≤ s.cfg.rxCap ∧ s.bus[s.busOf 0].rxwi ≤ s.cfg.rdCap := by decide

theorem witness_ReadPopsTheCursor :
    (master.fg.phase = 0 ∧ master.drv[0].rdi = 0 ∧ master.drv[0].rdl = 0) ∧
    (master.fg.phase = 0 ∧ (master.setCursor 0 0 1).drv[0].rdl ≠ 0) ∧
    (readLast.fg.phase = 1 ∧ readLast.drv[0].rdi < readLast.cfg.rdCap) := by decide

theorem witness_HalQueriesTakeOneAnswer :
    { master with answers := [0xFF] }.answers = 0xFF :: [] := rfl

/-- The last bus that exists; the start has the mode and the target asked for before it. -/
theorem witness_HalCallsReachTheirCollaborator :
    let s := { State.reset with out := [.hal 0x06030050 none, .hal 0x05030001 none] }
    (3 : BusId).val < s.cfg.numBuses ∧
    ∃ t, exec (.halIssueStart 3) s = .next t ∧
      (collaborator s.cfg 3 t.out).start = some ⟨some .receive, some 0x50⟩ :=
  ⟨by decide, of_after (f := fun t => (collaborator Config.reference 3 t.out).start) (by decide)⟩

theorem witness_DispatchRunsTheSelectedHandlers :
    (3 : BusId).val < State.reset.cfg.numBuses := by decide

theorem witness_DispatchWithoutADriverCompletes :
    State.reset.cfg.numBuses ≤ (4 : Byte).toNat ∧ (3 : BusId).val < State.reset.cfg.numBuses ∧
    (State.reset.setRxwi 3 31).reg[3].valid = false ∧
    (State.reset.setRxwi 3 31).bus[3].rxwi < State.reset.cfg.rxCap := by decide

theorem witness_DispatchInMasterRoleCompletes :
    let s := ((master.setRxwi 0 31).setTxcs 0 32).setTxwi 0 32
    (0 : BusId).val < s.cfg.numBuses ∧
    s.lookup 0 = some 0 ∧ s.busOf 0 = 0 ∧ s.drv[0].role = .master ∧ s.cfg.rxCap ≤ s.cfg.rdCap ∧
    s.bus[0].rxwi < s.cfg.rxCap ∧ s.bus[0].txwi ≤ s.bus[0].txcs ∧ s.bus[0].txcs ≤ s.cfg.txCap := by
  decide

theorem witness_ReceiveEventStoresTheByte :
    (master.setRxwi 0 31).disp.bus = 0 ∧ (master.setRxwi 0 31).bus[0].rxwi < master.cfg.rxCap := by
  decide

theorem witness_TransmitEventInMasterRole :
    (master.disp.bus = 0 ∧ master.lookup 0 = some 0 ∧ master.drv[0].role = .master) ∧
    (let s := (master.setTxcs 0 32).setTxwi 0 1;
      s.bus[0].txwi ≠ 0 ∧ s.bus[0].txwi ≤ s.bus[0].txcs ∧
        s.bus[0].txcs - s.bus[0].txwi < s.cfg.txCap) ∧
    (master.bus[0].txwi = 0 ∧ master.drv[0].sendstop = true) ∧
    (latchStop 0 false master).drv[0].sendstop = false := by decide

theorem witness_TransmitEventElsewhere :
    State.reset.disp.bus = 0 ∧ State.reset.lookup 0 = none ∧
    ((withRole 0 .unset State.reset).lookup 0 = some 0 ∧
      (withRole 0 .unset State.reset).drv[0].role = .unset) ∧
    ((withRole 0 .slave State.reset).lookup 0 = some 0 ∧
      (withRole 0 .slave State.reset).drv[0].role = .slave) := by decide

theorem witness_NakEventOnlyRecords :
    State.reset.disp.bus = 0 ∧ State.reset.lookup 0 = none ∧ master.lookup 0 = some 0 := by decide

theorem witness_StopEventFinalises :
    State.reset.lookup 0 = none ∧
    (let s := (withRole 0 .slave State.reset).setTxwi 0 1;
      s.lookup 0 = some 0 ∧ s.drv[0].role = .slave ∧ s.bus[0].txwi ≠ 0) ∧
    (let s := (withRole 0 .slave State.reset).setRxwi 0 1;
      s.lookup 0 = some 0 ∧ s.bus[0].txwi = 0 ∧ s.bus[0].rxwi ≠ 0) ∧
    (master.lookup 0 = some 0 ∧ master.drv[0].role ≠ .slave ∧ master.bus[0].rxwi = 0) := by decide

theorem witness_SlaveRequestServesTheAnswer :
    (let s := slave.setTxwi 1 1;
      s.bus[s.busOf 1].txwi ≠ 0 ∧ s.bus[s.busOf 1].txcs < s.bus[s.busOf 1].txwi) ∧
    (let s := (slave.setTxcs 1 31).setTxwi 1 31;
      s.bus[s.busOf 1].txwi ≠ 0 ∧ s.bus[s.busOf 1].txwi ≤ s.bus[s.busOf 1].txcs ∧
        s.bus[s.busOf 1].txwi < s.cfg.txCap) ∧
    (slave.bus[slave.busOf 1].txwi = 0 ∧ slave.drv[1].onreq = false ∧ 0 < slave.cfg.txCap) ∧
    (boundSlave.bus[boundSlave.busOf 1].txwi = 0 ∧ boundSlave.drv[1].onreq = true ∧
      0 < boundSlave.cfg.txCap ∧
      (after (exec (.upOnRequest 1) { boundSlave with scripts := [[]] }) fun _ => ()).isSome) := by
  decide

theorem witness_SlaveAnswerOneByteTooMany :
    let s := (slave.setTxcs 1 31).setTxwi 1 31
    s.bus[s.busOf 1].txwi = 31 ∧ s.bus[s.busOf 1].txcs = 31 ∧ (31 : Idx) ≠ 0 ∧
    31 < s.cfg.txCap := by decide

theorem witness_HandleReceiveDeliversOrDrops :
    let s := slave.setRxwi 1 32
    Memory.wf s.mem ∧ s.bus[s.busOf 1].rxwi ≤ s.cfg.rxCap ∧ s.bus[s.busOf 1].rxwi ≤ s.cfg.rdCap ∧
    s.cursorEmpty 1 = true ∧ (s.setCursor 1 0 1).cursorEmpty 1 = false := by decide

theorem witness_RequestCallbackFillsTheAnswer :
    let s := { slave.setTxwi 1 30 with scripts := [[0x0901AA00, 0x0901BB00]] }
    (1 : DrvId).val < s.cfg.numDrivers ∧ Memory.wf s.mem ∧
    s.scripts = [0xAA, 0xBB].map (fun x => pack 0x09 (indexByte 1) x 0) :: [] ∧
    s.bus[s.busOf 1].txwi + [0xAA, 0xBB].length ≤ s.cfg.txCap := by decide

/-- The drain; a WRITE between two READs of a message of three bytes; every byte read and TXBUF
filled to its end; and a callback that does nothing. -/
theorem witness_ReceiveCallbackDrainsInOrder :
    (let s := { slave.setCursor 1 0 32 with scripts := [List.replicate 32 0x0C010000] };
      (1 : DrvId).val < s.cfg.numDrivers ∧
      s.scripts = List.replicate 32 (pack 0x0C (indexByte 1) 0 0) :: [] ∧
      s.drv[1].rdi = 0 ∧ s.drv[1].rdl = 32 ∧ (32 : Idx) ≠ 0 ∧ 32 ≤ s.cfg.rdCap) ∧
    ∀ x ∈ [(3, 30, [none, some 0xAA, none], 2, [0xAA]), (1, 31, [none, some 0xBB], 1, [0xBB]),
        (32, 0, ([] : List CallbackAction), 0, ([] : List Byte))],
      let s := { (slave.setCursor 1 0 x.1).setTxwi 1 x.2.1 with
        scripts := [x.2.2.1.map (actionWord 1)] }
      x.2.2.2.1 = x.2.2.1.count none ∧ x.2.2.2.2 = x.2.2.1.filterMap id ∧
      (1 : DrvId).val < s.cfg.numDrivers ∧ Memory.wf s.mem ∧
      s.drv[1].rdi + x.2.2.2.1 ≤ s.drv[1].rdl ∧ s.drv[1].rdl ≤ s.cfg.rdCap ∧
      s.bus[s.busOf 1].txwi + x.2.2.2.2.length ≤ s.cfg.txCap := by decide

/-- After one completed command: a breach in either callback, a WRITE to a full TXBUF, a READ with the
cursor drained; and the second READ of a message of one byte. -/
theorem witness_CallbackStops :
    let s := slave.setTxwi 1 31
    let r := slave.setCursor 1 0 1
    decodeCmd slave.cfg 0x0C010000 = .ok (.read 1) ∧
    decodeCmd slave.cfg 0x0901AA00 = .ok (.write 1 0xAA) ∧
    decodeCmd slave.cfg 0x09000000 = .ok (.write 0 0) ∧
    keepsContract slave.cfg .onRequest 1 0x0C010000 = false ∧
    keepsContract slave.cfg .onReceive 1 0x09000000 = false ∧
    { s with scripts := [[0x0901AA00, 0x0C010000]] }.scripts =
      ([0x0901AA00] ++ 0x0C010000 :: []) :: [] ∧
    after (runCallback .onRequest 1 [0x0901AA00] (upcallSent (pack 0xF0 (indexByte 1) 0 0) [] s))
      (fun u => decide (s.cfg.txCap ≤ u.bus[s.busOf 1].txwi)) = some true ∧
    after (runCallback .onReceive 1 [0x0901AA00] (upcallSent (pack 0xF1 (indexByte 1) 0 1) [] s))
      (fun u => decide (s.cfg.txCap ≤ u.bus[s.busOf 1].txwi)) = some true ∧
    after (runCallback .onReceive 1 [0x0C010000] (upcallSent (pack 0xF1 (indexByte 1) 0 1) [] r))
      (fun u => u.cursorEmpty 1) = some true ∧
    ((1 : DrvId).val < r.cfg.numDrivers ∧ r.drv[1].rdi = 0 ∧ r.drv[1].rdl = 1 ∧ 1 ≤ r.cfg.rdCap ∧
      { r with scripts := [[0x0C010000, 0x0C010000]] }.scripts =
        (List.replicate (1 + 1) (pack 0x0C (indexByte 1) 0 0) ++ []) :: []) := by decide

theorem witness_StoringOperationsWriteOneByte :
    Memory.wf master.mem ∧
    (∃ t, exec (.write 0 0xFF) (master.setTxwi 0 31) = .next t ∧ t.bus[0].txwi = 32) ∧
    (∃ t, exec .evReceive { master.setRxwi 0 31 with answers := [0xFF] } = .next t ∧
      t.bus[0].rxwi = 32) :=
  ⟨by decide, of_after (f := fun t => t.bus[0].txwi) (by decide),
    of_after (f := fun t => t.bus[0].rxwi) (by decide)⟩

theorem witness_OtherOperationsLeaveTheBuffers :
    (∃ t, exec (.read 0) readLast = .next t ∧ t.drv[0].rdl = 0) ∧ storesNothing (.read 0) = true ∧
    (∃ t, exec (.requestFrom 0 0x48 1) (goto 7 (markDone 0 master)) = .next t ∧ t.fg.phase = 8) ∧
    (goto 7 (markDone 0 master)).fg.phase ≠ 8 :=
  ⟨of_after (f := fun t => t.drv[0].rdl) (by decide), by decide,
    of_after (f := fun t => t.fg.phase) (by decide), by decide⟩

theorem witness_StepKeepsTheInvariant :
    master.Inv ∧
    ∃ t, step { master with cmd := [0x0900A100] } = .next t ∧ t.fg.busy = true :=
  ⟨master_inv, of_after (f := fun t => t.fg.busy) (by decide)⟩

theorem witness_StepKeepsTransmitIndexesInRange :
    let s := running 0x0900A100 0 (master.setTxwi 0 31)
    s.txFits ∧ s.startsOnEmpty = false ∧ ∃ t, step s = .next t ∧ t.bus[0].txwi = 32 :=
  ⟨fun b => of_decide_eq_true (of_all (p := fun r : BusRegs => decide (r.txwi ≤ 32)) (by decide +kernel) b),
    by decide, of_after (f := fun t => t.bus[0].txwi) (by decide)⟩

theorem witness_StepKeepsParametersAndPortHistory :
    ∃ t, step (running 0x0900A100 0 master) = .next t ∧ t.out = [.rsp 0x09000000] :=
  of_after (f := fun t => t.out) (by decide)

theorem witness_DispatchLeavesTheForeground :
    ∃ t, exec (.dispatch 0) { running 0x0900A100 0 master with answers := [0x04] } = .next t ∧
      t.drv[0].gotnak = true :=
  of_after (f := fun t => t.drv[0].gotnak) (by decide)

theorem witness_OnlyBeginCommandsWriteRoles :
    (running 0x04030000 0 master).inProgress = some (.beginMaster 3) ∧
    (∃ t, step (running 0x04030000 0 master) = .next t ∧ t.drv[3].role = .master) ∧
    (∃ t, step (running 0x05034200 0 master) = .next t ∧ t.drv[3].role = .slave) :=
  ⟨by decide, of_after (f := fun t => t.drv[3].role) (by decide),
    of_after (f := fun t => t.drv[3].role) (by decide)⟩

theorem witness_CompletionFlagsHaveOneWriterEach :
    (∃ t, step (due 0 [0x04] master) = .next t ∧
      (t.drv[0].reqdone, t.drv[0].gotnak) = (true, true)) ∧
    (∃ t, step (running 0x0B004801 6 (markNak 0 master)) = .next t ∧
      (t.drv[0].reqdone, t.drv[0].gotnak) = (false, false)) :=
  ⟨of_after (f := fun t => (t.drv[0].reqdone, t.drv[0].gotnak)) (by decide),
    of_after (f := fun t => (t.drv[0].reqdone, t.drv[0].gotnak)) (by decide)⟩

theorem witness_OnlyReceiveEventsWriteTheRawBuffer :
    Memory.wf (due 0 [0x01, 0xFF] (master.setRxwi 0 31)).mem ∧
    (∃ t, step (due 0 [0x01, 0xFF] (master.setRxwi 0 31)) = .next t ∧
      t.byteAt (.rx 0) 31 = 0xFF) ∧
    (due 0 [0x01, 0xFF] (master.setRxwi 0 31)).byteAt (.rx 0) 31 ≠ 0xFF :=
  ⟨by decide, of_after (f := fun t => t.byteAt (.rx 0) 31) (by decide), by decide⟩

/-- A request event due for a slave with an onRequest callback that does nothing. -/
def requestDue : State := { due 1 [0x02] boundSlave with scripts := [[]] }

theorem requestDue_inv : requestDue.Inv :=
  inv_of_fits rfl (by decide +kernel)

theorem witness_CallbacksFireOnlyInSlaveRole :
    requestDue.Inv ∧
    ∃ t, step requestDue = .next t ∧
      t.out = requestDue.out ++ [.hal 0x0D010000 (some 0x0D010002), .hal 0x0E010002 none,
        .upcall 0xF0010000, .hal 0x09010000 none (some .slave)] :=
  ⟨requestDue_inv, of_after (f := fun t => t.out) (by decide)⟩

theorem witness_DisableModuleIsNeverEmitted :
    (3 : BusId).val < Config.reference.numBuses ∧
    ∃ t, step (running 0x04000000 0 master) = .next t ∧
      t.out = [] ++ [.hal 0x01000000 none, .hal 0x03000000 none, .hal 0x0F000007 none,
        .rsp 0x04000000] :=
  ⟨by decide, of_after (f := fun t => t.out) (by decide)⟩

theorem witness_HalWordsCarryTheirBus :
    (requestDue.Inv ∧ requestDue.dueEvent = some (eventWord (indexByte 1)) ∧
      ∃ t, step requestDue = .next t ∧ (.hal 0x0E010002 none) ∈ t.out) ∧
    ((running 0x04000000 0 master).Inv ∧ (running 0x04000000 0 master).dueEvent = none ∧
      ∃ t, step (running 0x04000000 0 master) = .next t ∧ (.hal 0x03000000 none) ∈ t.out) := by
  refine ⟨⟨requestDue_inv, by decide, ?_⟩, ⟨inv_of_fits rfl (by decide +kernel), by decide, ?_⟩⟩
  · obtain ⟨t, h, ho⟩ := of_after (r := step requestDue)
      (f := fun t => decide ((PortEvent.hal 0x0E010002 none) ∈ t.out)) (x := true) (by decide)
    exact ⟨t, h, of_decide_eq_true ho⟩
  · obtain ⟨t, h, ho⟩ := of_after (r := step (running 0x04000000 0 master))
      (f := fun t => decide ((PortEvent.hal 0x03000000 none) ∈ t.out)) (x := true) (by decide)
    exact ⟨t, h, of_decide_eq_true ho⟩

/-- A stopped result, by what it stopped with. -/
theorem of_stopOf {r : Result} {e : Fault ⊕ Refusal} (h : stopOf r = some e) :
    (∃ f, e = .inl f ∧ r = .fault f) ∨ ∃ f, e = .inr f ∧ r = .refused f := by
  cases r <;> simp_all [stopOf]

theorem witness_FaultsAriseOnlyWhereListed :
    (writeFull.Inv ∧ stopOf (step writeFull) = some (.inl (.overrun (.tx 0) 32)) ∧
      writeFull.inProgress = some (.write 0 0xA1)) ∧
    ((due 0 [0x01, 0x00] (master.setRxwi 0 32)).Inv ∧
      stopOf (step (due 0 [0x01, 0x00] (master.setRxwi 0 32))) =
        some (.inl (.overrun (.rx 0) 32))) ∧
    ({ due 1 [0x08] (boundSlave.setRxwi 1 1) with scripts := [[0x0C010000, 0x0C010000]] }.Inv ∧
      stopOf (step { due 1 [0x08] (boundSlave.setRxwi 1 1) with
        scripts := [[0x0C010000, 0x0C010000]] }) = some (.inl (.callbackHold 1))) :=
  ⟨⟨writeFull_inv, by decide, by decide⟩,
    ⟨inv_of_fits rfl (by decide +kernel), by decide⟩,
    ⟨inv_of_fits rfl (by decide +kernel), by decide⟩⟩

theorem witness_OnlyCallbacksAreRefused :
    { requestDue with scripts := [[0x0C010000]] }.Inv ∧
    stopOf (step { requestDue with scripts := [[0x0C010000]] }) = some (.inr .callbackContract) :=
  ⟨inv_of_fits rfl (by decide +kernel), by decide⟩

theorem witness_ForegroundCommandsIgnoreTheRegistry :
    phaseCount (.read 0) ≠ 0 ∧ (∀ d b, Instr.read 0 ≠ .register d b) ∧
    ∀ b, Instr.read 0 ≠ .unregister b := by simp [phaseCount]

/-- One byte, and as many as the buffer holds. -/
theorem witness_MasterTransmissionSendsTheBytesInOrder :
    ∀ n ∈ [1, 32],
      let s := { goto 2 (master.setTxwi 0 n) with
        answers := List.replicate n 0x02 }
      (0 : BusId).val < s.cfg.numBuses ∧
      s.busOf 0 = 0 ∧ s.lookup 0 = some 0 ∧ s.drv[0].role = .master ∧ s.fg.phase = 2 ∧
      s.bus[0].txwi = n ∧ 1 ≤ n ∧ n ≤ s.cfg.txCap ∧
      s.answers = List.replicate n 0x02 := by decide

end Sys2Proof.Tests
end

/-! SUPPORT. The statements of spec/00_scope.md: the invariant holds after reset, and a step changes no
parameter and takes nothing back from a port. -/

namespace Sys2Proof.Machine

/-! ### The state after reset (10_state R50) -/

@[simp] theorem reset_bus_get {i : Nat} (h : i < 256) : State.reset.bus[i] = ⟨0, 0, 0, 0⟩ := by
  simp [State.reset]

@[simp] theorem reset_reg_get {i : Nat} (h : i < 256) : State.reset.reg[i] = ⟨false, 0⟩ := by
  simp [State.reset]

@[simp] theorem reset_drv_get {i : Nat} (h : i < 256) :
    State.reset.drv[i] =
      { rdi := 0, rdl := 0, reqdone := false, gotnak := false, sendstop := true, role := .unset
        addr := 0, addrv := false, speed := .standard100k, onreq := false, onrcv := false } := by
  simp [State.reset]

/-- R40: a command is in progress only in a busy sequencer, and is the one its word names. -/
theorem inProgress_eq_some {s : State} {i : Instr} :
    s.inProgress = some i ↔ s.fg.busy = true ∧ decodeCmd s.cfg s.fg.word = .ok i := by
  unfold State.inProgress
  cases s.fg.busy <;> cases decodeCmd s.cfg s.fg.word <;> simp [Except.toOption]

/-- With every register at zero and no command in progress, only the parameters have a condition to
meet. -/
theorem reset_inv {p : Params} (h : p.wf) : State.Inv { State.reset with cfg := p } where
  cfg := h
  mem := reset_memory_wf
  widths := ⟨fun b => by simp, fun d => by simp⟩
  rxwi b := by simp
  cursor d := .inl (by simp [State.cursorEmpty])
  registry b hv := by simp at hv
  idle := rfl
  sequencer hb := nomatch hb
  guarded _ _ hi := nomatch (inProgress_eq_some.mp hi).1
  reading _ hi := nomatch (inProgress_eq_some.mp hi).1

/-! ### What every step keeps (00_scope R9, 60_exceptions R253) -/

/-- The parameters are the same, and the ports hold what they held, with more after it. -/
structure Extends (s t : State) : Prop where
  cfg : t.cfg = s.cfg
  out : ∃ new, t.out = s.out ++ new

/-- An update that touches neither the parameters nor the ports. -/
theorem Extends.of_eq {s t : State} (cfg : t.cfg = s.cfg) (out : t.out = s.out) : Extends s t :=
  ⟨cfg, [], by simp [out]⟩

theorem Extends.refl (s : State) : Extends s s := .of_eq rfl rfl

theorem Extends.trans {s t u : State} (h : Extends s t) (k : Extends t u) : Extends s u := by
  obtain ⟨hc, x, hx⟩ := h
  obtain ⟨kc, y, ky⟩ := k
  exact ⟨kc.trans hc, x ++ y, by rw [ky, hx, List.append_assoc]⟩

/-- The dispatcher side keeps them. -/
theorem Kept.extends {s t : State} (h : Kept s t) : Extends s t := ⟨h.cfg, h.out⟩

/-- An operation that always answers the one state. -/
theorem Extends.of_next {s t u : State} (h : Extends s u)
    (hu : (.next u : Result) = .next t) : Extends s t := by
  cases hu; exact h

/-- A choice between two states. -/
theorem Extends.ite {c : Prop} [Decidable c] {s t u : State} (ht : Extends s t)
    (hu : Extends s u) : Extends s (if c then t else u) := by
  split
  · exact ht
  · exact hu

/-! #### The single updates -/

theorem Extends.reg (s : State) (b : BusId) (r : RegEntry) : Extends s (s.setReg b r) :=
  .of_eq rfl rfl

theorem Extends.bus (s : State) (b : BusId) (r : BusRegs) : Extends s (s.setBus b r) :=
  .of_eq rfl rfl

theorem Extends.drv (s : State) (d : DrvId) (r : DrvRegs) : Extends s (s.setDrv d r) :=
  .of_eq rfl rfl

theorem Extends.fg (s : State) (f : Foreground) : Extends s (s.setFg f) := .of_eq rfl rfl

theorem Extends.disp (s : State) (x : Dispatcher) : Extends s (s.setDisp x) := .of_eq rfl rfl

theorem Extends.tick (s : State) : Extends s (tick s) := .of_eq (tick_cfg s) (tick_out s)

theorem Extends.emit (s : State) (e : PortEvent) : Extends s (s.emit e) := ⟨rfl, [e], rfl⟩

theorem Extends.halQuery (hop : Byte) (b : BusId) (s : State) : Extends s (halQuery hop b s) :=
  (Kept.halQuery hop b s).extends

theorem Extends.decrementTx (b : BusId) (s : State) : Extends s (decrementTx b s) := by
  rcases decrementTx_cases b s with ⟨_, h⟩ | ⟨_, h⟩ <;> rw [h] <;> exact .of_eq rfl rfl

/-! #### The commands of the foreground -/

/-- The end of a command: the sequencer is released and the response goes out (R42). -/
theorem finish_extends {op drv v : Byte} {s u t : State} (hu : Extends s u)
    (h : finish op drv v u = .next t) : Extends s t :=
  (hu.trans ((Extends.fg ..).trans (.emit ..))).of_next h

/-- A guard that goes to a phase, or completes the command at once (R143). -/
theorem guard_extends {c : Prop} [Decidable c] {op drv v : Byte} {phase : BitVec 4} {s t : State}
    (h : (if c then .next (goto phase s) else finish op drv v s) = .next t) : Extends s t := by
  split at h
  · exact (Extends.fg ..).of_next h
  · exact finish_extends (.refl s) h

theorem holdQuery_extends {query : State → State} {next : BitVec 4} {s t : State}
    (hq : Extends s (query s)) (h : holdQuery query next s = .next t) : Extends s t :=
  (Extends.ite hq (hq.trans (.fg ..))).of_next h

theorem execWrite_extends {d : DrvId} {x : Byte} {s t : State} (h : execWrite d x s = .next t) :
    Extends s t := by
  obtain ⟨u, hu, h⟩ := andThen_next.mp h
  exact finish_extends (appendTx_kept hu).extends h

theorem execBeginTransmission_extends {d : DrvId} {addr : Byte} {s t : State}
    (h : execBeginTransmission d addr s = .next t) : Extends s t := by
  unfold execBeginTransmission at h
  split at h
  · exact guard_extends h
  · exact holdQuery_extends (.halQuery ..) h
  · exact finish_extends (.ite ((Extends.emit ..).trans (.drv ..)) (.refl s)) h
  · cases h

/-- The latched stop, the two index registers, the start, then the first byte (R146, R148). -/
theorem startTransmission_extends {d : DrvId} {stop : Bool} {s t : State}
    (h : startTransmission d stop s = .next t) : Extends s t := by
  unfold startTransmission at h
  obtain ⟨_, h⟩ := loadByte_next.mp h
  have index : Extends s (decrementTx (s.busOf d)
      ((latchStop d stop s).setTxcs (s.busOf d) (latchStop d stop s).bus[s.busOf d].txwi)) :=
    (Extends.drv ..).trans ((Extends.bus ..).trans (.decrementTx ..))
  exact (index.trans ((Extends.emit ..).trans (.emit ..))).of_next h

theorem execEndTransmission_extends {d : DrvId} {stop : Bool} {s t : State}
    (h : execEndTransmission d stop s = .next t) : Extends s t := by
  unfold execEndTransmission at h
  split at h
  · exact guard_extends h
  · exact holdQuery_extends (.halQuery ..) h
  · obtain ⟨u, hu, h⟩ := andThen_next.mp h
    exact finish_extends (startTransmission_extends hu) h
  · cases h

theorem startReceive_extends (d : DrvId) (addr n : Byte) (s : State) :
    Extends s (startReceive d addr n s) :=
  (Extends.bus ..).trans <| (Extends.bus ..).trans <| (Extends.emit ..).trans <|
    (Extends.drv ..).trans <| (Extends.emit ..).trans (.emit ..)

theorem collectReceived_extends {d : DrvId} {s t : State} (h : collectReceived d s = .next t) :
    Extends s t := by
  obtain ⟨u, hu, h⟩ := andThen_next.mp h
  refine (Extends.trans ?_ (.bus ..)).of_next h
  split at hu
  · exact (Extends.refl s).of_next hu
  · exact (handleReceive_kept hu).extends

theorem finishReceive_extends {d : DrvId} {s t : State} (h : finishReceive d s = .next t) :
    Extends s t := by
  unfold finishReceive at h
  dsimp only at h
  split at h
  · exact finish_extends ((Extends.emit ..).trans ((Extends.bus ..).trans
      ((Extends.bus ..).trans (.drv ..)))) h
  · obtain ⟨u, hu, h⟩ := andThen_next.mp h
    exact finish_extends ((Extends.emit ..).trans ((collectReceived_extends hu).trans (.drv ..))) h

theorem execRequestFrom_extends {d : DrvId} {addr n : Byte} {s t : State}
    (h : execRequestFrom d addr n s = .next t) : Extends s t := by
  unfold execRequestFrom at h
  split at h
  · exact guard_extends h
  · exact holdQuery_extends (.halQuery ..) h
  · obtain ⟨u, hu, h⟩ := andThen_next.mp h
    exact ((startTransmission_extends hu).trans (.fg ..)).of_next h
  · exact (Extends.ite (.fg ..) (.refl s)).of_next h
  · exact ((startReceive_extends ..).trans (.fg ..)).of_next h
  · exact ((Extends.ite (.emit ..) (.refl s)).trans (.fg ..)).of_next h
  · exact ((Extends.drv ..).trans (.fg ..)).of_next h
  · exact (Extends.ite (.fg ..) (.refl s)).of_next h
  · exact finishReceive_extends h
  · cases h

theorem execRead_extends {d : DrvId} {s t : State} (h : execRead d s = .next t) :
    Extends s t := by
  unfold execRead at h
  split at h
  · exact (Extends.ite (.refl s) (.fg ..)).of_next h
  · obtain ⟨_, h⟩ := popRead_next.mp h
    exact finish_extends (popCursor_kept d s).extends h
  · cases h

/-! #### The dispatcher, every operation, and the step -/

theorem execDispatch_extends {bus : Byte} {s t : State} (h : execDispatch bus s = .next t) :
    Extends s t := by
  rcases dispatch_next h with ⟨_, rfl⟩ | ⟨b, _, _, u, hu, rfl⟩
  · exact .refl t
  · have begun : Extends s (beginDispatch b s) :=
      (Extends.disp ..).trans ((Extends.halQuery ..).trans ((Extends.disp ..).trans (.emit ..)))
    exact begun.trans ((handleConditions_kept hu).extends.trans (.disp ..))

theorem exec_extends {i : Instr} {s t : State} (h : exec i s = .next t) : Extends s t := by
  cases i with
  | register | unregister => exact finish_extends (.reg ..) h
  | setSpeed | onRequest | onReceive => exact finish_extends (.drv ..) h
  | beginMaster =>
    exact finish_extends ((Extends.drv ..).trans ((Extends.emit ..).trans
      ((Extends.emit ..).trans (.emit ..)))) h
  | beginSlave =>
    exact finish_extends ((Extends.drv ..).trans ((Extends.drv ..).trans
      ((Extends.emit ..).trans ((Extends.emit ..).trans (.emit ..))))) h
  | beginTransmission => exact execBeginTransmission_extends h
  | write => exact execWrite_extends h
  | endTransmission => exact execEndTransmission_extends h
  | requestFrom => exact execRequestFrom_extends h
  | read => exact execRead_extends h
  | halInitMaster | halInitSlave | halEnableModule | halDisableModule | halSetMode
  | halSetTargetAddress | halIssueStart | halIssueStop | halSendNextByte
  | halClearInterruptStatus | halEnableInterruptSources => exact (Extends.emit ..).of_next h
  | halReceiveNextByte | halIsBusBusy | halIsStopPending | halGetInterruptStatus =>
    exact (Extends.halQuery ..).of_next h
  | dispatch => exact execDispatch_extends h
  | evReceive => exact (evReceive_kept h).extends
  | evTransmit => exact (evTransmit_kept h).extends
  | evNak => exact (evNak_kept h).extends
  | evStop => exact (evStop_kept h).extends
  | upOnRequest => exact (upOnRequest_kept h).extends
  | upOnReceive => exact (upOnReceive_kept h).extends
  | lookup => exact (Kept.found ..).extends.of_next h
  | handleRequestSlave => exact (handleRequestSlave_kept h).extends
  | handleReceive => exact (handleReceive_kept h).extends

theorem acceptCommand_extends (w : Word) (s : State) : Extends s (acceptCommand w s) := by
  unfold acceptCommand
  split
  · exact .fg ..
  · exact .emit ..

theorem step_extends {s t : State} (h : step s = .next t) : Extends s t := by
  have arrived (rest : List Arrival) : Extends s { s with irq := rest } := .of_eq rfl rfl
  rcases step_cases s (step_next_idle h) with ⟨_, rest, _, _, hs⟩ | ⟨_, rest, _, _, hs⟩ |
      ⟨_, ⟨_, _, _, _, hs⟩ | ⟨_, _, _, hs⟩ | ⟨w, rest, _, _, hs⟩ | ⟨_, _, hs⟩⟩ <;>
    rw [hs] at h
  · exact (arrived rest).trans (exec_extends h)
  · exact (arrived rest).of_next h
  · exact (Extends.tick s).trans (exec_extends h)
  · exact ((Extends.tick s).trans ((Extends.fg ..).trans (.emit ..))).of_next h
  · have taken : Extends s { tick s with cmd := rest } := .of_eq (tick_cfg s) (tick_out s)
    exact (taken.trans (acceptCommand_extends ..)).of_next h
  · exact (Extends.tick s).of_next h

/-! ### The obligations -/

/-- Settles O12: the reference configuration is one that meets `Params.wf`. -/
theorem resetMeetsTheInvariant : Obligations.ResetMeetsTheInvariant :=
  ⟨reset_inv Tests.reference_wf, fun _ => reset_inv⟩

/-- Settles O49, by the cases of a step and, for an operation run, of `exec`. -/
theorem stepKeepsParametersAndPortHistory : Obligations.StepKeepsParametersAndPortHistory := by
  intro s t h
  obtain ⟨cfg, out⟩ := step_extends h
  exact ⟨cfg, out⟩

end Sys2Proof.Machine

/-! SUPPORT. What the rules write in the registers of buses and drivers, said once: every handler
and every command of the foreground is a sequence of the updates below. The statements of
spec/10_state.md about registers follow from it. -/

namespace Sys2Proof.Machine

/-! ### The updates (10_state R22 to R38) -/

/-- What one rule can do to the index registers of a bus. `free` says whether the free value of log
entry 7 can be taken. -/
inductive BusMove (free : Prop) (p : Params) (r : BusRegs) : BusRegs → Prop
  | appendTx (h : r.txwi < p.txCap) : BusMove free p r { r with txwi := r.txwi + 1 }
  | appendRx (h : r.rxwi < p.rxCap) : BusMove free p r { r with rxwi := r.rxwi + 1 }
  | countDown : BusMove free p r { r with txwi := r.txwi - 1 }
  | draw (h : free) (n : Nat) : BusMove free p r { r with txwi := n % 2 ^ p.idxw }
  | commitTx : BusMove free p r { r with txcs := r.txwi }
  | request (n : Byte) : BusMove free p r { r with rxcs := n.toNat }
  | resetTxwi : BusMove free p r { r with txwi := 0 }
  | resetTxcs : BusMove free p r { r with txcs := 0 }
  | resetRxwi : BusMove free p r { r with rxwi := 0 }
  | resetRxcs : BusMove free p r { r with rxcs := 0 }

/-- What a delivery and a READ do to the cursor of a driver (R30, R149, R174). -/
inductive CursorWrite (p : Params) (r : DrvRegs) : DrvRegs → Prop
  | load {n : Idx} (h : n ≤ p.rdCap) : CursorWrite p r { r with rdi := 0, rdl := n }
  | drain : CursorWrite p r { r with rdi := 0, rdl := 0 }
  | advance (h : ¬(r.rdi = 0 ∧ r.rdl = 0)) (hl : r.rdi + 1 ≠ r.rdl) :
      CursorWrite p r { r with rdi := r.rdi + 1 }

/-- What an interrupt does to the flags of a driver (R31 to R33). -/
inductive FlagWrite (r : DrvRegs) : DrvRegs → Prop
  | done : FlagWrite r { r with reqdone := true }
  | nak : FlagWrite r { r with reqdone := true, gotnak := true }
  | stop : FlagWrite r { r with sendstop := true }

/-- Which updates of a driver's registers are allowed. -/
abbrev DrvRule := Params → DrvId → DrvRegs → DrvRegs → Prop

/-- Both kinds of update of the dispatcher side. -/
def handlerRule : DrvRule := fun p _ r r' => CursorWrite p r r' ∨ FlagWrite r r'

/-- Only flags. -/
def flagRule : DrvRule := fun _ _ r r' => FlagWrite r r'

/-- Only the cursor of driver `d`, and only where `c` holds. -/
def cursorRule (c : Prop) (d : DrvId) : DrvRule := fun p e r r' =>
  c ∧ e = d ∧ CursorWrite p r r'

/-- No update of a driver's registers. -/
def noRule : DrvRule := fun _ _ _ _ => False

/-- `t` comes from `s` by updates of index registers and, of driver registers, those `A` allows. -/
inductive Writes (free : Prop) (A : DrvRule) : State → State → Prop
  | same {s t : State} (h : Kept s t) (hb : t.bus = s.bus) (hd : t.drv = s.drv) : Writes free A s t
  | bus {s : State} (b : BusId) {r : BusRegs} (h : BusMove free s.cfg s.bus[b] r) :
      Writes free A s (s.setBus b r)
  | drv {s : State} (d : DrvId) {r : DrvRegs} (h : A s.cfg d s.drv[d] r) :
      Writes free A s (s.setDrv d r)
  | trans {s t u : State} (h : Writes free A s t) (k : Writes free A t u) : Writes free A s u

variable {free : Prop} {A B : DrvRule}

theorem Writes.refl (s : State) : Writes free A s s := .same (Kept.refl s) rfl rfl

theorem Writes.mono (hAB : ∀ p d r r', A p d r r' → B p d r r') {s t : State}
    (h : Writes free A s t) : Writes free B s t := by
  induction h with
  | same h hb hd => exact .same h hb hd
  | bus b h => exact .bus b h
  | drv d h => exact .drv d (hAB _ _ _ _ h)
  | trans _ _ ih ik => exact ih.trans ik

/-! ### What such a sequence keeps -/

/-- What no update of a bus or driver register touches. -/
structure Frame (s t : State) : Prop where
  cfg : t.cfg = s.cfg
  reg : t.reg = s.reg
  fg : t.fg = s.fg
  disp : t.disp = s.disp
  wf : Memory.wf s.mem → Memory.wf t.mem

theorem Writes.frame {s t : State} (h : Writes free A s t) : Frame s t := by
  induction h with
  | same h => exact ⟨h.cfg, h.reg, h.fg, h.disp, h.wf⟩
  | bus | drv => exact ⟨rfl, rfl, rfl, rfl, id⟩
  | trans _ _ h k =>
    exact ⟨k.cfg.trans h.cfg, k.reg.trans h.reg, k.fg.trans h.fg, k.disp.trans h.disp,
      k.wf ∘ h.wf⟩

/-- A property that every update of index registers keeps holds of every bus after the sequence. -/
theorem Writes.bus_keeps {P : BusRegs → Prop} {s t : State} (h : Writes free A s t)
    (hP : ∀ r r', BusMove free s.cfg r r' → P r → P r') (hs : ∀ b : BusId, P s.bus[b]) :
    ∀ b : BusId, P t.bus[b] := by
  induction h with
  | same _ hb => rwa [hb]
  | bus b h =>
    intro b'
    rw [State.setBus_bus, vector_get_set]
    split
    · exact hP _ _ h (hs b)
    · exact hs b'
  | drv => exact hs
  | trans h _ ih ik => exact ik (h.frame.cfg ▸ hP) (ih hP hs)

/-- A property that every allowed update of driver `e` keeps holds of it after the sequence. -/
theorem Writes.drv_keeps {P : DrvRegs → Prop} {e : DrvId} {s t : State} (h : Writes free A s t)
    (hP : ∀ r r', A s.cfg e r r' → P r → P r') (hs : P s.drv[e]) : P t.drv[e] := by
  induction h with
  | same _ _ hd => rwa [hd]
  | bus => exact hs
  | drv d h =>
    rw [State.setDrv_drv, vector_get_set]
    split
    · subst d; exact hP _ _ h hs
    · exact hs
  | trans h _ ih ik => exact ik (h.frame.cfg ▸ hP) (ih hP hs)

/-! ### The single operations -/

theorem Writes.emit (s : State) (e : PortEvent) : Writes free A s (s.emit e) :=
  .same (Kept.emit s e) rfl rfl

theorem Writes.found (s : State) (x : Option DrvId) : Writes free A s (s.setFound x) :=
  .same (Kept.found s x) rfl rfl

theorem Writes.takeScript (s : State) : Writes free A s s.takeScript :=
  .same (Kept.takeScript s) (by simp) (by simp)

theorem Writes.halQuery (hop : Byte) (b : BusId) (s : State) :
    Writes free A s (halQuery hop b s) :=
  .same (Kept.halQuery hop b s) (State.takeAnswer_bus s) (State.takeAnswer_drv s)

theorem Writes.ite {c : Prop} [Decidable c] {s t u : State} (ht : Writes free A s t)
    (hu : Writes free A s u) : Writes free A s (if c then t else u) := by
  split
  · exact ht
  · exact hu

theorem appendTx_writes {b : BusId} {v : Byte} {s t : State} (h : appendTx b v s = .next t) :
    Writes free A s t := by
  obtain ⟨u, hu, h⟩ := andThen_next.mp h
  obtain ⟨hi, hm⟩ := storeByte_next.mp hu
  subst hm
  cases h
  exact (Writes.same (storeByte_kept hu) rfl rfl).trans (.bus b (.appendTx hi))

theorem appendRx_writes {b : BusId} {v : Byte} {s t : State} (h : appendRx b v s = .next t) :
    Writes free A s t := by
  obtain ⟨u, hu, h⟩ := andThen_next.mp h
  obtain ⟨hi, hm⟩ := storeByte_next.mp hu
  subst hm
  cases h
  exact (Writes.same (storeByte_kept hu) rfl rfl).trans (.bus b (.appendRx hi))

/-! ### The slave operations -/

theorem cursorEmpty_eq_false {s : State} {d : DrvId} :
    s.cursorEmpty d = false ↔ ¬(s.drv[d].rdi = 0 ∧ s.drv[d].rdl = 0) := by
  simp [State.cursorEmpty]

theorem popCursor_writes {d : DrvId} {s : State} (h : s.cursorEmpty d = false) :
    Writes free (cursorRule True d) s (s.popCursor d) := by
  unfold State.popCursor
  split
  · exact .drv d ⟨trivial, rfl, .drain⟩
  · exact .drv d ⟨trivial, rfl, .advance (cursorEmpty_eq_false.mp h) ‹_›⟩

/-- R175, R176: only the callback onReceive reads, and only its own driver's cursor. -/
theorem callbackCommand_writes {u : Upcall} {d : DrvId} {w : Word} {s t : State}
    (h : callbackCommand u d w s = .next t) :
    Writes free (cursorRule (u = .onReceive) d) s t := by
  rcases callbackCommand_next h with ⟨x, h⟩ | ⟨hu, h⟩ | rfl
  · obtain ⟨v, hv, rfl⟩ := callbackWrite_next.mp h
    exact (appendTx_writes hv).trans (.emit ..)
  · obtain ⟨he, _, rfl⟩ := callbackRead_next.mp h
    exact ((popCursor_writes he).mono fun _ _ _ _ hr => ⟨hu, hr.2⟩).trans (.emit ..)
  · exact .emit ..

theorem runCallback_writes {u : Upcall} {d : DrvId} {ws : List Word} {s t : State}
    (h : runCallback u d ws s = .next t) :
    Writes free (cursorRule (u = .onReceive) d) s t :=
  runCallback_induct _ Writes.refl (fun _ _ _ => Writes.trans)
    (fun _ _ _ => callbackCommand_writes) h

theorem upOnRequest_writes {d : DrvId} {s t : State} (h : execUpOnRequest d s = .next t) :
    Writes free noRule s t :=
  ((Writes.takeScript s).trans (.emit ..)).trans
    ((runCallback_writes h).mono fun _ _ _ _ hr => nomatch hr.1)

theorem upOnReceive_writes {d : DrvId} {n : Byte} {s t : State}
    (h : execUpOnReceive d n s = .next t) : Writes free (cursorRule True d) s t :=
  ((Writes.takeScript s).trans (.emit ..)).trans
    ((runCallback_writes h).mono fun _ _ _ _ hr => ⟨trivial, hr.2⟩)

/-- TXCS takes TXWI, and TXWI goes to 0 (R173). -/
theorem commitAnswer_writes (b : BusId) (s : State) :
    Writes free A s ((s.setTxcs b s.bus[b].txwi).setTxwi b 0) :=
  (Writes.bus b .commitTx).trans (.bus b .resetTxwi)

theorem handleRequestSlave_writes {d : DrvId} {s t : State}
    (h : execHandleRequestSlave d s = .next t) : Writes free noRule s t := by
  obtain ⟨u, hu, h⟩ := andThen_next.mp h
  refine Writes.trans (t := u) ?_ ?_
  · rcases refillAnswer_next hu with ⟨_, rfl⟩ | ⟨_, v, ⟨_, hv⟩ | ⟨_, rfl⟩, rfl⟩
    · exact .refl _
    · exact (upOnRequest_writes hv).trans (commitAnswer_writes ..)
    · exact commitAnswer_writes ..
  · rcases serveAnswer_next h with ⟨_, rfl⟩ | ⟨_, hi, rfl⟩
    · exact (Writes.bus _ .resetTxwi).trans (.bus _ .resetTxcs)
    · exact (Writes.bus _ (.appendTx hi)).trans (.emit ..)

/-- A delivery fits the read buffer: the block copy went through (R83, R174). -/
theorem deliver_writes {d : DrvId} {s t : State} (h : deliver d s = .next t) :
    Writes free (cursorRule True d) s t := by
  obtain ⟨m, hm, rfl⟩ := deliver_next h
  have fits : s.bus[s.busOf d].rxwi ≤ s.cfg.rdCap := by
    by_cases h0 : s.bus[s.busOf d].rxwi = 0
    · exact h0 ▸ Nat.zero_le _
    · simpa [Buf.cap] using ((blockCopy_mem hm).2 h0).2
  exact (Writes.same (blockCopy_kept hm) rfl rfl).trans
    ((Writes.drv d ⟨trivial, rfl, .load fits⟩).trans (.bus _ .resetRxwi))

theorem handleReceive_writes {d : DrvId} {s t : State} (h : execHandleReceive d s = .next t) :
    Writes free (cursorRule True d) s t := by
  rcases handleReceive_next h with ⟨_, rfl⟩ | ⟨_, u, hu, ⟨_, h⟩ | ⟨_, rfl⟩⟩
  · exact .bus _ .resetRxwi
  · exact (deliver_writes hu).trans (upOnReceive_writes h)
  · exact deliver_writes hu

/-- A message that is not drained is not touched (R174, R30). -/
theorem handleReceive_cursor {d e : DrvId} {s t : State} (h : execHandleReceive d s = .next t)
    (he : s.cursorEmpty e = false) : t.cursorEmpty e = false := by
  by_cases hde : e = d
  · subst hde
    rcases handleReceive_next h with ⟨_, rfl⟩ | ⟨hd, _⟩
    · exact he
    · rw [he] at hd; cases hd
  · exact cursorEmpty_eq_false.mpr <| (handleReceive_writes (free := False) h).drv_keeps
      (P := fun r => ¬(r.rdi = 0 ∧ r.rdl = 0)) (fun _ _ hr => absurd hr.2.1 hde)
      (cursorEmpty_eq_false.mp he)

/-! ### The condition handlers -/

theorem evReceive_writes {s t : State} (h : execEvReceive s = .next t) :
    Writes free flagRule s t := by
  obtain ⟨u, v, hu, hv, ht⟩ := evReceive_next h
  refine ((Writes.halQuery ..).trans (appendRx_writes hu)).trans (Writes.trans (t := v) ?_ ?_)
  · rcases hv with rfl | rfl
    · exact .refl _
    · exact .emit ..
  · rcases ht with rfl | rfl | ⟨d, _, rfl⟩
    · exact .refl _
    · exact .found ..
    · exact (Writes.found ..).trans (.drv d .done)

theorem transmitMaster_writes {b : BusId} {d : DrvId} {s t : State}
    (h : transmitMaster b d s = .next t) : Writes free flagRule s t := by
  rcases transmitMaster_next h with ⟨_, rfl⟩ | ⟨_, _, rfl⟩
  · unfold exhaustTx
    split
    · exact (Writes.emit ..).trans (.bus b .resetTxcs)
    · exact (Writes.drv d .stop).trans (.bus b .resetTxcs)
  · exact (Writes.emit ..).trans (.bus b .countDown)

theorem evTransmit_writes {s t : State} (h : execEvTransmit s = .next t) :
    Writes free flagRule s t := by
  rcases evTransmit_next h with rfl | ⟨d, _, ⟨_, h⟩ | ⟨_, h⟩⟩
  · exact .found ..
  · exact (Writes.found ..).trans (transmitMaster_writes h)
  · exact (Writes.found ..).trans ((handleRequestSlave_writes h).mono fun _ _ _ _ => False.elim)

theorem evNak_writes {s t : State} (h : execEvNak s = .next t) : Writes free flagRule s t := by
  rcases evNak_next h with rfl | ⟨d, _, rfl⟩
  · exact .found ..
  · exact (Writes.found ..).trans (.drv d .nak)

/-- The write collision of R195: the raw index and size go to 0. -/
theorem writeCollision_writes (b : BusId) (d : DrvId) (s : State) :
    Writes free A s (writeCollision b d s) :=
  (Writes.emit ..).trans ((Writes.bus b .resetRxwi).trans (.bus b .resetRxcs))

theorem evStop_writes {s t : State} (h : execEvStop s = .next t) :
    Writes free handlerRule s t := by
  rcases evStop_next h with rfl | ⟨d, _, ⟨_, _, rfl⟩ | ⟨_, h⟩⟩
  · exact .found ..
  · exact (Writes.found ..).trans (writeCollision_writes ..)
  · exact (Writes.found ..).trans ((handleReceive_writes h).mono fun _ _ _ _ hr => .inl hr.2.2)

theorem evStop_cursor {e : DrvId} {s t : State} (h : execEvStop s = .next t)
    (he : s.cursorEmpty e = false) : t.cursorEmpty e = false := by
  rcases evStop_next h with rfl | ⟨d, _, ⟨_, _, rfl⟩ | ⟨_, h⟩⟩
  · exact he
  · exact he
  · exact handleReceive_cursor h he

theorem onCondition_writes {bit : Nat} {f : State → Result} {s t : State}
    (hf : ∀ {t}, f s = .next t → Writes free A s t) (h : onCondition bit f s = .next t) :
    Writes free A s t := by
  rcases onCondition_next h with rfl | h
  · exact .refl _
  · exact hf h

/-- R190: the first three handlers write flags only; the fourth can deliver a message. -/
theorem handleConditions_writes {s t : State} (h : handleConditions s = .next t) :
    ∃ c, Writes free flagRule s c ∧ onCondition 3 execEvStop c = .next t := by
  obtain ⟨a, b, c, ha, hb, hc, ht⟩ := handleConditions_next h
  exact ⟨c, ((onCondition_writes evReceive_writes ha).trans
    (onCondition_writes evTransmit_writes hb)).trans (onCondition_writes evNak_writes hc), ht⟩

@[simp] theorem beginDispatch_cfg (b : BusId) (s : State) : (beginDispatch b s).cfg = s.cfg := by
  simp [beginDispatch_eq]
@[simp] theorem beginDispatch_bus (b : BusId) (s : State) : (beginDispatch b s).bus = s.bus := by
  simp [beginDispatch_eq]
@[simp] theorem beginDispatch_drv (b : BusId) (s : State) : (beginDispatch b s).drv = s.drv := by
  simp [beginDispatch_eq]

@[simp] theorem beginDispatch_reg (b : BusId) (s : State) : (beginDispatch b s).reg = s.reg := by
  simp [beginDispatch_eq]
@[simp] theorem beginDispatch_fg (b : BusId) (s : State) : (beginDispatch b s).fg = s.fg := by
  simp [beginDispatch_eq]
@[simp] theorem beginDispatch_mem (b : BusId) (s : State) : (beginDispatch b s).mem = s.mem := by
  simp [beginDispatch_eq]

/-- A dispatcher invocation is a sequence of updates, but for its marker (R43, R190). -/
theorem dispatch_writes {bus : Byte} {s t : State} (h : execDispatch bus s = .next t) :
    ∃ u v, Writes free handlerRule u v ∧ u.cfg = s.cfg ∧ u.bus = s.bus ∧ u.drv = s.drv ∧
      t.bus = v.bus ∧ t.drv = v.drv := by
  rcases dispatch_next h with ⟨_, rfl⟩ | ⟨b, _, _, v, hv, rfl⟩
  · exact ⟨t, t, .refl t, rfl, rfl, rfl, rfl, rfl⟩
  · obtain ⟨c, hc, hd⟩ := handleConditions_writes hv
    exact ⟨beginDispatch b s, v,
      (hc.mono fun _ _ _ _ => .inr).trans (onCondition_writes evStop_writes hd),
      beginDispatch_cfg b s, beginDispatch_bus b s, beginDispatch_drv b s, rfl, rfl⟩

theorem dispatch_bus_keeps {P : BusRegs → Prop} {bus : Byte} {s t : State}
    (h : execDispatch bus s = .next t) (hP : ∀ r r', BusMove free s.cfg r r' → P r → P r')
    (hs : ∀ b : BusId, P s.bus[b]) : ∀ b : BusId, P t.bus[b] := by
  obtain ⟨u, v, w, hc, hb, _, ht, _⟩ := dispatch_writes h
  rw [ht]
  exact w.bus_keeps (hc ▸ hP) (hb ▸ hs)

theorem dispatch_drv_keeps {P : DrvRegs → Prop} {e : DrvId} {bus : Byte} {s t : State}
    (h : execDispatch bus s = .next t) (hP : ∀ r r', handlerRule s.cfg e r r' → P r → P r')
    (hs : P s.drv[e]) : P t.drv[e] := by
  obtain ⟨u, v, w, hc, _, hd, _, ht⟩ := dispatch_writes (free := False) h
  rw [ht]
  exact w.drv_keeps (hc ▸ hP) (hd ▸ hs)

/-- No invocation empties a cursor: a message that is not drained is not touched (R30, R174). -/
theorem dispatch_cursor {e : DrvId} {bus : Byte} {s t : State}
    (h : execDispatch bus s = .next t) (he : s.cursorEmpty e = false) :
    t.cursorEmpty e = false := by
  rcases dispatch_next h with ⟨_, rfl⟩ | ⟨b, _, _, v, hv, rfl⟩
  · exact he
  · obtain ⟨c, hc, hd⟩ := handleConditions_writes (free := False) hv
    have hce : c.cursorEmpty e = false := cursorEmpty_eq_false.mpr <|
      hc.drv_keeps (P := fun r => ¬(r.rdi = 0 ∧ r.rdl = 0))
        (fun _ _ hr h0 => by cases hr <;> exact h0)
        (by rw [beginDispatch_drv]; exact cursorEmpty_eq_false.mp he)
    rcases onCondition_next hd with rfl | hd
    · exact hce
    · exact (evStop_cursor hd hce : v.cursorEmpty e = false)

end Sys2Proof.Machine

/-! SUPPORT. What a phase of each command of the foreground writes, and where it leaves the sequencer
(spec/10_state.md R41, R42). -/

namespace Sys2Proof.Machine

variable {free : Prop} {A : DrvRule}

/-! ### The commands of the foreground -/

/-- What a command of the foreground writes in the registers `r` of its driver `d`, at a phase that
found them as `r₀` (R107, R140 to R149, R170 to R172). -/
inductive CommandWrite (phase : BitVec 4) (r₀ : DrvRegs) (p : Params) (d : DrvId) (r : DrvRegs) :
    Instr → DrvRegs → Prop
  | speed {v} : CommandWrite phase r₀ p d r (.setSpeed d v) { r with speed := v }
  | master :
      CommandWrite phase r₀ p d r (.beginMaster d) { r with role := .master, addrv := false }
  | slave {a} : CommandWrite phase r₀ p d r (.beginSlave d a) { r with role := .slave }
  | ownAddress {a} :
      CommandWrite phase r₀ p d r (.beginSlave d a) { r with addr := a.toNat, addrv := true }
  | onRequest {v} : CommandWrite phase r₀ p d r (.onRequest d v) { r with onreq := v }
  | onReceive {v} : CommandWrite phase r₀ p d r (.onReceive d v) { r with onrcv := v }
  | target {a} :
      CommandWrite phase r₀ p d r (.beginTransmission d a)
        { r with addr := a.toNat, addrv := true }
  | stop {v} : CommandWrite phase r₀ p d r (.endTransmission d v) { r with sendstop := v }
  | noStop {a n} : CommandWrite phase r₀ p d r (.requestFrom d a n) { r with sendstop := false }
  | source {a n} :
      CommandWrite phase r₀ p d r (.requestFrom d a n) { r with addr := a.toNat, addrv := true }
  | clear {a n} (h : phase = 6 ∨ phase = 8) :
      CommandWrite phase r₀ p d r (.requestFrom d a n)
        { r with reqdone := false, gotnak := false }
  | deliver {a n r'} (h : CursorWrite p r r') :
      CommandWrite phase r₀ p d r (.requestFrom d a n) r'
  | drain : CommandWrite phase r₀ p d r (.read d) { r with rdi := 0, rdl := 0 }
  | advance (h1 : phase = 1) (h0 : r = r₀) (hl : r.rdi + 1 ≠ r.rdl) :
      CommandWrite phase r₀ p d r (.read d) { r with rdi := r.rdi + 1 }

/-- What the command `i` may write at the phase that starts in `s`. -/
def commandRule (i : Instr) (s : State) : DrvRule := fun p d r r' =>
  CommandWrite s.fg.phase s.drv[d] p d r i r'

/-- What must hold at a phase of a command (R41, R143, R149): it has the phase, past a role guard
its driver is Master, and READ leaves phase 0 only with a message in the cursor. -/
structure PhaseOk (i : Instr) (phase : BitVec 4) (s : State) : Prop where
  legal : phase.toNat < phaseCount i
  guarded : ∀ d, guardedDriver i = some d → phase ≠ 0 → s.drv[d].role = .master
  reading : ∀ d, i = .read d → phase = 1 → s.cursorEmpty d = false

/-- What a foreground step of the command `i` does (R42): it writes registers and completes, or goes
to a phase (in a hold the same one); REGISTER and UNREGISTER write one registry entry. -/
inductive Advance (i : Instr) (s : State) : State → Prop
  | completes {u : State} {op drv v : Byte}
      (h : Writes (s.startsOnEmpty = true) (commandRule i s) s u) :
      Advance i s (respond op drv false v (release u))
  | goes {u : State} {n : BitVec 4}
      (h : Writes (s.startsOnEmpty = true) (commandRule i s) s u)
      (hp : PhaseOk i s.fg.phase s → PhaseOk i n u) : Advance i s (goto n u)
  | registry {b : BusId} {r : RegEntry} {op drv v : Byte}
      (h : r.valid = true → i = .register r.drv b) :
      Advance i s (respond op drv false v (release (s.setReg b r)))

/-- R34: the writes of a role. -/
theorem commandRule_role {i : Instr} {s : State} {p : Params} {d : DrvId} {r r' : DrvRegs}
    (h : commandRule i s p d r r') :
    r'.role = r.role ∨ (i = .beginMaster d ∧ r'.role = .master) ∨
      ∃ a, i = .beginSlave d a ∧ r'.role = .slave := by
  cases h with
  | master => exact .inr (.inl ⟨rfl, rfl⟩)
  | slave => exact .inr (.inr ⟨_, rfl, rfl⟩)
  | deliver h => cases h <;> exact .inl rfl
  | speed | ownAddress | onRequest | onReceive | target | stop | noStop | source | clear | drain
  | advance => exact .inl rfl

/-- A command with a role guard writes no role. -/
theorem commandRule_role_eq {i : Instr} {s : State} {p : Params} {d e : DrvId}
    {r r' : DrvRegs} (h : commandRule i s p e r r') (hg : guardedDriver i = some d) :
    r'.role = r.role := by
  rcases commandRule_role h with h | ⟨rfl, _⟩ | ⟨_, rfl, _⟩
  · exact h
  · cases hg
  · cases hg

theorem Writes.role_eq {i : Instr} {s₀ s t : State} {d : DrvId}
    (h : Writes free (commandRule i s₀) s t) (hg : guardedDriver i = some d) (e : DrvId) :
    t.drv[e].role = s.drv[e].role :=
  h.drv_keeps (P := fun r => r.role = s.drv[e].role)
    (fun _ _ hr h => (commandRule_role_eq hr hg).trans h) rfl

section
variable {i : Instr} {s t u : State}

theorem Advance.of_finish {op drv v : Byte}
    (hw : Writes (s.startsOnEmpty = true) (commandRule i s) s u)
    (h : finish op drv v u = .next t) : Advance i s t := by
  cases h; exact .completes hw

/-- A command with a role guard goes to one of its phases: it is past the guard, or passes it. -/
theorem Advance.to {n : BitVec 4} {d : DrvId} (hg : guardedDriver i = some d)
    (hn : decide (n.toNat < phaseCount i) = true) (hm : s.fg.phase = 0 → s.drv[d].role = .master)
    (hw : Writes (s.startsOnEmpty = true) (commandRule i s) s u) :
    Advance i s (goto n u) := by
  refine .goes hw fun ok => ⟨of_decide_eq_true hn, fun d' hd' _ => ?_,
    fun d' hd' _ => by subst hd'; cases hg⟩
  have role : s.drv[d].role = .master := by
    by_cases h0 : s.fg.phase = 0
    · exact hm h0
    · exact ok.guarded d hg h0
  cases hg.symm.trans hd'
  exact (hw.role_eq hg d).trans role

/-- From a later phase a command goes to any of its phases. -/
theorem Advance.onward {n : BitVec 4} {d : DrvId} {m : Nat} (hg : guardedDriver i = some d)
    (hn : decide (n.toNat < phaseCount i) = true) (h0 : s.fg.phase.toNat = m + 1)
    (hw : Writes (s.startsOnEmpty = true) (commandRule i s) s u) :
    Advance i s (goto n u) :=
  .to hg hn (fun h => by rw [h] at h0; cases h0) hw

/-- A command with a role guard stays where it is. -/
theorem Advance.stay {d : DrvId} (hg : guardedDriver i = some d)
    (hw : Writes (s.startsOnEmpty = true) (commandRule i s) s u) : Advance i s u := by
  have here : u = goto s.fg.phase u := by unfold goto; rw [← hw.frame.fg]; rfl
  rw [here]
  exact .goes hw fun ok => ⟨ok.legal,
    fun d' hd' h0 => (hw.role_eq hg d').trans (ok.guarded d' hd' h0),
    fun d' hd' _ => by subst hd'; cases hg⟩

/-- A hold on a HAL query (R46). -/
theorem Advance.of_hold {hop : Byte} {b : BusId} {n : BitVec 4} {d : DrvId} {m : Nat}
    (hg : guardedDriver i = some d) (hn : decide (n.toNat < phaseCount i) = true)
    (h0 : s.fg.phase.toNat = m + 1)
    (h : holdQuery (halQuery hop b) n s = .next t) : Advance i s t := by
  unfold holdQuery at h
  split at h
  · cases h; exact .stay hg (.halQuery ..)
  · cases h; exact .onward hg hn h0 (.halQuery ..)

end

/-! #### One command after the other -/

theorem decrementTx_writes {b : BusId} {s : State} (hf : s.bus[b].txwi = 0 → free) :
    Writes free A s (decrementTx b s) := by
  rcases decrementTx_cases b s with ⟨_, h⟩ | ⟨h0, h⟩
  · rw [h]; exact .bus b .countDown
  · rw [h]
    exact (Writes.bus b (.draw (hf h0) _)).trans (.same { Kept.refl _ with } rfl rfl)

/-- The start writes SENDSTOP and both transmit indexes; TXWI gets the free value of log entry 7
only from 0. -/
theorem startTransmission_writes {d : DrvId} {stop : Bool} {s t : State}
    (hA : A s.cfg d s.drv[d] { s.drv[d] with sendstop := stop })
    (hf : s.bus[s.busOf d].txwi = 0 → free) (h : startTransmission d stop s = .next t) :
    Writes free A s t := by
  unfold startTransmission at h
  obtain ⟨_, h⟩ := loadByte_next.mp h
  cases h
  refine (Writes.drv d hA).trans ((Writes.bus (s.busOf d) .commitTx).trans
    ((decrementTx_writes fun h0 => hf ?_).trans ((Writes.emit ..).trans (.emit ..))))
  simpa using h0

theorem startReceive_writes (d : DrvId) (a n : Byte) (s s₀ : State) :
    Writes free (commandRule (.requestFrom d a n) s₀) s (startReceive d a n s) :=
  (Writes.bus _ (.request n)).trans <| (Writes.bus _ .resetRxwi).trans <| (Writes.emit ..).trans <|
    (Writes.drv d .source).trans <| (Writes.emit ..).trans (.emit ..)

theorem collectReceived_writes {d : DrvId} {a n : Byte} {s s₀ t : State}
    (h : collectReceived d s = .next t) :
    Writes free (commandRule (.requestFrom d a n) s₀) s t := by
  obtain ⟨u, hu, h⟩ := andThen_next.mp h
  cases h
  refine Writes.trans (t := u) ?_ (.bus _ .resetRxcs)
  split at hu
  · cases hu; exact .refl _
  · exact (handleReceive_writes hu).mono fun _ _ _ _ ⟨_, he, hr⟩ => he ▸ .deliver hr

section
variable {s t : State}

/-- The free value is taken only in a start with nothing written. -/
theorem startsOnEmpty_of_phase {i : Instr} {d : DrvId} (hi : s.inProgress = some i)
    (hd : (∃ v, i = .endTransmission d v) ∨ ∃ a n, i = .requestFrom d a n)
    (h2 : s.fg.phase = 2) (h0 : s.bus[s.busOf d].txwi = 0) : s.startsOnEmpty = true := by
  unfold State.startsOnEmpty
  rw [hi, h2]
  rcases hd with ⟨v, rfl⟩ | ⟨a, n, rfl⟩ <;> simpa [State.txIdle] using h0

theorem phase_eq {n : BitVec 4} (h : s.fg.phase.toNat = n.toNat) : s.fg.phase = n :=
  BitVec.eq_of_toNat_eq h

theorem beginTransmission_advance {d : DrvId} {a : Byte}
    (h : execBeginTransmission d a s = .next t) : Advance (.beginTransmission d a) s t := by
  unfold execBeginTransmission at h
  split at h
  · split at h
    · cases h; exact .to rfl rfl (fun _ => beq_iff_eq.mp ‹_›) (.refl s)
    · exact .of_finish (.refl s) h
  · exact .of_hold rfl rfl ‹_› h
  · exact .of_finish (.ite ((Writes.emit ..).trans (.drv d .target)) (.refl s)) h
  · cases h

theorem endTransmission_advance {d : DrvId} {v : Bool}
    (hi : s.inProgress = some (.endTransmission d v))
    (h : execEndTransmission d v s = .next t) : Advance (.endTransmission d v) s t := by
  unfold execEndTransmission at h
  dsimp only at h
  split at h
  · split at h
    · cases h
      exact .to rfl rfl
        (fun _ => beq_iff_eq.mp (Bool.and_eq_true_iff.mp ‹(_ && _) = true›).1) (.refl s)
    · exact .of_finish (.refl s) h
  · exact .of_hold rfl rfl ‹_› h
  · obtain ⟨u, hu, h⟩ := andThen_next.mp h
    exact .of_finish (startTransmission_writes .stop
      (startsOnEmpty_of_phase hi (.inl ⟨v, rfl⟩) (phase_eq (n := 2) ‹_›)) hu) h
  · cases h

theorem finishReceive_advance {d : DrvId} {a n : Byte} (h8 : s.fg.phase = 8)
    (h : finishReceive d s = .next t) : Advance (.requestFrom d a n) s t := by
  unfold finishReceive at h
  dsimp only at h
  split at h
  · exact .of_finish ((Writes.emit ..).trans ((Writes.bus _ .resetRxwi).trans
      ((Writes.bus _ .resetRxcs).trans (.drv d (.clear (.inr h8)))))) h
  · obtain ⟨u, hu, h⟩ := andThen_next.mp h
    exact .of_finish ((Writes.emit ..).trans
      ((collectReceived_writes hu).trans (.drv d (.clear (.inr h8))))) h

theorem requestFrom_advance {d : DrvId} {a n : Byte}
    (hi : s.inProgress = some (.requestFrom d a n))
    (h : execRequestFrom d a n s = .next t) : Advance (.requestFrom d a n) s t := by
  unfold execRequestFrom at h
  split at h
  · split at h
    · cases h
      exact .to rfl (by split <;> rfl) (fun _ => beq_iff_eq.mp ‹_›) (.refl s)
    · exact .of_finish (.refl s) h
  · exact .of_hold rfl rfl ‹_› h
  · obtain ⟨u, hu, h⟩ := andThen_next.mp h
    cases h
    exact .onward rfl rfl ‹_›
      (startTransmission_writes .noStop
        (startsOnEmpty_of_phase hi (.inr ⟨a, n, rfl⟩) (phase_eq (n := 2) ‹_›)) hu)
  · cases h
    split
    · exact .onward rfl rfl ‹_› (.refl s)
    · exact .stay rfl (.refl s)
  · cases h
    exact .onward rfl rfl ‹_›
      (startReceive_writes ..)
  · cases h
    exact .onward rfl rfl ‹_›
      (.ite (.emit ..) (.refl s))
  · cases h
    exact .onward rfl rfl ‹_›
      (.drv d (.clear (.inl (phase_eq (n := 6) ‹_›))))
  · cases h
    split
    · exact .onward rfl rfl ‹_› (.refl s)
    · exact .stay rfl (.refl s)
  · exact finishReceive_advance (phase_eq (n := 8) ‹_›) h
  · cases h

theorem read_advance {d : DrvId} (h : execRead d s = .next t) : Advance (.read d) s t := by
  unfold execRead at h
  split at h
  · cases h
    split
    · exact .goes (n := s.fg.phase) (.refl s) id
    · refine .goes (.refl s) fun _ =>
        ⟨Nat.one_lt_two, fun _ hg => (nomatch hg), fun e he _ => ?_⟩
      cases he
      exact Bool.eq_false_of_not_eq_true ‹_›
  · obtain ⟨_, h⟩ := popRead_next.mp h
    refine .of_finish ?_ h
    unfold State.popCursor
    split
    · exact .drv d .drain
    · exact .drv d (.advance (phase_eq (n := 1) ‹_›) rfl ‹_›)
  · cases h

/-- What a foreground step does, for every command. -/
theorem exec_advance {i : Instr} (hi : s.inProgress = some i) (h : exec i s = .next t) :
    Advance i s t := by
  have command : phaseCount i ≠ 0 := decodeCmd_phaseCount (inProgress_eq_some.mp hi).2
  cases i with
  | register => cases h; exact .registry fun _ => rfl
  | unregister => cases h; exact .registry fun hv => nomatch hv
  | setSpeed => exact .of_finish (.drv _ .speed) h
  | beginMaster =>
    exact .of_finish ((Writes.drv _ .master).trans ((Writes.emit ..).trans
      ((Writes.emit ..).trans (.emit ..)))) h
  | beginSlave =>
    exact .of_finish ((Writes.drv _ .slave).trans ((Writes.drv _ .ownAddress).trans
      ((Writes.emit ..).trans ((Writes.emit ..).trans (.emit ..))))) h
  | onRequest => exact .of_finish (.drv _ .onRequest) h
  | onReceive => exact .of_finish (.drv _ .onReceive) h
  | beginTransmission => exact beginTransmission_advance h
  | write =>
    obtain ⟨u, hu, h⟩ := andThen_next.mp h
    exact .of_finish (appendTx_writes hu) h
  | endTransmission => exact endTransmission_advance hi h
  | requestFrom => exact requestFrom_advance hi h
  | read => exact read_advance h
  | _ => exact absurd rfl command

end

end Sys2Proof.Machine

/-! SUPPORT. What a step keeps, and the statements of spec/10_state.md about TXWI, roles and flags. -/

namespace Sys2Proof.Machine

/-! ### The step -/

section
variable {s t : State}

/-- What a step that runs no operation does: it leaves the registers of buses and drivers, the
registry, the marker and the buffers, and FG as it was, idle, or with a legal command at phase 0
(R42, R111). -/
structure Settled (s t : State) : Prop where
  cfg : t.cfg = s.cfg
  bus : t.bus = s.bus
  reg : t.reg = s.reg
  drv : t.drv = s.drv
  disp : t.disp = s.disp
  mem : t.mem = s.mem
  fg : t.fg = s.fg ∨ t.fg.busy = false ∨
    ∃ i, decodeCmd s.cfg t.fg.word = .ok i ∧ t.fg.phase = 0

theorem tick_settled (s : State) : Settled s (tick s) := by
  constructor <;> simp

theorem arrival_settled (s : State) (rest : List Arrival) : Settled s { s with irq := rest } :=
  ⟨rfl, rfl, rfl, rfl, rfl, rfl, .inl rfl⟩

theorem latchCommand_word (w : Word) (s : State) : (latchCommand w s).fg.word = w := pack_bytes w

theorem acceptCommand_settled (w : Word) (s : State) : Settled s (acceptCommand w s) := by
  unfold acceptCommand
  split
  · rename_i i hi
    exact ⟨rfl, rfl, rfl, rfl, rfl, rfl, .inr (.inr ⟨i, by rwa [latchCommand_word], rfl⟩)⟩
  · exact ⟨rfl, rfl, rfl, rfl, rfl, rfl, .inl rfl⟩

theorem Settled.after {u : State} (h : Settled s t) (k : Settled t u) (hf : t.fg = s.fg) :
    Settled s u where
  cfg := k.cfg.trans h.cfg
  bus := k.bus.trans h.bus
  reg := k.reg.trans h.reg
  drv := k.drv.trans h.drv
  disp := k.disp.trans h.disp
  mem := k.mem.trans h.mem
  fg := by rw [← hf, ← h.cfg]; exact k.fg

@[simp] theorem tick_inProgress (s : State) : (tick s).inProgress = s.inProgress := by
  simp [State.inProgress]

@[simp] theorem tick_startsOnEmpty (s : State) : (tick s).startsOnEmpty = s.startsOnEmpty := by
  simp [State.startsOnEmpty, State.txIdle, State.busOf]

/-- A step serves an interrupt, runs a phase of the command in progress, or runs nothing. -/
theorem step_next (h : step s = .next t) :
    (∃ bus rest, s.dueEvent ≠ none ∧ execDispatch bus { s with irq := rest } = .next t) ∨
    (∃ i, s.dueEvent = none ∧ s.inProgress = some i ∧ Advance i (tick s) t) ∨
    Settled s t := by
  rcases step_cases s (step_next_idle h) with ⟨bus, rest, _, hd, hs⟩ | ⟨_, rest, _, _, hs⟩ |
      ⟨hd, ⟨i, _, _, hi, hs⟩ | ⟨_, _, _, hs⟩ | ⟨w, rest, _, _, hs⟩ | ⟨_, _, hs⟩⟩ <;>
    rw [hs] at h
  · exact .inl ⟨bus, rest, by simp [hd], h⟩
  · cases h; exact .inr (.inr (arrival_settled s rest))
  · exact .inr (.inl ⟨i, hd, hi, exec_advance (by simpa using hi) h⟩)
  · cases h
    have released : Settled (tick s) (respondIllegal s.fg.word (release (tick s))) :=
      ⟨rfl, rfl, rfl, rfl, rfl, rfl, .inr (.inl rfl)⟩
    exact .inr (.inr ((tick_settled s).after released (tick_fg s)))
  · cases h
    have taken : Settled (tick s) { tick s with cmd := rest } :=
      ⟨rfl, rfl, rfl, rfl, rfl, rfl, .inl rfl⟩
    have accepted := taken.after (acceptCommand_settled w _) rfl
    exact .inr (.inr ((tick_settled s).after accepted (tick_fg s)))
  · cases h; exact .inr (.inr (tick_settled s))

theorem commandRule_tick (i : Instr) (s : State) : commandRule i (tick s) = commandRule i s := by
  unfold commandRule
  rw [tick_fg, tick_drv]

theorem Advance.bus_keeps {i : Instr} {P : BusRegs → Prop} (h : Advance i s t)
    (hP : ∀ r r', BusMove (s.startsOnEmpty = true) s.cfg r r' → P r → P r')
    (hs : ∀ b : BusId, P s.bus[b]) : ∀ b : BusId, P t.bus[b] := by
  cases h with
  | completes h => exact h.bus_keeps hP hs
  | goes h => exact h.bus_keeps hP hs
  | registry => exact hs

theorem Advance.drv_keeps {i : Instr} {P : DrvRegs → Prop} {e : DrvId} (h : Advance i s t)
    (hP : ∀ r r', commandRule i s s.cfg e r r' → P r → P r') (hs : P s.drv[e]) : P t.drv[e] := by
  cases h with
  | completes h => exact h.drv_keeps hP hs
  | goes h => exact h.drv_keeps hP hs
  | registry => exact hs

/-- A property of index registers that every update keeps, the free value of log entry 7 taken only
where a start with nothing written is next, is kept by a step. -/
theorem step_bus_keeps {P : BusRegs → Prop} (h : step s = .next t)
    (hP : ∀ r r', BusMove (s.dueEvent = none ∧ s.startsOnEmpty = true) s.cfg r r' → P r → P r')
    (hs : ∀ b : BusId, P s.bus[b]) : ∀ b : BusId, P t.bus[b] := by
  rcases step_next h with ⟨_, _, _, h⟩ | ⟨i, hd, _, h⟩ | h
  · exact dispatch_bus_keeps h hP hs
  · exact h.bus_keeps (fun r r' hm => hP r r' (by simpa [hd] using hm)) (by simpa using hs)
  · rw [h.bus]; exact hs

/-- A property of a driver's registers that every update an interrupt makes, and every write of the
command in progress, keeps is kept by a step. -/
theorem step_drv_keeps {P : DrvRegs → Prop} {e : DrvId} (h : step s = .next t)
    (irq : s.dueEvent ≠ none → ∀ r r', handlerRule s.cfg e r r' → P r → P r')
    (cmd : s.dueEvent = none → ∀ i, s.inProgress = some i →
      ∀ r r', commandRule i s s.cfg e r r' → P r → P r')
    (hs : P s.drv[e]) : P t.drv[e] := by
  rcases step_next h with ⟨_, _, hd, h⟩ | ⟨i, hd, hi, h⟩ | h
  · exact dispatch_drv_keeps h (irq hd) hs
  · exact h.drv_keeps (by rw [commandRule_tick, tick_cfg]; exact cmd hd i hi) (by simpa using hs)
  · rw [h.drv]; exact hs

end

/-! ### Transmit indexes (R51, R86) -/

/-- Without the free value no update takes TXWI past the buffer. -/
theorem BusMove.txwi_le {free : Prop} {p : Params} {r r' : BusRegs} (hf : ¬free)
    (h : BusMove free p r r') (hr : r.txwi ≤ p.txCap) : r'.txwi ≤ p.txCap := by
  cases h with
  | appendTx h => exact h
  | countDown => exact (Nat.sub_le ..).trans hr
  | draw h => exact absurd h hf
  | resetTxwi => exact Nat.zero_le _
  | appendRx | commitTx | request | resetTxcs | resetRxwi | resetRxcs => exact hr

/-- Settles O48: every update of TXWI but the free value keeps the bound. -/
theorem stepKeepsTransmitIndexesInRange : Obligations.StepKeepsTransmitIndexesInRange := by
  intro s t hs hstart h
  have started : ¬(s.dueEvent = none ∧ s.startsOnEmpty = true) := fun ⟨hd, he⟩ =>
    hstart.elim (by simp [he]) (absurd hd)
  have fits := step_bus_keeps h (P := fun r => r.txwi ≤ s.cfg.txCap)
    (fun _ _ hm => hm.txwi_le started) hs
  simpa only [State.txFits, (step_extends h).cfg] using fits

/-! ### Roles and flags (R31, R32, R34) -/

theorem handlerRule_role {p : Params} {d : DrvId} {r r' : DrvRegs} (h : handlerRule p d r r') :
    r'.role = r.role := by
  rcases h with h | h <;> cases h <;> rfl

/-- Settles O51: of all updates only those of the two BEGIN commands write a role. -/
theorem onlyBeginCommandsWriteRoles : Obligations.OnlyBeginCommandsWriteRoles := by
  intro s t d h
  refine step_drv_keeps h (P := fun r => r.role = s.drv[d].role ∨
      (s.inProgress = some (.beginMaster d) ∧ r.role = .master) ∨
      (∃ a, s.inProgress = some (.beginSlave d a) ∧ r.role = .slave))
    (fun _ r r' hr hP => ?_) (fun _ i hi r r' hr hP => ?_) (.inl rfl)
  · rwa [handlerRule_role hr]
  · rcases commandRule_role hr with hr | ⟨rfl, hm⟩ | ⟨a, rfl, hm⟩
    · rwa [hr]
    · exact .inr (.inl ⟨hi, hm⟩)
    · exact .inr (.inr ⟨a, hi, hm⟩)

/-- REQDONE or GOTNAK. -/
abbrev CompletionFlag (f : DrvRegs → Bool) : Prop := f = DrvRegs.reqdone ∨ f = DrvRegs.gotnak

/-- An interrupt clears no completion flag. -/
theorem handlerRule_flag {f : DrvRegs → Bool} (hf : CompletionFlag f) {p : Params} {d : DrvId}
    {r r' : DrvRegs} (h : handlerRule p d r r') (hr : f r = true) : f r' = true := by
  rcases h with h | h
  · rcases hf with rfl | rfl <;> cases h <;> exact hr
  · cases h with
    | done => rcases hf with rfl | rfl; exacts [rfl, hr]
    | nak => rcases hf with rfl | rfl <;> rfl
    | stop => rcases hf with rfl | rfl <;> exact hr

/-- REQUEST_FROM of driver `d` is in progress, at a phase that clears its flags. -/
abbrev State.clearing (s : State) (i : Instr) (d : DrvId) : Prop :=
  (∃ a n, i = .requestFrom d a n) ∧ (s.fg.phase = 6 ∨ s.fg.phase = 8)

/-- A command leaves a completion flag, or is REQUEST_FROM and clears it. -/
theorem commandRule_flag {f : DrvRegs → Bool} (hf : CompletionFlag f) {i : Instr} {s : State}
    {p : Params} {d : DrvId} {r r' : DrvRegs} (h : commandRule i s p d r r') :
    f r' = f r ∨ (f r' = false ∧ s.clearing i d) := by
  cases h with
  | clear h => exact .inr ⟨by rcases hf with rfl | rfl <;> rfl, ⟨_, _, rfl⟩, h⟩
  | deliver h => rcases hf with rfl | rfl <;> cases h <;> exact .inl rfl
  | speed | master | slave | ownAddress | onRequest | onReceive | target | stop | noStop | source
  | drain | advance => rcases hf with rfl | rfl <;> exact .inl rfl

theorem step_sets_flag {f : DrvRegs → Bool} (hf : CompletionFlag f) {s t : State} {d : DrvId}
    (h : step s = .next t) (hs : f s.drv[d] = false) (ht : f t.drv[d] = true) :
    s.dueEvent ≠ none := by
  intro hd
  have kept := step_drv_keeps h (P := fun r => f r = false) (absurd hd)
    (fun _ i _ r r' hr h0 => (commandRule_flag hf hr).elim (·.trans h0) (·.1)) hs
  cases kept.symm.trans ht

theorem step_clears_flag {f : DrvRegs → Bool} (hf : CompletionFlag f) {s t : State} {d : DrvId}
    (h : step s = .next t) (hs : f s.drv[d] = true) (ht : f t.drv[d] = false) :
    s.dueEvent = none ∧ ∃ i, s.inProgress = some i ∧ s.clearing i d := by
  by_contra hc
  have kept := step_drv_keeps h (P := fun r => f r = true)
    (fun _ _ _ => handlerRule_flag hf)
    (fun hd i hi r r' hr h1 =>
      (commandRule_flag hf hr).elim (·.trans h1) fun hr => absurd ⟨hd, i, hi, hr.2⟩ hc) hs
  cases kept.symm.trans ht

/-- Settles O52: of all updates only those of an interrupt set a flag, and only those of
REQUEST_FROM clear one. -/
theorem completionFlagsHaveOneWriterEach : Obligations.CompletionFlagsHaveOneWriterEach := by
  intro s t d h
  refine ⟨fun hset => ?_, fun hclear => ?_⟩
  · rcases hset with ⟨ht, hs⟩ | ⟨ht, hs⟩
    · exact step_sets_flag (.inl rfl) h hs ht
    · exact step_sets_flag (.inr rfl) h hs ht
  · have cleared : s.dueEvent = none ∧ ∃ i, s.inProgress = some i ∧ s.clearing i d := by
      rcases hclear with ⟨ht, hs⟩ | ⟨ht, hs⟩
      · exact step_clears_flag (.inl rfl) h hs ht
      · exact step_clears_flag (.inr rfl) h hs ht
    obtain ⟨hd, i, hi, ⟨a, n, rfl⟩, hp⟩ := cleared
    exact ⟨hd, ⟨a, n, hi⟩, hp⟩

end Sys2Proof.Machine

/-! SUPPORT. Every step keeps the invariant of the machine (spec/10_state.md R22 to R51). -/

namespace Sys2Proof.Machine

/-! ### The invariant: the values of the registers (R22 to R30, R35, R51) -/

/-- The index registers of a bus hold legal values. -/
structure BusRegs.InRange (p : Params) (r : BusRegs) : Prop where
  txwi : r.txwi < 2 ^ p.idxw
  txcs : r.txcs < 2 ^ p.idxw
  rxwi : r.rxwi ≤ p.rxCap
  rxcs : r.rxcs < 2 ^ p.idxw

/-- The cursor and the address of a driver hold legal values. -/
structure DrvRegs.InRange (p : Params) (r : DrvRegs) : Prop where
  cursor : (r.rdi = 0 ∧ r.rdl = 0) ∨ (r.rdi < r.rdl ∧ r.rdl ≤ p.rdCap)
  addr : r.addr < 2 ^ p.addrw

/-- A register of `n ≥ 8` bits holds every byte (R106). -/
theorem byte_lt_two_pow (x : Byte) {n : Nat} (h : 8 ≤ n) : x.toNat < 2 ^ n :=
  x.isLt.trans_le (Nat.pow_le_pow_right Nat.two_pos h)

theorem BusMove.inRange {free : Prop} {p : Params} (hp : p.wf) {r r' : BusRegs}
    (h : BusMove free p r r') (hr : r.InRange p) : r'.InRange p := by
  have pos : 0 < 2 ^ p.idxw := Nat.two_pow_pos _
  cases h with
  | appendTx h => exact { hr with txwi := Nat.lt_of_le_of_lt h hp.txWidth }
  | appendRx h => exact { hr with rxwi := h }
  | countDown => exact { hr with txwi := (Nat.sub_le ..).trans_lt hr.txwi }
  | draw _ n => exact { hr with txwi := Nat.mod_lt n pos }
  | commitTx => exact { hr with txcs := hr.txwi }
  | request n => exact { hr with rxcs := byte_lt_two_pow n hp.numBytes }
  | resetTxwi => exact { hr with txwi := pos }
  | resetTxcs => exact { hr with txcs := pos }
  | resetRxwi => exact { hr with rxwi := Nat.zero_le _ }
  | resetRxcs => exact { hr with rxcs := pos }

/-- A cursor that holds a message keeps RDI < RDL when RDI moves on and does not reach RDL (R30). -/
theorem DrvRegs.InRange.advance {p : Params} {r : DrvRegs} (hr : r.InRange p)
    (h : ¬(r.rdi = 0 ∧ r.rdl = 0)) (hl : r.rdi + 1 ≠ r.rdl) :
    DrvRegs.InRange p { r with rdi := r.rdi + 1 } := by
  obtain ⟨lt, le⟩ := hr.cursor.resolve_left h
  exact { hr with cursor := .inr ⟨Nat.lt_of_le_of_ne lt hl, le⟩ }

theorem CursorWrite.inRange {p : Params} {r r' : DrvRegs} (h : CursorWrite p r r')
    (hr : r.InRange p) : r'.InRange p := by
  cases h with
  | @load n h =>
    rcases Nat.eq_zero_or_pos n with rfl | hn
    · exact { hr with cursor := .inl ⟨rfl, rfl⟩ }
    · exact { hr with cursor := .inr ⟨hn, h⟩ }
  | drain => exact { hr with cursor := .inl ⟨rfl, rfl⟩ }
  | advance h hl => exact hr.advance h hl

theorem handlerRule_inRange {p : Params} {d : DrvId} {r r' : DrvRegs}
    (h : handlerRule p d r r') (hr : r.InRange p) : r'.InRange p := by
  rcases h with h | h
  · exact h.inRange hr
  · cases h <;> exact { hr with }

/-- READ at its second phase must find a message in the cursor; no other command needs a premise. -/
theorem commandRule_inRange {i : Instr} {s : State} {p : Params} (hp : p.wf) {d : DrvId}
    {r r' : DrvRegs} (reading : i = .read d → s.fg.phase = 1 → s.cursorEmpty d = false)
    (h : commandRule i s p d r r') (hr : r.InRange p) : r'.InRange p := by
  cases h with
  | ownAddress | target | source => exact { hr with addr := byte_lt_two_pow _ hp.address }
  | deliver h => exact h.inRange hr
  | drain => exact { hr with cursor := .inl ⟨rfl, rfl⟩ }
  | advance h1 h0 hl =>
    exact hr.advance (h0 ▸ cursorEmpty_eq_false.mp (reading rfl h1)) hl
  | speed | master | slave | onRequest | onReceive | stop | noStop | clear => exact { hr with }

/-! ### What a command word can name (R111) -/

/-- If `x` is an operation, it has the property. -/
def Names (P : Instr → Prop) (x : Except Reject Instr) : Prop := ∀ i, x = .ok i → P i

section
variable {P : Instr → Prop} {p : Params} {x : Byte}

theorem Names.ok {i : Instr} (h : P i) : Names P (.ok i) := fun _ hj => by cases hj; exact h

theorem Names.needZero {k : Except Reject Instr} (h : Names P k) : Names P (needZero x k) :=
  fun i hi => h i (needZero_ok hi).2

theorem Names.withDriver {k : DrvId → Except Reject Instr}
    (h : ∀ d, p.hasDriver d = true → Names P (k d)) : Names P (withDriver p x k) := fun i hi => by
  obtain ⟨d, _, hd, hk⟩ := withDriver_ok hi
  exact h d hd i hk

theorem Names.withBus {k : BusId → Except Reject Instr}
    (h : ∀ b, p.hasBus b = true → Names P (k b)) : Names P (withBus p x k) := fun i hi => by
  obtain ⟨b, _, hb, hk⟩ := withBus_ok hi
  exact h b hb i hk

theorem Names.withBit {k : Bool → Except Reject Instr} (h : ∀ v, Names P (k v)) :
    Names P (withBit x k) := fun i hi => by
  obtain ⟨v, _, hk⟩ := withBit_ok hi
  exact h v i hk

end

/-- R111: what a command word names is well formed. -/
theorem decodeCmd_wellFormed {p : Params} {w : Word} {i : Instr} (h : decodeCmd p w = .ok i) :
    i.wellFormed p = true := by
  refine (?_ : Names (fun i => i.wellFormed p = true) (decodeCmd p w)) i h
  unfold decodeCmd
  split
  · refine .needZero (.withDriver fun d hd => .withBus fun b hb => ?_)
    split
    · exact .ok (by simp [Instr.wellFormed, *])
    · exact nofun
  · exact .needZero (.needZero (.withBus fun _ hb => .ok hb))
  · exact .needZero (.withDriver fun _ hd => .withBit fun _ => .ok hd)
  · exact .needZero (.needZero (.withDriver fun _ hd => .ok hd))
  · exact .needZero (.withDriver fun _ hd => .ok hd)
  · exact .needZero (.withDriver fun _ hd => .withBit fun _ => .ok hd)
  · exact .needZero (.withDriver fun _ hd => .withBit fun _ => .ok hd)
  · exact .needZero (.withDriver fun _ hd => .ok hd)
  · exact .needZero (.withDriver fun _ hd => .ok hd)
  · exact .needZero (.withDriver fun _ hd => .withBit fun _ => .ok hd)
  · exact .withDriver fun _ hd => .ok hd
  · exact .needZero (.needZero (.withDriver fun _ hd => .ok hd))
  · exact nofun

/-- REGISTER names an existing driver and the bus it is bound to. -/
theorem decodeCmd_register {p : Params} {w : Word} {d : DrvId} {b : BusId}
    (h : decodeCmd p w = .ok (.register d b)) : d.val < p.numDrivers ∧ p.busOf[d] = b := by
  have wf := decodeCmd_wellFormed h
  simp only [Instr.wellFormed, Params.hasDriver, Bool.and_eq_true, decide_eq_true_eq] at wf
  obtain ⟨⟨hd, _⟩, hb⟩ := wf
  exact ⟨hd, hb⟩

/-! ### The invariant: the rest of it (R39 to R43, R143, R149) -/

/-- A command in progress is legal, and what its phase asks for holds. -/
def State.Sequenced (s : State) : Prop :=
  s.fg.busy = true → ∃ i, decodeCmd s.cfg s.fg.word = .ok i ∧ PhaseOk i s.fg.phase s

/-- A registered driver exists and is bound to its bus (R39, R111, R130). -/
def State.Registered (s : State) : Prop :=
  ∀ b : BusId, s.reg[b].valid = true →
    s.reg[b].drv.val < s.cfg.numDrivers ∧ s.busOf s.reg[b].drv = b

/-- What the invariant says beside the values of the index registers and of ADDR. -/
structure State.Coherent (s : State) : Prop where
  mem : Memory.wf s.mem
  registry : s.Registered
  idle : s.disp.active = false
  sequenced : s.Sequenced

section
variable {s t : State}

/-- The invariant is the three parts. -/
theorem inv_iff : s.Inv ↔ s.cfg.wf ∧ (∀ b : BusId, s.bus[b].InRange s.cfg) ∧
    (∀ d : DrvId, s.drv[d].InRange s.cfg) ∧ s.Coherent := by
  constructor
  · rintro ⟨cfg, mem, ⟨bus, drv⟩, rxwi, cursor, registry, idle, sequencer, guarded, reading⟩
    refine ⟨cfg, fun b => ?_, fun d => ⟨?_, (drv d).2.2⟩, mem, registry, idle, fun hb => ?_⟩
    · obtain ⟨txwi, txcs, _, rxcs⟩ := bus b
      exact ⟨txwi, txcs, rxwi b, rxcs⟩
    · simpa [State.cursorOk, State.cursorEmpty] using cursor d
    · obtain ⟨i, hi, hn⟩ := sequencer hb
      have prog : s.inProgress = some i := inProgress_eq_some.mpr ⟨hb, hi⟩
      exact ⟨i, hi, hn, fun d => guarded i d prog, fun d hd => reading d (hd ▸ prog)⟩
  · rintro ⟨cfg, bus, drv, mem, registry, idle, sequenced⟩
    have rdWidth (d : DrvId) : s.drv[d].rdi < 2 ^ s.cfg.idxw ∧ s.drv[d].rdl < 2 ^ s.cfg.idxw := by
      rcases (drv d).cursor with ⟨h1, h2⟩ | ⟨h1, h2⟩
      · rw [h1, h2]; exact ⟨Nat.two_pow_pos _, Nat.two_pow_pos _⟩
      · have := h2.trans_lt cfg.rdWidth
        exact ⟨h1.trans this, this⟩
    have phase {i : Instr} (hi : s.inProgress = some i) : PhaseOk i s.fg.phase s := by
      obtain ⟨hb, hd⟩ := inProgress_eq_some.mp hi
      obtain ⟨j, hj, ok⟩ := sequenced hb
      cases hd.symm.trans hj
      exact ok
    refine ⟨cfg, mem, ⟨fun b => ?_, fun d => ?_⟩, fun b => (bus b).rxwi, fun d => ?_, registry,
      idle, fun hb => ?_, fun i d hi => (phase hi).guarded d, fun d hi => (phase hi).reading d rfl⟩
    · exact ⟨(bus b).txwi, (bus b).txcs,
        ((bus b).rxwi.trans cfg.delivery).trans_lt cfg.rdWidth, (bus b).rxcs⟩
    · exact ⟨(rdWidth d).1, (rdWidth d).2, (drv d).addr⟩
    · simpa [State.cursorOk, State.cursorEmpty] using (drv d).cursor
    · obtain ⟨i, hi, ok⟩ := sequenced hb
      exact ⟨i, hi, ok.legal⟩

/-! #### What keeps it -/

/-- Where the same command is at the same phase, roles are the same, and no message was drained. -/
theorem State.Sequenced.of_kept (hs : s.Sequenced) (cfg : t.cfg = s.cfg) (fg : t.fg = s.fg)
    (role : ∀ d : DrvId, t.drv[d].role = s.drv[d].role)
    (cursor : ∀ d : DrvId, s.cursorEmpty d = false → t.cursorEmpty d = false) : t.Sequenced := by
  intro hb
  rw [cfg, fg] at *
  obtain ⟨i, hi, ok⟩ := hs hb
  exact ⟨i, hi, ok.legal, fun d hd h0 => (role d).trans (ok.guarded d hd h0),
    fun d hd h1 => cursor d (ok.reading d hd h1)⟩

theorem State.Registered.of_eq (hs : s.Registered) (cfg : t.cfg = s.cfg) (reg : t.reg = s.reg) :
    t.Registered := by
  unfold State.Registered State.busOf
  rw [cfg, reg]
  exact hs

theorem dispatch_coherent {bus : Byte} (h : execDispatch bus s = .next t) (hs : s.Coherent) :
    t.Coherent := by
  have cursor := fun d => dispatch_cursor (e := d) h
  rcases dispatch_next h with ⟨_, rfl⟩ | ⟨b, _, _, u, hu, rfl⟩
  · exact hs
  · have k := handleConditions_kept hu
    have cfg := k.cfg.trans (beginDispatch_cfg b s)
    have fg := k.fg.trans (beginDispatch_fg b s)
    have role (d : DrvId) : u.drv[d].role = s.drv[d].role := by
      rw [(k.drv d).1, beginDispatch_drv]
    have reg := k.reg.trans (beginDispatch_reg b s)
    exact ⟨k.wf (by simpa using hs.mem), hs.registry.of_eq cfg reg, rfl,
      hs.sequenced.of_kept cfg fg role cursor⟩

theorem Settled.coherent (h : Settled s t) (hs : s.Coherent) : t.Coherent where
  mem := h.mem ▸ hs.mem
  registry := hs.registry.of_eq h.cfg h.reg
  idle := h.disp ▸ hs.idle
  sequenced := by
    rcases h.fg with fg | free | ⟨i, hi, h0⟩
    · exact hs.sequenced.of_kept h.cfg fg (fun d => by rw [h.drv])
        (fun d => by unfold State.cursorEmpty; rw [h.drv]; exact id)
    · exact fun hb => nomatch free.symm.trans hb
    · refine fun _ => ⟨i, h.cfg ▸ hi, ?_, fun _ _ hn => absurd h0 hn, fun _ _ h1 => ?_⟩
      · rw [h0]; exact Nat.pos_of_ne_zero (decodeCmd_phaseCount hi)
      · rw [h0] at h1; cases h1

/-- A foreground step keeps it: registers or a registry entry are written, and the command completes
or goes to a phase at which what the phase asks for holds. -/
theorem Advance.coherent {i : Instr} (hi : s.inProgress = some i) (h : Advance i s t)
    (hs : s.Coherent) : t.Coherent := by
  obtain ⟨hb, hd⟩ := inProgress_eq_some.mp hi
  cases h with
  | completes h =>
    exact ⟨h.frame.wf hs.mem, hs.registry.of_eq h.frame.cfg h.frame.reg,
      h.frame.disp ▸ hs.idle, nofun⟩
  | @goes u n h hp =>
    refine ⟨h.frame.wf hs.mem, hs.registry.of_eq h.frame.cfg h.frame.reg,
      h.frame.disp ▸ hs.idle, fun _ => ⟨i, ?_, ?_⟩⟩
    · have word : u.fg.word = s.fg.word := congrArg Foreground.word h.frame.fg
      change decodeCmd u.cfg u.fg.word = .ok i
      rwa [word, h.frame.cfg]
    · obtain ⟨j, hj, ok⟩ := hs.sequenced hb
      cases hd.symm.trans hj
      obtain ⟨legal, guarded, reading⟩ := hp ok
      exact ⟨legal, guarded, reading⟩
  | @registry b r _ _ _ hr =>
    refine ⟨hs.mem, fun b' hv => ?_, hs.idle, nofun⟩
    have entry : (s.reg.set b r)[b'] = if b = b' then r else s.reg[b'] := vector_get_set ..
    change (s.reg.set b r)[b'].valid = true at hv
    change (s.reg.set b r)[b'].drv.val < s.cfg.numDrivers ∧ s.busOf (s.reg.set b r)[b'].drv = b'
    rw [entry] at hv ⊢
    split at hv
    · subst b'
      rw [if_pos rfl]
      exact decodeCmd_register (hr hv ▸ hd)
    · rw [if_neg ‹_›]
      exact hs.registry b' hv

theorem step_coherent (h : step s = .next t) (hs : s.Coherent) : t.Coherent := by
  rcases step_next h with ⟨_, rest, _, h⟩ | ⟨i, _, hi, h⟩ | h
  · exact dispatch_coherent h ((arrival_settled s rest).coherent hs)
  · exact h.coherent (by simpa using hi) ((tick_settled s).coherent hs)
  · exact h.coherent hs

end

/-- Settles O47: every update keeps the values of the registers, and every step the rest. -/
theorem stepKeepsTheInvariant : Obligations.StepKeepsTheInvariant := by
  intro s t inv h
  obtain ⟨cfg, bus, drv, coherent⟩ := inv_iff.mp inv
  rw [inv_iff, (step_extends h).cfg]
  refine ⟨cfg, step_bus_keeps h (fun _ _ hm => hm.inRange cfg) bus, fun d => ?_,
    step_coherent h coherent⟩
  exact step_drv_keeps h (fun _ _ _ => handlerRule_inRange)
    (fun _ i hi _ _ => commandRule_inRange cfg fun hr => inv.reading d (hr ▸ hi)) (drv d)

end Sys2Proof.Machine

/-! SUPPORT. The statements of spec/10_state.md about one step and about reset, and the independence
of the foreground from the registry. -/

namespace Sys2Proof.Machine

/-! ### One step (R42, R45, R47, R50) -/

/-- Settles O6: the foreground's move is to run the command in progress. -/
theorem stepRunsTheLatchedCommand : Obligations.StepRunsTheLatchedCommand := by
  intro s i ha hd hb hi
  have word : decodeCmd s.cfg s.fg.word = .ok i := hi
  rcases step_cases s ha with ⟨_, _, _, due, _⟩ | ⟨_, _, _, due, _⟩ |
      ⟨_, ⟨j, _, hj, _, hs⟩ | ⟨_, _, hj, _⟩ | ⟨_, _, idle, _⟩ | ⟨idle, _⟩⟩
  · cases hd.symm.trans due
  · cases hd.symm.trans due
  · cases word.symm.trans hj
    exact hs
  · cases word.symm.trans hj
  · cases hb.symm.trans idle
  · cases hb.symm.trans idle

@[simp] theorem decodeEvent_eventWord (bus : Byte) :
    decodeEvent (eventWord bus) = .ok (.dispatch bus) := by
  unfold decodeEvent eventWord
  rw [byte3_pack, byte2_pack, byte1_pack, byte0_pack]
  rfl

/-- Settles O7: an event word that is due is what is fetched. -/
theorem stepServesTheDueInterrupt : Obligations.StepServesTheDueInterrupt := by
  intro s bus rest ha hirq
  unfold step
  rw [fetch_due ha hirq, decodeEvent_eventWord]

/-- Settles O8: a command word on an idle port is accepted, and acceptance latches it. -/
theorem stepAcceptsALegalCommand : Obligations.StepAcceptsALegalCommand := by
  intro s w rest i ha hd hb hc hi
  have accepted : acceptCommand w { tick s with cmd := rest } =
      latchCommand w { tick s with cmd := rest } := by
    unfold acceptCommand
    simp only [tick_cfg, hi]
  rcases step_cases s ha with ⟨_, _, _, due, _⟩ | ⟨_, _, _, due, _⟩ |
      ⟨_, ⟨_, busy, _⟩ | ⟨_, busy, _⟩ | ⟨w', rest', _, hc', hs⟩ | ⟨_, hc', _⟩⟩
  · cases hd.symm.trans due
  · cases hd.symm.trans due
  · cases hb.symm.trans busy
  · cases hb.symm.trans busy
  · cases hc.symm.trans hc'
    rw [hs, accepted]
    rfl
  · cases hc.symm.trans hc'

/-- Settles O11: the register files after reset hold one record in every entry. -/
theorem resetLeavesTheStatedValues : Obligations.ResetLeavesTheStatedValues :=
  ⟨fun b => by simp, fun d => by simp, rfl, rfl, rfl⟩

/-! ### Independence of the registry (R39) -/

/-- The state with another registry. -/
def State.withReg (r : Vector RegEntry 256) (s : State) : State := { s with reg := r }

theorem State.withReg_cfg (r : Vector RegEntry 256) (s : State) : (s.withReg r).cfg = s.cfg := rfl
theorem State.withReg_fg (r : Vector RegEntry 256) (s : State) : (s.withReg r).fg = s.fg := rfl

/-- An operation does the same whatever the registry holds, and leaves it. -/
def IgnoresRegistry (f : State → Result) : Prop :=
  ∀ (r : Vector RegEntry 256) (s : State), f (s.withReg r) = withRegistry r (f s)

section
variable {r : Vector RegEntry 256}

/-! #### How it composes -/

theorem withReg_ite {c : Prop} [Decidable c] {s t s' t' : State} (hs : s' = s.withReg r)
    (ht : t' = t.withReg r) : (if c then s' else t') = (if c then s else t).withReg r := by
  rw [hs, ht]; exact (apply_ite ..).symm

theorem withRegistry_ite {c : Prop} [Decidable c] {x y x' y' : Result}
    (hx : x' = withRegistry r x) (hy : y' = withRegistry r y) :
    (if c then x' else y') = withRegistry r (if c then x else y) := by
  rw [hx, hy]; exact (apply_ite ..).symm

theorem withRegistry_next {s t : State} (h : s = t.withReg r) :
    (.next s : Result) = withRegistry r (.next t) := congrArg _ h

theorem withRegistry_andThen {x x' : Result} {f : State → Result} (hx : x' = withRegistry r x)
    (hf : IgnoresRegistry f) : andThen x' f = withRegistry r (andThen x f) := by
  rw [hx]
  cases x with
  | next s => exact hf r s
  | fault | refused => rfl

theorem withRegistry_loadByte {buf : Buf} {i : Nat} {s : State} {k k' : Byte → Result}
    (hk : ∀ v, k' v = withRegistry r (k v)) :
    loadByte buf i (s.withReg r) k' = withRegistry r (loadByte buf i s k) :=
  withRegistry_ite (hk _) rfl

theorem IgnoresRegistry.apply {f : State → Result} (hf : IgnoresRegistry f) {s s' : State}
    (hs : s' = s.withReg r) : f s' = withRegistry r (f s) := hs ▸ hf r s

/-! #### The shared operations -/

theorem finish_ignores (op drv v : Byte) : IgnoresRegistry (finish op drv v) := fun _ _ => rfl

theorem takeAnswer_withReg (s : State) : (s.withReg r).takeAnswer = s.takeAnswer.withReg r := by
  unfold State.takeAnswer State.withReg; dsimp only; split <;> rfl

theorem takeScript_withReg (s : State) : (s.withReg r).takeScript = s.takeScript.withReg r := by
  unfold State.takeScript State.withReg; dsimp only; split <;> rfl

theorem halQuery_withReg (hop : Byte) (b : BusId) (s : State) :
    halQuery hop b (s.withReg r) = (halQuery hop b s).withReg r := by
  unfold halQuery; rw [takeAnswer_withReg]; rfl

theorem decrementTx_withReg (b : BusId) (s : State) :
    decrementTx b (s.withReg r) = (decrementTx b s).withReg r := withReg_ite rfl rfl

theorem popCursor_withReg (d : DrvId) (s : State) :
    (s.withReg r).popCursor d = (s.popCursor d).withReg r := withReg_ite rfl rfl

theorem holdQuery_ignores (hop : Byte) (b : BusId) (n : BitVec 4) :
    IgnoresRegistry (holdQuery (halQuery hop b) n) := fun _ s =>
  withRegistry_next <| withReg_ite (halQuery_withReg ..) <|
    congrArg (goto n) (halQuery_withReg hop b s)

theorem storeByte_ignores (buf : Buf) (i : Nat) (v : Byte) : IgnoresRegistry (storeByte buf i v) :=
  fun _ _ => withRegistry_ite rfl rfl

theorem appendTx_ignores (b : BusId) (v : Byte) : IgnoresRegistry (appendTx b v) := fun _ _ =>
  withRegistry_andThen (storeByte_ignores _ _ _ _ _) fun _ _ => rfl

theorem popRead_ignores (d : DrvId) {k : Byte → State → Result} (hk : ∀ v, IgnoresRegistry (k v)) :
    IgnoresRegistry fun s => popRead d s k := fun r s =>
  withRegistry_loadByte (k := fun v => k v (s.popCursor d)) fun v =>
    (congrArg (k v) (popCursor_withReg d s)).trans (hk v r _)

theorem blockCopy_ignores (src dst : Buf) (n i : Nat) :
    IgnoresRegistry (blockCopy src dst n i) := by
  induction n generalizing i with
  | zero => exact fun _ _ => rfl
  | succ n ih =>
    exact fun r s => withRegistry_loadByte fun v =>
      withRegistry_andThen (storeByte_ignores dst i v r s) (ih _)

/-! #### A delivery and its callback -/

theorem callbackCommand_ignores (u : Upcall) (d : DrvId) (w : Word) :
    IgnoresRegistry (callbackCommand u d w) := fun r s => by
  have write (x : Byte) : callbackWrite d x (s.withReg r) = withRegistry r (callbackWrite d x s) :=
    withRegistry_andThen (appendTx_ignores (s.busOf d) x r s) fun _ _ => rfl
  have read : callbackRead d (s.withReg r) = withRegistry r (callbackRead d s) :=
    withRegistry_ite rfl (popRead_ignores d (fun _ _ _ => rfl) r s)
  unfold callbackCommand
  rw [State.withReg_cfg]
  split
  · exact withRegistry_ite (write _) rfl
  · exact withRegistry_ite read rfl
  · rfl
  · rfl

theorem runCallback_ignores (u : Upcall) (d : DrvId) (ws : List Word) :
    IgnoresRegistry (runCallback u d ws) := by
  induction ws with
  | nil => exact fun _ _ => rfl
  | cons w ws ih => exact fun r s => withRegistry_andThen (callbackCommand_ignores u d w r s) ih

theorem execUpOnReceive_ignores (d : DrvId) (n : Byte) :
    IgnoresRegistry (execUpOnReceive d n) := fun r s => by
  unfold execUpOnReceive
  rw [takeScript_withReg]
  exact runCallback_ignores .onReceive d s.nextScript r
    (s.takeScript.emit (.upcall (upcallWord 0xF1 d n)))

theorem execHandleReceive_ignores (d : DrvId) : IgnoresRegistry (execHandleReceive d) :=
  fun r s => withRegistry_ite
    (withRegistry_andThen (withRegistry_andThen (blockCopy_ignores _ _ _ _ r s) fun _ _ => rfl)
      fun r u => withRegistry_ite (execUpOnReceive_ignores d _ r u) rfl) rfl

/-! #### The commands with phases -/

theorem beginTransmission_ignores (d : DrvId) (a : Byte) :
    IgnoresRegistry (execBeginTransmission d a) := fun r s => by
  unfold execBeginTransmission
  dsimp only
  rw [State.withReg_fg]
  split
  · exact withRegistry_ite rfl rfl
  · exact holdQuery_ignores ..
  · exact (finish_ignores _ _ _).apply (withReg_ite rfl rfl)
  · rfl

theorem startTransmission_ignores (d : DrvId) (stop : Bool) :
    IgnoresRegistry (startTransmission d stop) := fun r s => by
  have sendFirst (b : BusId) : IgnoresRegistry fun u =>
      loadByte (.tx b) 0 (halIssueStart b u) fun v =>
        .next (halSendNextByte b (some u.drv[d].role) v (halIssueStart b u)) := fun r u =>
    withRegistry_loadByte (s := halIssueStart b u) fun _ => rfl
  exact (sendFirst (s.busOf d)).apply (decrementTx_withReg (s.busOf d)
    ((latchStop d stop s).setTxcs (s.busOf d) s.bus[s.busOf d].txwi))

theorem endTransmission_ignores (d : DrvId) (stop : Bool) :
    IgnoresRegistry (execEndTransmission d stop) := fun r s => by
  unfold execEndTransmission
  dsimp only
  rw [State.withReg_fg]
  split
  · exact withRegistry_ite rfl rfl
  · exact holdQuery_ignores ..
  · exact withRegistry_andThen (startTransmission_ignores d stop r s) (finish_ignores _ _ _)
  · rfl

theorem collectReceived_ignores (d : DrvId) : IgnoresRegistry (collectReceived d) := fun r s =>
  withRegistry_andThen (withRegistry_ite rfl (execHandleReceive_ignores d r s)) fun _ _ => rfl

theorem finishReceive_ignores (d : DrvId) : IgnoresRegistry (finishReceive d) := fun r s =>
  withRegistry_ite rfl <| withRegistry_andThen
    (collectReceived_ignores d r (halSetMode (s.busOf d) .transmit s)) fun _ _ => rfl

theorem requestFrom_ignores (d : DrvId) (a n : Byte) :
    IgnoresRegistry (execRequestFrom d a n) := fun r s => by
  unfold execRequestFrom
  dsimp only
  rw [State.withReg_fg]
  split
  · exact withRegistry_ite rfl rfl
  · exact holdQuery_ignores ..
  · exact withRegistry_andThen (startTransmission_ignores d false r s) fun _ _ => rfl
  · exact withRegistry_next (withReg_ite rfl rfl)
  · rfl
  · exact IgnoresRegistry.apply (f := fun u => .next (goto 6 u)) (fun _ _ => rfl)
      (withReg_ite rfl rfl)
  · rfl
  · exact withRegistry_next (withReg_ite rfl rfl)
  · exact finishReceive_ignores d r s
  · rfl

theorem read_ignores (d : DrvId) : IgnoresRegistry (execRead d) := fun r s => by
  unfold execRead
  rw [State.withReg_fg]
  split
  · exact withRegistry_next (withReg_ite rfl rfl)
  · exact popRead_ignores d (fun v => finish_ignores 0x0C (indexByte d) v) r s
  · rfl

end

/-- Settles O59: no phase of such a command reads the registry. -/
theorem foregroundCommandsIgnoreTheRegistry :
    Obligations.ForegroundCommandsIgnoreTheRegistry := by
  intro s r i command notRegister notUnregister
  cases i with
  | register d b => exact absurd rfl (notRegister d b)
  | unregister b => exact absurd rfl (notUnregister b)
  | setSpeed | beginMaster | beginSlave | onRequest | onReceive => rfl
  | beginTransmission d a => exact beginTransmission_ignores d a r s
  | write d x =>
    exact withRegistry_andThen (appendTx_ignores (s.busOf d) x r s) (finish_ignores _ _ _)
  | endTransmission d stop => exact endTransmission_ignores d stop r s
  | requestFrom d a n => exact requestFrom_ignores d a n r s
  | read d => exact read_ignores d r s
  | _ => exact absurd rfl command

end Sys2Proof.Machine

/-! SUPPORT. Where the buffer accesses of the handlers fault, and the overruns of spec/20_memory.md
R76. -/

namespace Sys2Proof.Machine

section
variable {b : BusId} {d : DrvId} {s t : State} {e : Fault}

/-! ### The faults of the handlers (R76) -/

/-- R76 (c), R82: the count-down read faults where the difference is no index of TXBUF. -/
theorem countDownTx_fault {k : Byte → Result} : countDownTx b s k = .fault e ↔
    ((s.bus[b].txcs < s.bus[b].txwi ∨ s.cfg.txCap ≤ s.bus[b].txcs - s.bus[b].txwi) ∧
      e = .overrun (.tx b) ((s.bus[b].txcs : Int) - s.bus[b].txwi)) ∨
    (s.bus[b].txwi ≤ s.bus[b].txcs ∧ s.bus[b].txcs - s.bus[b].txwi < s.cfg.txCap ∧
      k (s.byteAt (.tx b) (s.bus[b].txcs - s.bus[b].txwi)) = .fault e) := by
  unfold countDownTx
  by_cases h : s.bus[b].txcs < s.bus[b].txwi
  · simp [-Fin.getElem_fin, h, Nat.not_le.mpr h, eq_comm]
  · have le := Nat.not_lt.mp h
    simp [-Fin.getElem_fin, h, le, loadByte_fault, Buf.cap, Int.ofNat_sub le]

theorem transmitMaster_fault : transmitMaster b d s = .fault e ↔ s.bus[b].txwi ≠ 0 ∧
    (s.bus[b].txcs < s.bus[b].txwi ∨ s.cfg.txCap ≤ s.bus[b].txcs - s.bus[b].txwi) ∧
    e = .overrun (.tx b) ((s.bus[b].txcs : Int) - s.bus[b].txwi) := by
  unfold transmitMaster State.txIdle
  by_cases h : s.bus[b].txwi = 0 <;> simp [-Fin.getElem_fin, h, countDownTx_fault]

/-- R76 (d), R83, R173: the send read faults past the end of TXBUF. -/
theorem serveAnswer_fault : serveAnswer d s = .fault e ↔
    s.bus[s.busOf d].txwi ≤ s.bus[s.busOf d].txcs ∧ s.cfg.txCap ≤ s.bus[s.busOf d].txwi ∧
    e = .overrun (.tx (s.busOf d)) s.bus[s.busOf d].txwi := by
  unfold serveAnswer State.answerExhausted sendTx
  by_cases h : s.bus[s.busOf d].txcs < s.bus[s.busOf d].txwi
  · simp [-Fin.getElem_fin, h, Nat.not_le.mpr h]
  · simp [-Fin.getElem_fin, h, Nat.not_lt.mp h, loadByte_fault, Buf.cap]

theorem execWrite_fault {x : Byte} : execWrite d x s = .fault e ↔
    s.cfg.txCap ≤ s.bus[s.busOf d].txwi ∧
    e = .overrun (.tx (s.busOf d)) s.bus[s.busOf d].txwi := by
  simp [-Fin.getElem_fin, execWrite, finish, andThen_fault, appendTx_fault]

/-- R192: past the store nothing of EV_RECEIVE can fault. -/
theorem evReceive_fault : execEvReceive s = .fault e ↔
    s.cfg.rxCap ≤ s.bus[s.disp.bus].rxwi ∧
    e = .overrun (.rx s.disp.bus) s.bus[s.disp.bus].rxwi := by
  have pulled : (halReceiveNextByte s.disp.bus s).bus = s.bus ∧
      (halReceiveNextByte s.disp.bus s).cfg = s.cfg :=
    ⟨State.takeAnswer_bus s, State.takeAnswer_cfg s⟩
  rw [← pulled.1, ← pulled.2, ← appendRx_fault (v := s.nextAnswer)]
  unfold execEvReceive
  rw [andThen_fault]
  refine ⟨fun h => h.resolve_right fun ⟨u, _, h⟩ => ?_, .inl⟩
  simp only [withDriverOf_eq] at h
  repeat' split at h
  all_goals cases h

/-- R193: a fault of EV_TRANSMIT is one of the branch of the driver's role. -/
theorem evTransmit_fault : execEvTransmit s = .fault e ↔ ∃ d, s.lookup s.disp.bus = some d ∧
    ((s.drv[d].role = .master ∧
        transmitMaster s.disp.bus d (s.setFound (some d)) = .fault e) ∨
      (s.drv[d].role = .slave ∧ execHandleRequestSlave d (s.setFound (some d)) = .fault e)) := by
  unfold execEvTransmit
  rw [withDriverOf_eq]
  cases s.lookup s.disp.bus with
  | none => simp
  | some d =>
    cases hr : s.drv[d].role <;> simp [-Fin.getElem_fin, State.isMaster, State.isSlave, hr]

/-- R173: with bytes left to send, no callback is asked. -/
theorem handleRequestSlave_of_txwi_ne_zero (h : s.bus[s.busOf d].txwi ≠ 0) :
    execHandleRequestSlave d s = serveAnswer d s := by
  simp [-Fin.getElem_fin, execHandleRequestSlave, refillAnswer, State.txIdle, h]

end

/-- Settles O19, one place of R76 after the other. -/
theorem overrunsRaiseTheFault : Obligations.OverrunsRaiseTheFault := by
  rintro s d _ x rfl
  refine ⟨fun full => execWrite_fault.mpr ⟨full, rfl⟩,
    fun full => evReceive_fault.mpr ⟨full, rfl⟩,
    fun found master busy outside => ?_, fun busy left full => ?_⟩
  · exact evTransmit_fault.mpr
      ⟨d, found, .inl ⟨master, transmitMaster_fault.mpr ⟨busy, outside, rfl⟩⟩⟩
  · exact (handleRequestSlave_of_txwi_ne_zero busy).trans
      (serveAnswer_fault.mpr ⟨left, full, rfl⟩)

end Sys2Proof.Machine

/-! SUPPORT. What the operations leave in the buffers (spec/20_memory.md R71): most leave all of
memory, WRITE and EV_RECEIVE store one byte, and only EV_RECEIVE stores in an RXBUF. -/

namespace Sys2Proof.Machine

/-! ### The operations that store nothing (R71, R79) -/

section
variable {d : DrvId} {s t u : State}

@[simp] theorem halQuery_mem (hop : Byte) (b : BusId) (s : State) :
    (halQuery hop b s).mem = s.mem := State.takeAnswer_mem s

@[simp] theorem decrementTx_mem (b : BusId) (s : State) : (decrementTx b s).mem = s.mem := by
  rcases decrementTx_cases b s with ⟨_, h⟩ | ⟨_, h⟩ <;> rw [h] <;> rfl

@[simp] theorem popCursor_mem (d : DrvId) (s : State) : (s.popCursor d).mem = s.mem := by
  unfold State.popCursor; split <;> rfl

/-- An operation that always answers a state with this memory. -/
theorem mem_of_next (h : (.next u : Result) = .next t) (hu : u.mem = s.mem) : t.mem = s.mem := by
  cases h; exact hu

theorem mem_ite {c : Prop} [Decidable c] (ht : t.mem = s.mem) (hu : u.mem = s.mem) :
    (if c then t else u).mem = s.mem := by
  split
  · exact ht
  · exact hu

theorem finish_mem {op drv v : Byte} (h : finish op drv v u = .next t) (hu : u.mem = s.mem) :
    t.mem = s.mem := mem_of_next h hu

/-- A guard that goes to a phase, or completes the command at once (R143). -/
theorem guard_mem {c : Prop} [Decidable c] {op drv v : Byte} {phase : BitVec 4}
    (h : (if c then .next (goto phase s) else finish op drv v s) = .next t) : t.mem = s.mem := by
  split at h
  · exact mem_of_next h rfl
  · exact finish_mem h rfl

theorem holdQuery_mem {hop : Byte} {b : BusId} {n : BitVec 4}
    (h : holdQuery (halQuery hop b) n s = .next t) : t.mem = s.mem :=
  mem_of_next h (mem_ite (halQuery_mem hop b s) (halQuery_mem hop b s))

theorem startTransmission_mem {stop : Bool} (h : startTransmission d stop s = .next t) :
    t.mem = s.mem := by
  unfold startTransmission at h
  obtain ⟨_, h⟩ := loadByte_next.mp h
  exact mem_of_next h (decrementTx_mem ..)

theorem execBeginTransmission_mem {a : Byte} (h : execBeginTransmission d a s = .next t) :
    t.mem = s.mem := by
  unfold execBeginTransmission at h
  split at h
  · exact guard_mem h
  · exact holdQuery_mem h
  · exact finish_mem h (mem_ite rfl rfl)
  · cases h

theorem execEndTransmission_mem {stop : Bool} (h : execEndTransmission d stop s = .next t) :
    t.mem = s.mem := by
  unfold execEndTransmission at h
  split at h
  · exact guard_mem h
  · exact holdQuery_mem h
  · obtain ⟨u, hu, h⟩ := andThen_next.mp h
    exact finish_mem h (startTransmission_mem hu)
  · cases h

theorem execRead_mem (h : execRead d s = .next t) : t.mem = s.mem := by
  unfold execRead at h
  split at h
  · exact mem_of_next h (mem_ite rfl rfl)
  · obtain ⟨_, h⟩ := popRead_next.mp h
    exact finish_mem h (popCursor_mem d s)
  · cases h

/-- R148: before its last phase REQUEST_FROM stores nothing, and there only a delivery does. -/
theorem execRequestFrom_mem {a n : Byte} (h : execRequestFrom d a n s = .next t) :
    t.mem = s.mem ∨ (s.fg.phase = 8 ∧ finishReceive d s = .next t) := by
  unfold execRequestFrom at h
  split at h
  · exact .inl (guard_mem h)
  · exact .inl (holdQuery_mem h)
  · obtain ⟨u, hu, h⟩ := andThen_next.mp h
    exact .inl (mem_of_next h (startTransmission_mem hu :))
  · exact .inl (mem_of_next h (mem_ite rfl rfl))
  · exact .inl (mem_of_next h rfl)
  · exact .inl (mem_of_next h (mem_ite rfl rfl))
  · exact .inl (mem_of_next h rfl)
  · exact .inl (mem_of_next h (mem_ite rfl rfl))
  · exact .inr ⟨phase_eq (n := 8) ‹_›, h⟩
  · cases h

theorem execEvNak_mem (h : execEvNak s = .next t) : t.mem = s.mem := by
  rcases evNak_next h with rfl | ⟨_, _, rfl⟩ <;> rfl

/-- R71: an operation on the list of `storesNothing` leaves memory as it is. -/
theorem exec_mem_of_storesNothing {i : Instr} (hi : storesNothing i = true)
    (h : exec i s = .next t) : t.mem = s.mem := by
  cases i with
  | register | unregister | setSpeed | beginMaster | beginSlave | onRequest | onReceive =>
    exact finish_mem h rfl
  | beginTransmission => exact execBeginTransmission_mem h
  | endTransmission => exact execEndTransmission_mem h
  | read => exact execRead_mem h
  | halInitMaster | halInitSlave | halEnableModule | halDisableModule | halSetMode
  | halSetTargetAddress | halIssueStart | halIssueStop | halSendNextByte
  | halClearInterruptStatus | halEnableInterruptSources | lookup => exact mem_of_next h rfl
  | halReceiveNextByte | halIsBusBusy | halIsStopPending | halGetInterruptStatus =>
    exact mem_of_next h (halQuery_mem ..)
  | evNak => exact execEvNak_mem h
  | write | requestFrom | dispatch | evReceive | evTransmit | evStop | upOnRequest | upOnReceive
  | handleRequestSlave | handleReceive => cases hi

theorem byteAt_of_mem (h : t.mem = s.mem) (buf : Buf) (i : Nat) :
    t.byteAt buf i = s.byteAt buf i := congrArg (Memory.read · (buf.loc i)) h

end

/-- Settles O46: these operations leave memory as it is. -/
theorem otherOperationsLeaveTheBuffers : Obligations.OtherOperationsLeaveTheBuffers := by
  intro s t i h silent
  refine byteAt_of_mem ?_
  rcases silent with hi | ⟨⟨d, a, n, rfl⟩, before⟩
  · exact exec_mem_of_storesNothing hi h
  · exact (execRequestFrom_mem h).resolve_right fun last => before last.1

/-! ### The operations that store one byte (R71, R81) -/

section
variable {b : BusId} {v : Byte} {s t : State}

theorem appendTx_byteAt (hm : Memory.wf s.mem) (h : appendTx b v s = .next t) (buf : Buf)
    (i : Nat) : t.byteAt buf i =
      if buf = .tx b ∧ i = s.bus[b].txwi then v else s.byteAt buf i := by
  obtain ⟨_, rfl⟩ := appendTx_next.mp h
  exact byteAt_write hm v

theorem appendRx_byteAt (hm : Memory.wf s.mem) (h : appendRx b v s = .next t) (buf : Buf)
    (i : Nat) : t.byteAt buf i =
      if buf = .rx b ∧ i = s.bus[b].rxwi then v else s.byteAt buf i := by
  obtain ⟨_, rfl⟩ := appendRx_next.mp h
  exact byteAt_write hm v

theorem execWrite_byteAt {d : DrvId} (hm : Memory.wf s.mem) (h : execWrite d v s = .next t)
    (buf : Buf) (i : Nat) : t.byteAt buf i =
      if buf = .tx (s.busOf d) ∧ i = s.bus[s.busOf d].txwi then v else s.byteAt buf i := by
  obtain ⟨u, hu, h⟩ := andThen_next.mp h
  rw [byteAt_of_mem (finish_mem h rfl)]
  exact appendTx_byteAt hm hu buf i

theorem evReceive_byteAt (hm : Memory.wf s.mem) (h : execEvReceive s = .next t)
    (buf : Buf) (i : Nat) : t.byteAt buf i =
      if buf = .rx s.disp.bus ∧ i = s.bus[s.disp.bus].rxwi then s.nextAnswer
      else s.byteAt buf i := by
  obtain ⟨u, w, hu, hw, ht⟩ := evReceive_next h
  have pulled : (halReceiveNextByte s.disp.bus s).mem = s.mem := halQuery_mem ..
  have after : t.mem = u.mem := by
    rcases hw with rfl | rfl <;> rcases ht with rfl | rfl | ⟨_, _, rfl⟩ <;> rfl
  rw [byteAt_of_mem after, appendRx_byteAt (pulled ▸ hm) hu, byteAt_of_mem pulled]
  simp [halReceiveNextByte, halQuery]

end

/-- Settles O45: past the append neither operation stores anything. -/
theorem storingOperationsWriteOneByte : Obligations.StoringOperationsWriteOneByte :=
  fun _ _ _ _ buf i hm =>
    ⟨fun h => execWrite_byteAt hm h buf i, fun h => evReceive_byteAt hm h buf i⟩

/-! ### The raw buffers (R24, R71) -/

/-- Canonical memory stays canonical, and every byte of every RXBUF reads as before. -/
def KeepsRaw (s t : State) : Prop :=
  Memory.wf s.mem → Memory.wf t.mem ∧ ∀ b i, t.byteAt (.rx b) i = s.byteAt (.rx b) i

section
variable {d : DrvId} {s t u : State}

theorem KeepsRaw.of_mem (h : t.mem = s.mem) : KeepsRaw s t := fun hm =>
  ⟨h ▸ hm, fun _ _ => byteAt_of_mem h _ _⟩

theorem KeepsRaw.trans (h : KeepsRaw s t) (k : KeepsRaw t u) : KeepsRaw s u := fun hm => by
  obtain ⟨ht, hs⟩ := h hm
  obtain ⟨hu, ht⟩ := k ht
  exact ⟨hu, fun b i => (ht b i).trans (hs b i)⟩

/-- An earlier update that leaves memory as it is. -/
theorem KeepsRaw.after_mem (k : KeepsRaw t u) (h : t.mem = s.mem) : KeepsRaw s u :=
  (KeepsRaw.of_mem h).trans k

/-- A later update that leaves memory as it is. -/
theorem KeepsRaw.then_mem (h : KeepsRaw s t) (k : u.mem = t.mem) : KeepsRaw s u :=
  h.trans (.of_mem k)

theorem storeByte_keepsRaw {buf : Buf} {i : Nat} {v : Byte}
    (h : storeByte buf i v s = .next t) (hb : ∀ b, buf ≠ .rx b) : KeepsRaw s t := fun hm => by
  obtain ⟨_, rfl⟩ := storeByte_next.mp h
  exact ⟨Memory.write_wf hm .., fun b j =>
    (byteAt_write hm v).trans (if_neg fun hj => hb b hj.1.symm)⟩

theorem appendTx_keepsRaw {b : BusId} {v : Byte} (h : appendTx b v s = .next t) :
    KeepsRaw s t := by
  obtain ⟨u, hu, h⟩ := andThen_next.mp h
  exact (storeByte_keepsRaw hu fun _ => nofun).then_mem (mem_of_next h rfl)

theorem blockCopy_keepsRaw {src dst : Buf} {n i : Nat}
    (h : blockCopy src dst n i s = .next t) (hb : ∀ b, dst ≠ .rx b) : KeepsRaw s t := by
  induction n generalizing i s with
  | zero => cases h; exact .of_mem rfl
  | succ n ih =>
    obtain ⟨_, h⟩ := loadByte_next.mp h
    obtain ⟨u, hu, h⟩ := andThen_next.mp h
    exact (storeByte_keepsRaw hu hb).trans (ih h)

theorem callbackCommand_keepsRaw {c : Upcall} {w : Word}
    (h : callbackCommand c d w s = .next t) : KeepsRaw s t := by
  rcases callbackCommand_next h with ⟨x, h⟩ | ⟨_, h⟩ | rfl
  · obtain ⟨u, hu, rfl⟩ := callbackWrite_next.mp h
    exact (appendTx_keepsRaw hu).then_mem rfl
  · obtain ⟨_, _, rfl⟩ := callbackRead_next.mp h
    exact .of_mem (popCursor_mem d s)
  · exact .of_mem rfl

theorem runCallback_keepsRaw {c : Upcall} {ws : List Word}
    (h : runCallback c d ws s = .next t) : KeepsRaw s t :=
  runCallback_induct KeepsRaw (fun _ => .of_mem rfl)
    (fun _ _ _ => .trans) (fun _ _ _ => callbackCommand_keepsRaw) h

theorem upOnRequest_keepsRaw (h : execUpOnRequest d s = .next t) : KeepsRaw s t :=
  (runCallback_keepsRaw h).after_mem (State.takeScript_mem s)

theorem upOnReceive_keepsRaw {n : Byte} (h : execUpOnReceive d n s = .next t) : KeepsRaw s t :=
  (runCallback_keepsRaw h).after_mem (State.takeScript_mem s)

theorem handleRequestSlave_keepsRaw (h : execHandleRequestSlave d s = .next t) :
    KeepsRaw s t := by
  obtain ⟨u, hu, h⟩ := andThen_next.mp h
  have refilled : KeepsRaw s u := by
    rcases refillAnswer_next hu with ⟨_, rfl⟩ | ⟨_, v, ⟨_, hv⟩ | ⟨_, rfl⟩, rfl⟩
    · exact .of_mem rfl
    · exact (upOnRequest_keepsRaw hv).then_mem rfl
    · exact .of_mem rfl
  refine refilled.then_mem ?_
  rcases serveAnswer_next h with ⟨_, rfl⟩ | ⟨_, _, rfl⟩ <;> rfl

theorem deliver_keepsRaw (h : deliver d s = .next t) : KeepsRaw s t := by
  obtain ⟨m, hm, rfl⟩ := deliver_next h
  exact (blockCopy_keepsRaw hm fun _ => nofun).then_mem rfl

theorem handleReceive_keepsRaw (h : execHandleReceive d s = .next t) : KeepsRaw s t := by
  rcases handleReceive_next h with ⟨_, rfl⟩ | ⟨_, u, hu, ⟨_, h⟩ | ⟨_, rfl⟩⟩
  · exact .of_mem rfl
  · exact (deliver_keepsRaw hu).trans (upOnReceive_keepsRaw h)
  · exact deliver_keepsRaw hu

theorem transmitMaster_mem {b : BusId} (h : transmitMaster b d s = .next t) :
    t.mem = s.mem := by
  rcases transmitMaster_next h with ⟨_, rfl⟩ | ⟨_, _, rfl⟩
  · exact mem_ite rfl rfl
  · rfl

theorem evTransmit_keepsRaw (h : execEvTransmit s = .next t) : KeepsRaw s t := by
  rcases evTransmit_next h with rfl | ⟨d, _, ⟨_, h⟩ | ⟨_, h⟩⟩
  · exact .of_mem rfl
  · exact (KeepsRaw.of_mem (transmitMaster_mem h)).after_mem rfl
  · exact (handleRequestSlave_keepsRaw h).after_mem rfl

theorem evStop_keepsRaw (h : execEvStop s = .next t) : KeepsRaw s t := by
  rcases evStop_next h with rfl | ⟨d, _, ⟨_, _, rfl⟩ | ⟨_, h⟩⟩
  · exact .of_mem rfl
  · exact .of_mem rfl
  · exact (handleReceive_keepsRaw h).after_mem rfl

theorem onCondition_keepsRaw {bit : Nat} {f : State → Result}
    (hf : ∀ {t}, f s = .next t → KeepsRaw s t) (h : onCondition bit f s = .next t) :
    KeepsRaw s t := by
  rcases onCondition_next h with rfl | h
  · exact .of_mem rfl
  · exact hf h

/-- R190: only the first of the four handlers writes a raw buffer. -/
theorem handleConditions_keepsRaw (h : handleConditions s = .next t) :
    ∃ u, onCondition 0 execEvReceive s = .next u ∧ KeepsRaw u t := by
  obtain ⟨a, b, c, ha, hb, hc, ht⟩ := handleConditions_next h
  exact ⟨a, ha, (onCondition_keepsRaw evTransmit_keepsRaw hb).trans <|
    (onCondition_keepsRaw (fun h => .of_mem (execEvNak_mem h)) hc).trans
      (onCondition_keepsRaw evStop_keepsRaw ht)⟩

/-- The first handler keeps memory canonical, and a raw byte it changes is the one received. -/
theorem receiveCondition_rx_changed (hm : Memory.wf s.mem)
    (h : onCondition 0 execEvReceive s = .next t) :
    Memory.wf t.mem ∧ ∀ b i, t.byteAt (.rx b) i ≠ s.byteAt (.rx b) i →
      b = s.disp.bus ∧ i = s.bus[b].rxwi := by
  rcases onCondition_next h with rfl | h
  · exact ⟨hm, fun _ _ changed => absurd rfl changed⟩
  · refine ⟨(evReceive_kept h).wf hm, fun b i changed => ?_⟩
    rw [evReceive_byteAt hm h] at changed
    obtain ⟨hb, rfl⟩ := Decidable.byContradiction fun other => changed (if_neg other)
    cases hb
    exact ⟨rfl, rfl⟩

theorem dispatch_rx_changed {bus : Byte} {b : BusId} {i : Nat} (hm : Memory.wf s.mem)
    (h : execDispatch bus s = .next t) (changed : t.byteAt (.rx b) i ≠ s.byteAt (.rx b) i) :
    bus = indexByte b ∧ i = s.bus[b].rxwi := by
  rcases dispatch_next h with ⟨_, rfl⟩ | ⟨b', rfl, _, u, hu, rfl⟩
  · exact absurd rfl changed
  · have begun : (beginDispatch b' s).mem = s.mem := beginDispatch_mem b' s
    obtain ⟨a, ha, later⟩ := handleConditions_keepsRaw hu
    obtain ⟨hm', received⟩ := receiveCondition_rx_changed (begun ▸ hm) ha
    have first : a.byteAt (.rx b) i ≠ (beginDispatch b' s).byteAt (.rx b) i := by
      rw [← (later hm').2 b i, byteAt_of_mem begun]
      exact changed
    obtain ⟨hb, hi⟩ := received b i first
    rw [beginDispatch_eq] at hb
    rw [beginDispatch_bus] at hi
    exact ⟨congrArg indexByte hb.symm, hi⟩

theorem finishReceive_keepsRaw (h : finishReceive d s = .next t) : KeepsRaw s t := by
  unfold finishReceive at h
  dsimp only at h
  split at h
  · exact .of_mem (finish_mem h rfl)
  · obtain ⟨u, hu, h⟩ := andThen_next.mp h
    obtain ⟨v, hv, hu⟩ := andThen_next.mp hu
    have collected : KeepsRaw (halSetMode (s.busOf d) .transmit s) v := by
      split at hv
      · exact .of_mem (mem_of_next hv rfl)
      · exact handleReceive_keepsRaw hv
    exact (collected.after_mem rfl).then_mem (finish_mem h (mem_of_next hu rfl :))

/-- A command of the foreground stores in a TXBUF or in an RDBUF (R144, R148). -/
theorem exec_command_keepsRaw {i : Instr} (command : phaseCount i ≠ 0) (h : exec i s = .next t) :
    KeepsRaw s t := by
  cases i with
  | write =>
    obtain ⟨u, hu, h⟩ := andThen_next.mp h
    exact (appendTx_keepsRaw hu).then_mem (finish_mem h rfl)
  | requestFrom d =>
    rcases execRequestFrom_mem h with same | ⟨_, h⟩
    · exact .of_mem same
    · exact finishReceive_keepsRaw h
  | register | unregister | setSpeed | beginMaster | beginSlave | onRequest | onReceive
  | beginTransmission | endTransmission | read =>
    exact .of_mem (exec_mem_of_storesNothing rfl h)
  | _ => exact absurd rfl command

/-- A step that serves no event of an existing bus stores at most what a command does. -/
theorem step_keepsRaw (h : step s = .next t) :
    (∃ bus rest, s.dueEvent = some (eventWord bus) ∧
      execDispatch bus { s with irq := rest } = .next t) ∨ KeepsRaw s t := by
  rcases step_cases s (step_next_idle h) with ⟨bus, rest, _, hd, hs⟩ | ⟨_, rest, _, _, hs⟩ |
      ⟨_, ⟨i, _, hi, _, hs⟩ | ⟨_, _, _, hs⟩ | ⟨w, rest, _, _, hs⟩ | ⟨_, _, hs⟩⟩ <;>
    rw [hs] at h
  · exact .inl ⟨bus, rest, hd, h⟩
  · exact .inr (.of_mem (mem_of_next h rfl))
  · exact .inr ((exec_command_keepsRaw (decodeCmd_phaseCount hi) h).after_mem (tick_mem s))
  · exact .inr (.of_mem (mem_of_next h (tick_mem s)))
  · have accepted := (acceptCommand_settled w { tick s with cmd := rest }).mem
    exact .inr (.of_mem (mem_of_next h (accepted.trans (tick_mem s))))
  · exact .inr (.of_mem (mem_of_next h (tick_mem s)))

end

/-- Settles O53: of all operations only EV_RECEIVE stores in an RXBUF, and it stores one byte. -/
theorem onlyReceiveEventsWriteTheRawBuffer : Obligations.OnlyReceiveEventsWriteTheRawBuffer := by
  intro s t b i hm h changed
  rcases step_keepsRaw h with ⟨bus, rest, due, h⟩ | kept
  · obtain ⟨rfl, hi⟩ := dispatch_rx_changed (s := { s with irq := rest }) hm h changed
    exact ⟨due, hi⟩
  · exact absurd ((kept hm).2 b i) changed

end Sys2Proof.Machine

/-! SUPPORT. Where a step can fault from a state of the invariant (spec/20_memory.md R76,
spec/70_reset_and_hazards.md R289). -/

namespace Sys2Proof.Machine

variable {b : BusId} {d : DrvId} {s t : State} {e : Fault}

/-! ### The bounds of the index registers (R51) -/

/-- The parameters fit together, and every index register and cursor holds a legal value. -/
structure State.InBounds (s : State) : Prop where
  cfg : s.cfg.wf
  bus : ∀ b : BusId, s.bus[b].InRange s.cfg
  drv : ∀ d : DrvId, s.drv[d].InRange s.cfg

theorem Writes.inBounds (h : Writes False handlerRule s t) (hs : s.InBounds) : t.InBounds := by
  obtain ⟨cfg, bus, drv⟩ := hs
  constructor <;> rw [h.frame.cfg]
  · exact cfg
  · exact h.bus_keeps (fun _ _ hm => hm.inRange cfg) bus
  · exact fun d => h.drv_keeps (fun _ _ => handlerRule_inRange) (drv d)

/-- The updates of one cursor are among those of the dispatcher side. -/
theorem Writes.of_cursor {c : Prop} (h : Writes False (cursorRule c d) s t) :
    Writes False handlerRule s t := h.mono fun _ _ _ _ ⟨_, _, hr⟩ => .inl hr

/-- A cursor with a message has its next byte in RDBUF (R30). -/
theorem State.InBounds.rdi_lt (hs : s.InBounds) (h : s.cursorEmpty d = false) :
    s.drv[d].rdi < s.cfg.rdCap := by
  obtain ⟨lt, le⟩ := (hs.drv d).cursor.resolve_left (cursorEmpty_eq_false.mp h)
  exact lt.trans_le le

/-! ### Faults of the handlers and callbacks -/

/-- The faults a run can end in (R76, R289). -/
def ListedFault (e : Fault) : Prop :=
  (∃ b k, e = .overrun (.tx b) k) ∨ (∃ b k, e = .overrun (.rx b) k) ∨ ∃ d, e = .callbackHold d

theorem appendTx_listed {v : Byte} (h : appendTx b v s = .fault e) : ListedFault e :=
  .inl ⟨_, _, (appendTx_fault.mp h).2⟩

theorem callbackWrite_listed {x : Byte} (h : callbackWrite d x s = .fault e) : ListedFault e := by
  rcases andThen_fault.mp h with h | ⟨_, _, h⟩
  · exact appendTx_listed h
  · cases h

/-- R289: with the cursor in its bounds the only fault of a callback's READ is the hold. -/
theorem callbackRead_listed (hs : s.InBounds) (h : callbackRead d s = .fault e) :
    ListedFault e := by
  unfold callbackRead at h
  split at h
  · cases h; exact .inr (.inr ⟨d, rfl⟩)
  · rcases loadByte_fault.mp h with ⟨full, _⟩ | ⟨_, h⟩
    · exact absurd full (Nat.not_le.mpr (hs.rdi_lt (Bool.eq_false_of_not_eq_true ‹_›)))
    · cases h

theorem callbackCommand_listed {c : Upcall} {w : Word} (hs : s.InBounds)
    (h : callbackCommand c d w s = .fault e) : ListedFault e := by
  unfold callbackCommand at h
  split at h
  · split at h
    · exact callbackWrite_listed h
    · cases h
  · split at h
    · exact callbackRead_listed hs h
    · cases h
  · cases h
  · cases h

theorem runCallback_listed {c : Upcall} {ws : List Word} (hs : s.InBounds)
    (h : runCallback c d ws s = .fault e) : ListedFault e := by
  induction ws generalizing s with
  | nil => cases h
  | cons w ws ih =>
    rcases andThen_fault.mp h with h | ⟨u, hu, h⟩
    · exact callbackCommand_listed hs h
    · exact ih ((callbackCommand_writes hu).of_cursor.inBounds hs) h

/-- Before the callback's first command only a script is taken and the upcall emitted. -/
theorem upcall_inBounds (hs : s.InBounds) (x : PortEvent) : (s.takeScript.emit x).InBounds :=
  ((Writes.takeScript s).trans (.emit ..)).inBounds hs

theorem upOnRequest_listed (hs : s.InBounds) (h : execUpOnRequest d s = .fault e) :
    ListedFault e := runCallback_listed (upcall_inBounds hs _) h

theorem upOnReceive_listed {n : Byte} (hs : s.InBounds) (h : execUpOnReceive d n s = .fault e) :
    ListedFault e := runCallback_listed (upcall_inBounds hs _) h

theorem handleRequestSlave_listed (hs : s.InBounds) (h : execHandleRequestSlave d s = .fault e) :
    ListedFault e := by
  rcases andThen_fault.mp h with h | ⟨_, _, h⟩
  · unfold refillAnswer at h
    dsimp only at h
    split at h
    · rcases andThen_fault.mp h with h | ⟨_, _, h⟩
      · split at h
        · exact upOnRequest_listed hs h
        · cases h
      · cases h
    · cases h
  · exact .inl ⟨_, _, (serveAnswer_fault.mp h).2.2⟩

theorem evTransmit_listed (hs : s.InBounds) (h : execEvTransmit s = .fault e) : ListedFault e := by
  obtain ⟨d, _, ⟨_, h⟩ | ⟨_, h⟩⟩ := evTransmit_fault.mp h
  · exact .inl ⟨_, _, (transmitMaster_fault.mp h).2.2⟩
  · exact handleRequestSlave_listed ((Writes.found ..).inBounds hs) h

/-! ### Delivery never overruns (R76, R174) -/

/-- A block copy within both capacities does not fault. -/
theorem blockCopy_ne_fault {src dst : Buf} {n i : Nat} (hs : i + n ≤ src.cap s.cfg)
    (hd : i + n ≤ dst.cap s.cfg) : blockCopy src dst n i s ≠ .fault e := by
  induction n generalizing i s with
  | zero => exact nofun
  | succ n ih =>
    rw [blockCopy, loadByte_ok (by omega), storeByte_ok (by omega), andThen_ok]
    exact ih (by simpa using by omega) (by simpa using by omega)

theorem deliver_ne_fault (hs : s.InBounds) : deliver d s ≠ .fault e := by
  have le := (hs.bus (s.busOf d)).rxwi
  intro h
  rcases andThen_fault.mp h with h | ⟨_, _, h⟩
  · exact blockCopy_ne_fault (by simpa [Buf.cap] using le)
      (by simpa [Buf.cap] using le.trans hs.cfg.delivery) h
  · cases h

/-- R174: a fault of HANDLE_RECEIVE is one of the callback it tells, in Slave role. -/
theorem handleReceive_fault (hs : s.InBounds) (h : execHandleReceive d s = .fault e) :
    s.drv[d].role = .slave ∧ ListedFault e := by
  unfold execHandleReceive at h
  dsimp only at h
  split at h
  · obtain ⟨u, hu, h⟩ := (andThen_fault.mp h).resolve_left (deliver_ne_fault hs)
    split at h
    · have slave := (Bool.and_eq_true_iff.mp ‹(_ && _) = true›).1
      have role := ((deliver_kept hu).drv d).1
      have inBounds := (deliver_writes hu).of_cursor.inBounds hs
      exact ⟨role.symm.trans (beq_iff_eq.mp slave), upOnReceive_listed inBounds h⟩
    · cases h
  · cases h

/-! ### A dispatcher invocation -/

theorem evStop_listed (hs : s.InBounds) (h : execEvStop s = .fault e) : ListedFault e := by
  unfold execEvStop at h
  rw [withDriverOf_eq] at h
  split at h
  · split at h
    · cases h
    · split at h
      · cases h
      · exact (handleReceive_fault ((Writes.found ..).inBounds hs) h).2
  · cases h

theorem evNak_ne_fault : execEvNak s ≠ .fault e := by
  unfold execEvNak
  rw [withDriverOf_eq]
  split <;> exact nofun

theorem onCondition_fault {bit : Nat} {f : State → Result} (h : onCondition bit f s = .fault e) :
    f s = .fault e := by
  unfold onCondition at h
  split at h
  · exact h
  · cases h

theorem handleConditions_listed (hs : s.InBounds) (h : handleConditions s = .fault e) :
    ListedFault e := by
  have flags {f : State → Result} {bit : Nat} {u v : State} (hu : u.InBounds)
      (hf : ∀ {v}, f u = .next v → Writes False flagRule u v)
      (h : onCondition bit f u = .next v) : v.InBounds :=
    ((onCondition_writes hf h).mono fun _ _ _ _ => .inr).inBounds hu
  rcases andThen_fault.mp h with h | ⟨a, ha, h⟩
  · exact .inr (.inl ⟨_, _, (evReceive_fault.mp (onCondition_fault h)).2⟩)
  have ha := flags hs evReceive_writes ha
  rcases andThen_fault.mp h with h | ⟨b, hb, h⟩
  · exact evTransmit_listed ha (onCondition_fault h)
  have hb := flags ha evTransmit_writes hb
  rcases andThen_fault.mp h with h | ⟨c, hc, h⟩
  · exact absurd (onCondition_fault h) evNak_ne_fault
  · exact evStop_listed (flags hb evNak_writes hc) (onCondition_fault h)

theorem dispatch_listed {bus : Byte} (hs : s.InBounds) (h : execDispatch bus s = .fault e) :
    ListedFault e := by
  unfold execDispatch at h
  split at h
  · have begun : (beginDispatch bus.toFin s).InBounds := by
      constructor <;> simp only [beginDispatch_cfg, beginDispatch_bus, beginDispatch_drv]
      exacts [hs.cfg, hs.bus, hs.drv]
    rcases andThen_fault.mp h with h | ⟨_, _, h⟩
    · exact handleConditions_listed begun h
    · cases h
  · cases h

/-! ### A phase of a command -/

theorem holdQuery_ne_fault {query : State → State} {n : BitVec 4} :
    holdQuery query n s ≠ .fault e := nofun

theorem guard_ne_fault {c : Prop} [Decidable c] {op drv v : Byte} {u : State} :
    (if c then .next u else finish op drv v s) ≠ .fault e := by
  split <;> exact nofun

@[simp] theorem decrementTx_cfg (b : BusId) (s : State) : (decrementTx b s).cfg = s.cfg :=
  (Extends.decrementTx b s).cfg

/-- Index 0 of TXBUF exists (R76 (e)). -/
theorem startTransmission_ne_fault {stop : Bool} (hs : s.cfg.wf) :
    startTransmission d stop s ≠ .fault e := by
  unfold startTransmission
  dsimp only
  rw [loadByte_ok]
  · exact nofun
  · simpa [Buf.cap, halIssueStart, halCall, State.setTxcs, latchStop] using hs.start

theorem beginTransmission_ne_fault {a : Byte} : execBeginTransmission d a s ≠ .fault e := by
  unfold execBeginTransmission
  dsimp only
  split
  · exact guard_ne_fault
  · exact holdQuery_ne_fault
  · exact nofun
  · exact nofun

theorem endTransmission_ne_fault {stop : Bool} (hs : s.cfg.wf) :
    execEndTransmission d stop s ≠ .fault e := by
  unfold execEndTransmission
  dsimp only
  split
  · exact guard_ne_fault
  · exact holdQuery_ne_fault
  · intro h
    rcases andThen_fault.mp h with h | ⟨_, _, h⟩
    · exact startTransmission_ne_fault hs h
    · cases h
  · exact nofun

/-- R148: in Master role the delivery tells no callback. -/
theorem collectReceived_ne_fault (hs : s.InBounds) (master : s.drv[d].role = .master) :
    collectReceived d s ≠ .fault e := by
  intro h
  rcases andThen_fault.mp h with h | ⟨_, _, h⟩
  · split at h
    · cases h
    · cases master.symm.trans (handleReceive_fault hs h).1
  · cases h

theorem finishReceive_ne_fault (hs : s.InBounds) (master : s.drv[d].role = .master) :
    finishReceive d s ≠ .fault e := by
  intro h
  unfold finishReceive at h
  dsimp only at h
  split at h
  · cases h
  · rcases andThen_fault.mp h with h | ⟨_, _, h⟩
    · have inBounds : (halSetMode (s.busOf d) .transmit s).InBounds :=
        (Writes.emit ..).inBounds hs
      exact collectReceived_ne_fault inBounds master h
    · cases h

theorem requestFrom_ne_fault {a n : Byte} (hs : s.InBounds)
    (guarded : s.fg.phase ≠ 0 → s.drv[d].role = .master) :
    execRequestFrom d a n s ≠ .fault e := by
  unfold execRequestFrom
  dsimp only
  split
  · exact guard_ne_fault
  · exact holdQuery_ne_fault
  · intro h
    rcases andThen_fault.mp h with h | ⟨_, _, h⟩
    · exact startTransmission_ne_fault hs.cfg h
    · cases h
  · exact nofun
  · exact nofun
  · exact nofun
  · exact nofun
  · exact nofun
  · exact finishReceive_ne_fault hs (guarded (by rw [phase_eq (n := 8) ‹_›]; decide))
  · exact nofun

theorem read_ne_fault (hs : s.InBounds)
    (reading : s.fg.phase = 1 → s.cursorEmpty d = false) : execRead d s ≠ .fault e := by
  unfold execRead
  split
  · exact nofun
  · rw [popRead, loadByte_ok (hs.rdi_lt (reading (phase_eq (n := 1) ‹_›)))]
    exact nofun
  · exact nofun

theorem State.Inv.inBounds (inv : s.Inv) : s.InBounds := by
  obtain ⟨cfg, bus, drv, _⟩ := inv_iff.mp inv
  exact ⟨cfg, bus, drv⟩

/-- Of all commands only WRITE can fault, and only with an overrun of its TXBUF. -/
theorem exec_command_fault {i : Instr} (inv : s.Inv) (hi : s.inProgress = some i)
    (h : exec i s = .fault e) : (∃ d x, i = .write d x) ∧ ∃ b k, e = .overrun (.tx b) k := by
  have command : phaseCount i ≠ 0 := decodeCmd_phaseCount (inProgress_eq_some.mp hi).2
  cases i with
  | register | unregister | setSpeed | beginMaster | beginSlave | onRequest | onReceive => cases h
  | beginTransmission => exact absurd h beginTransmission_ne_fault
  | write d x => exact ⟨⟨d, x, rfl⟩, _, _, (execWrite_fault.mp h).2⟩
  | endTransmission => exact absurd h (endTransmission_ne_fault inv.cfg)
  | requestFrom d => exact absurd h (requestFrom_ne_fault inv.inBounds (inv.guarded _ d hi rfl))
  | read d => exact absurd h (read_ne_fault inv.inBounds (inv.reading d hi))
  | _ => exact absurd rfl command

/-! ### The step -/

theorem Settled.inv (h : Settled s t) (inv : s.Inv) : t.Inv := by
  obtain ⟨cfg, bus, drv, coherent⟩ := inv_iff.mp inv
  rw [inv_iff, h.cfg, h.bus, h.drv]
  exact ⟨cfg, bus, drv, h.coherent coherent⟩

/-- Settles O57: an invocation can end only in a listed fault, and of the commands only WRITE can
fault. -/
theorem faultsAriseOnlyWhereListed : Obligations.FaultsAriseOnlyWhereListed := by
  intro s f inv h
  rcases step_cases s inv.idle with ⟨bus, rest, _, due, hs⟩ | ⟨_, _, _, _, hs⟩ |
      ⟨_, ⟨i, _, _, hi, hs⟩ | ⟨_, _, _, hs⟩ | ⟨_, _, _, _, hs⟩ | ⟨_, _, hs⟩⟩ <;>
    rw [hs] at h
  · have event : s.dueEvent ≠ none := by simp [due]
    rcases dispatch_listed ((arrival_settled s rest).inv inv).inBounds h with
      ⟨b, k, hf⟩ | ⟨b, k, hf⟩ | ⟨d, hf⟩
    · exact .inl ⟨b, k, hf, .inl event⟩
    · exact .inr (.inl ⟨b, k, hf, event⟩)
    · exact .inr (.inr ⟨d, hf, event⟩)
  · cases h
  · obtain ⟨⟨d, x, rfl⟩, b, k, hf⟩ :=
      exec_command_fault ((tick_settled s).inv inv) (by simpa using hi) h
    exact .inl ⟨b, k, hf, .inr ⟨d, x, hi⟩⟩
  · cases h
  · cases h
  · cases h

end Sys2Proof.Machine

/-! SUPPORT. The statements of spec/30_encoding.md: the round trips between words and operations,
the illegal command words and their answer, and the handlers a status byte selects. -/

namespace Sys2Proof.Machine

/-! ### The word of an operation decodes (R101 to R105) -/

section
variable {p : Params} {i : Instr} {w : Word}

/-- R107: each check of the decoder reads the field its operand was packed in. -/
theorem decodeCmd_encode (wf : i.wellFormed p = true) (h : encode i = some (.cmd, w)) :
    decodeCmd p w = .ok i := by
  unfold decodeCmd
  cases i <;> cases h <;>
    simp only [cmdWord, byte3_pack, byte2_pack, byte1_pack, byte0_pack, indexByte_zero,
      needZero_zero, BitVec.reduceToNat]
  case register d bus =>
    simp only [Instr.wellFormed, Bool.and_eq_true, decide_eq_true_eq] at wf
    obtain ⟨⟨driver, exists_bus⟩, bound⟩ := wf
    exact (withDriver_indexByte driver _).trans
      ((withBus_indexByte exists_bus _).trans (if_pos bound))
  case unregister bus => exact withBus_indexByte wf _
  case setSpeed d speed =>
    exact (withDriver_indexByte wf _).trans
      ((withBit_boolByte _ _).trans (by rw [Speed.ofCode_code]))
  case onRequest d v | onReceive d v | endTransmission d v =>
    exact (withDriver_indexByte wf _).trans (withBit_boolByte _ _)
  case beginMaster d | beginSlave d _ | beginTransmission d _ | write d _ | requestFrom d _ _
      | read d =>
    exact withDriver_indexByte wf _

theorem decodeHal_encode (wf : i.wellFormed p = true) (h : encode i = some (.hal, w)) :
    decodeHal p w = .ok i := by
  unfold decodeHal
  cases i <;> cases h <;>
    simp only [halWord, byte3_pack, byte2_pack, byte1_pack, byte0_pack, needZero_zero,
      BitVec.reduceToNat] <;>
    refine (withBus_indexByte wf _).trans ?_
  case halInitMaster b speed => exact (withBit_boolByte _ _).trans (by rw [Speed.ofCode_code])
  case halSetMode b mode => exact (withBit_boolByte _ _).trans (by rw [Mode.ofCode_code])
  all_goals rfl

theorem decodeUpcall_encode (wf : i.wellFormed p = true) (h : encode i = some (.upcall, w)) :
    decodeUpcall p w = .ok i := by
  unfold decodeUpcall
  cases i <;> cases h <;>
    simp only [upcallWord, byte3_pack, byte2_pack, byte1_pack, byte0_pack, needZero_zero,
      BitVec.reduceToNat] <;>
    exact withDriver_indexByte wf _

end

theorem decodeEvent_encode {i : Instr} {w : Word} (h : encode i = some (.irq, w)) :
    decodeEvent w = .ok i := by
  cases i <;> cases h
  exact decodeEvent_eventWord _

theorem decodeStatus_encode {i : Instr} {w : Word} (h : encode i = some (.status, w)) :
    decodeStatus w = .ok i := by
  cases i <;> cases h <;> rfl

/-- Settles O1, port by port: every check passes on the word of a well-formed operation. -/
theorem decodeEncodeRoundTrip : Obligations.DecodeEncodeRoundTrip := by
  intro p i port w wf h
  cases port with
  | cmd => exact decodeCmd_encode wf h
  | hal => exact decodeHal_encode wf h
  | irq => exact decodeEvent_encode h
  | status => exact decodeStatus_encode h
  | upcall => exact decodeUpcall_encode wf h

/-! ### A word that decodes (R101 to R104, R111) -/

/-- A word is the word of an operation if it has its fields. -/
theorem wordOf_fields {port : Port} {w : Word} {c3 c2 c1 c0 : Byte}
    (h3 : (byte3 w).toNat = c3.toNat) (h2 : c2 = byte2 w) (h1 : c1 = byte1 w) (h0 : c0 = byte0 w) :
    some (port, pack c3 c2 c1 c0) = some (port, w) := by
  rw [← BitVec.eq_of_toNat_eq h3, h2, h1, h0, pack_bytes]

section
variable {P : Instr → Prop} {p : Params} {x : Byte}

/-! A check that passed, with the field it read. -/

theorem Names.ofZero {k : Except Reject Instr} (h : 0 = x → Names P k) :
    Names P (Sys2Proof.needZero x k) := fun i hi => by
  obtain ⟨hx, hk⟩ := needZero_ok hi
  exact h hx.symm i hk

theorem Names.ofDriver {k : DrvId → Except Reject Instr}
    (h : ∀ d, indexByte d = x → p.hasDriver d = true → Names P (k d)) :
    Names P (Sys2Proof.withDriver p x k) := fun i hi => by
  obtain ⟨d, hx, hd, hk⟩ := withDriver_ok hi
  exact h d hx hd i hk

theorem Names.ofBus {k : BusId → Except Reject Instr}
    (h : ∀ b, indexByte b = x → p.hasBus b = true → Names P (k b)) :
    Names P (Sys2Proof.withBus p x k) := fun i hi => by
  obtain ⟨b, hx, hb, hk⟩ := withBus_ok hi
  exact h b hx hb i hk

theorem Names.ofBit {k : Bool → Except Reject Instr} (h : ∀ v, boolByte v = x → Names P (k v)) :
    Names P (Sys2Proof.withBit x k) := fun i hi => by
  obtain ⟨v, hx, hk⟩ := withBit_ok hi
  exact h v hx i hk

end

theorem boolByte_speed (v : Bool) : boolByte (Speed.ofCode v).code = boolByte v := by
  rw [Speed.code_ofCode]

theorem boolByte_mode (v : Bool) : boolByte (Mode.ofCode v).code = boolByte v := by
  rw [Mode.code_ofCode]

section
variable {p : Params} {w : Word} {i : Instr}

/-- R107: every field of a command word is an operand or a fixed part of what it names. -/
theorem encode_decodeCmd (h : decodeCmd p w = .ok i) : encode i = some (.cmd, w) := by
  refine (?_ : Names (fun i => encode i = some (.cmd, w)) (decodeCmd p w)) i h
  unfold decodeCmd
  split
  case h_1 op =>
    refine .ofZero fun h0 => .ofDriver fun d h2 _ => .ofBus fun b h1 _ => ?_
    split
    · exact .ok (wordOf_fields op h2 h1 h0)
    · exact nofun
  case h_2 op =>
    exact .ofZero fun h0 => .ofZero fun h2 => .ofBus fun _ h1 _ => .ok (wordOf_fields op h2 h1 h0)
  case h_3 op =>
    exact .ofZero fun h1 => .ofDriver fun _ h2 _ => .ofBit fun v h0 =>
      .ok (wordOf_fields op h2 h1 ((boolByte_speed v).trans h0))
  case h_4 op | h_12 op =>
    exact .ofZero fun h1 => .ofZero fun h0 => .ofDriver fun _ h2 _ =>
      .ok (wordOf_fields op h2 h1 h0)
  case h_5 op | h_8 op | h_9 op =>
    exact .ofZero fun h0 => .ofDriver fun _ h2 _ => .ok (wordOf_fields op h2 rfl h0)
  case h_6 op | h_7 op | h_10 op =>
    exact .ofZero fun h1 => .ofDriver fun _ h2 _ => .ofBit fun _ h0 =>
      .ok (wordOf_fields op h2 h1 h0)
  case h_11 op => exact .ofDriver fun _ h2 _ => .ok (wordOf_fields op h2 rfl rfl)
  case h_13 => exact nofun

/-- R108, R111: the same of a HAL word, whose bus exists. -/
theorem encode_decodeHal (h : decodeHal p w = .ok i) :
    encode i = some (.hal, w) ∧ i.wellFormed p = true := by
  refine (?_ : Names (fun i => encode i = some (.hal, w) ∧ i.wellFormed p = true)
    (decodeHal p w)) i h
  refine .ofZero fun h1 => .ofBus fun b h2 hb => ?_
  split
  case h_1 hop =>
    exact .ofBit fun v h0 => .ok ⟨wordOf_fields hop h2 h1 ((boolByte_speed v).trans h0), hb⟩
  case h_5 hop =>
    exact .ofBit fun v h0 => .ok ⟨wordOf_fields hop h2 h1 ((boolByte_mode v).trans h0), hb⟩
  case h_2 hop | h_6 hop | h_9 hop | h_14 hop | h_15 hop =>
    exact .ok ⟨wordOf_fields hop h2 h1 rfl, hb⟩
  case h_3 hop | h_4 hop | h_7 hop | h_8 hop | h_10 hop | h_11 hop | h_12 hop | h_13 hop =>
    exact .ofZero fun h0 => .ok ⟨wordOf_fields hop h2 h1 h0, hb⟩
  case h_16 => exact nofun

/-- R104, R111: the same of an upcall word, whose driver exists. -/
theorem encode_decodeUpcall (h : decodeUpcall p w = .ok i) :
    encode i = some (.upcall, w) ∧ i.wellFormed p = true := by
  refine (?_ : Names (fun i => encode i = some (.upcall, w) ∧ i.wellFormed p = true)
    (decodeUpcall p w)) i h
  refine .ofZero fun h1 => .ofDriver fun d h2 hd => ?_
  split
  case h_1 uop => exact .ofZero fun h0 => .ok ⟨wordOf_fields uop h2 h1 h0, hd⟩
  case h_2 uop => exact .ok ⟨wordOf_fields uop h2 h1 rfl, hd⟩
  case h_3 => exact nofun

end

/-- Settles O2, port by port: only the STATUS byte has bits that no operation depends on. -/
theorem encodeDecodeRoundTrip : Obligations.EncodeDecodeRoundTrip := by
  intro p port w i not_status h
  cases port with
  | cmd => exact ⟨encode_decodeCmd h, decodeCmd_wellFormed h⟩
  | hal => exact encode_decodeHal h
  | irq =>
    obtain ⟨bus, rfl, rfl⟩ := decodeEvent_ok h
    exact ⟨rfl, rfl⟩
  | status => exact absurd rfl not_status
  | upcall => exact encode_decodeUpcall h

/-! ### What the decoder rejects (R107, R111) -/

/-- What was read names no operation. -/
def Rejected (x : Except Reject Instr) : Prop := ∀ i, x ≠ .ok i

section
variable {p : Params} {x : Byte}

@[simp] theorem rejected_ok (i : Instr) : ¬ Rejected (.ok i) := fun h => h i rfl

@[simp] theorem rejected_error (e : Reject) : Rejected (.error e) := nofun

@[simp] theorem rejected_check {c : Prop} [Decidable c] {k : Except Reject Instr} {e : Reject} :
    Rejected (if c then k else .error e) ↔ ¬ c ∨ Rejected k := by
  split <;> simp [*]

@[simp] theorem rejected_needZero {k : Except Reject Instr} :
    Rejected (needZero x k) ↔ ¬ x = 0#8 ∨ Rejected k :=
  rejected_check

@[simp] theorem rejected_withDriver {k : DrvId → Except Reject Instr} :
    Rejected (withDriver p x k) ↔ p.numDrivers ≤ x.toNat ∨ Rejected (k x.toFin) :=
  rejected_check.trans (by simp [Params.hasDriver])

@[simp] theorem rejected_withBus {k : BusId → Except Reject Instr} :
    Rejected (withBus p x k) ↔ p.numBuses ≤ x.toNat ∨ Rejected (k x.toFin) :=
  rejected_check.trans (by simp [Params.hasBus])

/-- R106: an option has no bit but bit 0. -/
theorem option_bits (x : Byte) : x &&& 254#8 = 0#8 ↔ x = 0 ∨ x = 1 := by
  revert x; decide

/-- An option that is free to take either value is rejected for its bits 7:1 alone. -/
@[simp] theorem rejected_withBit {k : Bool → Except Reject Instr} (hk : ∀ v, ¬ Rejected (k v)) :
    Rejected (withBit x k) ↔ ¬ x &&& 254#8 = 0#8 := by
  rw [option_bits, not_or]
  unfold withBit
  split
  case isTrue zero => exact iff_of_false (hk _) fun h => h.1 zero
  case isFalse zero => rw [rejected_check, or_iff_left (hk _), and_iff_right zero]

end

/-! ### The illegal command words (R107, R111) -/

theorem pack_eq_zero {c2 c1 c0 : Byte} :
    pack 0 c2 c1 c0 = 0 ↔ c2 = 0#8 ∧ c1 = 0#8 ∧ c0 = 0#8 := by
  constructor
  · intro h
    exact ⟨(byte2_pack ..).symm.trans (congrArg byte2 h),
      (byte1_pack ..).symm.trans (congrArg byte1 h), (byte0_pack ..).symm.trans (congrArg byte0 h)⟩
  · rintro ⟨rfl, rfl, rfl⟩
    rfl

/-- A word meets a mask that leaves OP free if one of its other fields does. -/
theorem masked_ne_zero {w : Word} {m2 m1 m0 : Byte} :
    w &&& pack 0 m2 m1 m0 ≠ 0 ↔
      ¬ byte2 w &&& m2 = 0#8 ∨ ¬ byte1 w &&& m1 = 0#8 ∨ ¬ byte0 w &&& m0 = 0#8 := by
  have fields : w &&& pack 0 m2 m1 m0 =
      pack 0 (byte2 w &&& m2) (byte1 w &&& m1) (byte0 w &&& m0) := by
    conv_lhs => rw [← pack_bytes w, Laws.TableRow.pack_and, Laws.TableRow.free_field _ rfl rfl]
  rw [Ne, fields, pack_eq_zero, not_and_or, not_and_or]

@[simp] theorem and_fullByte (x : Byte) : x &&& 255#8 = x := BitVec.and_allOnes

theorem indexByte_eq_iff {i : Fin 256} {x : Byte} : indexByte i = x ↔ i = x.toFin :=
  ⟨fun h => h ▸ rfl, fun h => h ▸ rfl⟩

section
variable {p : Params} {w : Word}

theorem illegalCommand_of_register (op : byte3 w = 1) :
    illegalCommand p w ↔
      ¬ byte0 w = 0#8 ∨ p.numDrivers ≤ (byte2 w).toNat ∨ p.numBuses ≤ (byte1 w).toNat ∨
        p.busOf[(byte2 w).toFin] ≠ (byte1 w).toFin := by
  have mask : commandZeroMask (byte3 w) = pack 0 0 0 0xFF := by rw [op]; rfl
  unfold illegalCommand
  rw [mask, masked_ne_zero]
  simp [op, indexByte_eq_iff]

theorem illegalCommand_of_unregister (op : byte3 w = 2) :
    illegalCommand p w ↔
      ¬ byte0 w = 0#8 ∨ ¬ byte2 w = 0#8 ∨ p.numBuses ≤ (byte1 w).toNat := by
  have mask : commandZeroMask (byte3 w) = pack 0 0xFF 0 0xFF := by rw [op]; rfl
  unfold illegalCommand
  rw [mask, masked_ne_zero]
  simp [op, or_assoc, or_left_comm]

/-- The commands 0x03 to 0x0C: a bit of A or B that the table fixes is set, or the driver does not
exist. -/
theorem illegalCommand_of_driver {n : Nat} {m1 m0 : Byte} (op : (byte3 w).toNat = n)
    (range : 3 ≤ n ∧ n < 13) (mask : commandZeroMask (BitVec.ofNat 8 n) = pack 0 0 m1 m0) :
    illegalCommand p w ↔
      ¬ byte1 w &&& m1 = 0#8 ∨ ¬ byte0 w &&& m0 = 0#8 ∨ p.numDrivers ≤ (byte2 w).toNat := by
  subst op
  have h0 : byte3 w ≠ 0#8 := by bv_omega
  have h1 : byte3 w ≠ 1#8 := by bv_omega
  have h2 : byte3 w ≠ 2#8 := by bv_omega
  have h13 : ¬ 13#8 ≤ byte3 w := by bv_omega
  rw [BitVec.ofNat_toNat, BitVec.setWidth_eq] at mask
  unfold illegalCommand
  rw [mask, masked_ne_zero]
  simp [h0, h1, h2, h13, or_assoc]

/-- R111: the checks of each row of the decoder are the conditions of that row. -/
theorem rejected_decodeCmd : Rejected (decodeCmd p w) ↔ illegalCommand p w := by
  unfold decodeCmd
  split
  case h_1 op =>
    rw [illegalCommand_of_register (BitVec.eq_of_toNat_eq op)]
    simp
  case h_2 op =>
    rw [illegalCommand_of_unregister (BitVec.eq_of_toNat_eq op)]
    simp
  case h_3 op | h_6 op | h_7 op | h_10 op =>
    rw [illegalCommand_of_driver (m1 := 0xFF) (m0 := 0xFE) op (by decide) rfl]
    simp [or_comm]
  case h_4 op | h_12 op =>
    rw [illegalCommand_of_driver (m1 := 0xFF) (m0 := 0xFF) op (by decide) rfl]
    simp
  case h_5 op | h_8 op | h_9 op =>
    rw [illegalCommand_of_driver (m1 := 0) (m0 := 0xFF) op (by decide) rfl]
    simp
  case h_11 op =>
    rw [illegalCommand_of_driver (m1 := 0) (m0 := 0) op (by decide) rfl]
    simp
  case h_13 =>
    refine iff_of_true (rejected_error _) ?_
    have outside : (byte3 w).toNat = 0 ∨ 13 ≤ (byte3 w).toNat := by
      simp only [imp_false] at *
      omega
    rcases outside with zero | high
    · exact .inl (BitVec.eq_of_toNat_eq zero)
    · exact .inr (.inl high)

theorem acceptCommand_of_illegal {s : State} (h : illegalCommand s.cfg w) :
    acceptCommand w s = respondIllegal w s := by
  unfold acceptCommand
  split
  case h_1 legal => exact absurd legal (rejected_decodeCmd.mpr h _)
  case h_2 => rfl

end

/-- Settles O4, row by row of the table. -/
theorem illegalCommandsAreExactlyTheListed : Obligations.IllegalCommandsAreExactlyTheListed :=
  fun _ _ => rejected_decodeCmd

/-- Settles O9: of the moves of a step only that of the CMD port is left, and it answers. -/
theorem stepOnlyAnswersAnIllegalCommand : Obligations.StepOnlyAnswersAnIllegalCommand := by
  intro s w rest ha hd hb hc illegal
  have answered : acceptCommand w { tick s with cmd := rest } =
      respondIllegal w { tick s with cmd := rest } :=
    acceptCommand_of_illegal (by rwa [← tick_cfg s] at illegal)
  rcases step_cases s ha with ⟨_, _, _, due, _⟩ | ⟨_, _, _, due, _⟩ |
      ⟨_, ⟨_, busy, _⟩ | ⟨_, busy, _⟩ | ⟨w', rest', _, hc', hs⟩ | ⟨_, hc', _⟩⟩
  · cases hd.symm.trans due
  · cases hd.symm.trans due
  · cases hb.symm.trans busy
  · cases hb.symm.trans busy
  · cases hc.symm.trans hc'
    rw [hs, answered, ← tick_out s]
    rfl
  · cases hc.symm.trans hc'

/-! ### The words of the vectors, and the status byte (R105, R190) -/

/-- Settles O3: the legal words are the words of well-formed operations, so the round trip decodes
them; the illegal ones are evaluated. -/
theorem knownWordsDecode : Obligations.KnownWordsDecode :=
  ⟨decodeCmd_encode rfl rfl, decodeCmd_encode rfl rfl, decodeCmd_encode rfl rfl,
    decodeCmd_encode rfl rfl, decodeCmd_encode rfl rfl, decodeCmd_encode rfl rfl,
    decodeCmd_encode rfl rfl, by decide, by decide, by decide, by decide,
    decodeHal_encode rfl rfl, decodeEvent_encode rfl, decodeUpcall_encode rfl rfl⟩

theorem sublist_of_bit (v : Bool) (i : Instr) : (if v then [i] else []).Sublist [i] := by
  cases v <;> simp

/-- Settles O5: each handler is listed for its own bit alone, and the mask keeps those bits. -/
theorem statusByteSelectsHandlers : Obligations.StatusByteSelectsHandlers := by
  intro x
  unfold statusHandlers
  refine ⟨by simp, by simp, by simp, by simp, ?_, by simp⟩
  exact (((sublist_of_bit _ _).append (sublist_of_bit _ _)).append (sublist_of_bit _ _)).append
    (sublist_of_bit _ _)

end Sys2Proof.Machine

/-! SUPPORT. The statements of spec/40_registry.md: what the commands of the registry write. -/

namespace Sys2Proof.Machine

/-! ### Completion of a command (R42, R102) -/

/-- The whole state a completed command leaves: the sequencer is free, and one response word, with
ILL = 0, is on the port. -/
theorem finish_eq (op drv val : Byte) (s : State) :
    finish op drv val s = .next { s with
      fg := { s.fg with busy := false }
      out := s.out ++ [.rsp (pack op drv 0 val)] } := rfl

/-! ### The commands of the registry (R130, R131) -/

theorem exec_register (d : DrvId) (bus : BusId) (s : State) :
    exec (.register d bus) s =
      finish 0x01 (indexByte d) 0 (s.setReg bus { valid := true, drv := d }) := rfl

theorem exec_unregister (bus : BusId) (s : State) :
    exec (.unregister bus) s =
      finish 0x02 0 0 (s.setReg bus { s.reg[bus] with valid := false }) := rfl

/-- Settles O13: each command writes its entry and completes, at any phase. -/
theorem registryCommandsWriteOneEntry : Obligations.RegistryCommandsWriteOneEntry := by
  intro s d bus
  constructor
  · rw [exec_register, finish_eq]
    rfl
  · rw [exec_unregister, finish_eq]
    rfl

end Sys2Proof.Machine

/-! SUPPORT. The statements of spec/41_master_commands.md and of the configuration commands of
spec/42_slave_commands.md: what each command does, phase by phase. -/

namespace Sys2Proof.Machine

/-! ### Updates of one register file entry, one after the other -/

@[simp] theorem State.setBus_setBus (s : State) (b : BusId) (r r' : BusRegs) :
    (s.setBus b r).setBus b r' = s.setBus b r' :=
  congrArg (fun v => { s with bus := v }) (vector_set_set s.bus b r r')

@[simp] theorem State.setDrv_setDrv (s : State) (d : DrvId) (r r' : DrvRegs) :
    (s.setDrv d r).setDrv d r' = s.setDrv d r' :=
  congrArg (fun v => { s with drv := v }) (vector_set_set s.drv d r r')

theorem State.setTxwi_setTxcs (s : State) (b : BusId) (n m : Idx) :
    (s.setTxcs b n).setTxwi b m = s.setBus b { s.bus[b] with txcs := n, txwi := m } := by
  simp only [State.setTxwi, State.setTxcs, State.setBus_bus, vector_get_set_self,
    State.setBus_setBus]

theorem State.setRxcs_setRxwi (s : State) (b : BusId) (n m : Idx) :
    (s.setRxwi b n).setRxcs b m = s.setBus b { s.bus[b] with rxwi := n, rxcs := m } := by
  simp only [State.setRxwi, State.setRxcs, State.setBus_bus, vector_get_set_self,
    State.setBus_setBus]

theorem State.setRxwi_setRxcs (s : State) (b : BusId) (n m : Idx) :
    (s.setRxcs b n).setRxwi b m = s.setBus b { s.bus[b] with rxwi := m, rxcs := n } := by
  simp only [State.setRxwi, State.setRxcs, State.setBus_bus, vector_get_set_self,
    State.setBus_setBus]

/-! ### The guards (R34, R88, R30) -/

theorem isMaster_iff {s : State} {d : DrvId} : s.isMaster d = true ↔ s.drv[d].role = .master :=
  beq_iff_eq

theorem txIdle_iff {s : State} {b : BusId} : s.txIdle b = true ↔ s.bus[b].txwi = 0 := beq_iff_eq

theorem cursorEmpty_iff {s : State} {d : DrvId} :
    s.cursorEmpty d = true ↔ s.drv[d].rdi = 0 ∧ s.drv[d].rdl = 0 := by
  simp only [State.cursorEmpty, Bool.and_eq_true, beq_iff_eq]

/-- R146: what END_TRANSMISSION asks before it starts. -/
theorem mayTransmit_iff {s : State} {d : DrvId} {b : BusId} :
    (s.isMaster d && !s.txIdle b) = true ↔ s.drv[d].role = .master ∧ s.bus[b].txwi ≠ 0 := by
  rw [Bool.and_eq_true, isMaster_iff, Bool.not_eq_true', ← Bool.not_eq_true, txIdle_iff]

/-- R142: no address is programmed exactly if the same one is cached. -/
theorem mustProgram_eq_false {s : State} {d : DrvId} {a : Byte} :
    s.mustProgram d a = false ↔ s.drv[d].addrv = true ∧ s.drv[d].addr = a.toNat := by
  simp only [State.mustProgram, Bool.or_eq_false_iff, Bool.not_eq_false', bne_eq_false_iff_eq]

/-! ### The single-phase commands (R140, R141, R144, R170 to R172) -/

/-- Settles O15: each command writes its register and completes, at any phase. -/
theorem configurationCommandsWriteOneRegister :
    Obligations.ConfigurationCommandsWriteOneRegister := fun _ _ _ _ =>
  ⟨finish_eq .., finish_eq .., finish_eq ..⟩

theorem exec_beginMaster (d : DrvId) (s : State) :
    exec (.beginMaster d) s = finish 0x04 (indexByte d) 0
      (halEnableInterruptSources (s.busOf d) s.cfg.masterIrqMask
        (halEnableModule (s.busOf d)
          (halInitMaster (s.busOf d) s.drv[d].speed
            (s.setDrv d { s.drv[d] with role := .master, addrv := false })))) := by
  show finish _ _ _ (halEnableInterruptSources _ _ (halEnableModule _ (halInitMaster _ _ _))) = _
  rw [State.setDrv_drv, vector_get_set_self]
  rfl

theorem exec_beginSlave (d : DrvId) (addr : Byte) (s : State) :
    exec (.beginSlave d addr) s = finish 0x05 (indexByte d) 0
      (halEnableInterruptSources (s.busOf d) s.cfg.slaveIrqMask
        (halEnableModule (s.busOf d)
          (halInitSlave (s.busOf d) addr
            (s.setDrv d
              { s.drv[d] with role := .slave, addr := addr.toNat, addrv := true })))) := by
  have cached : cacheAddress d addr (s.setDrv d { s.drv[d] with role := .slave }) =
      s.setDrv d { s.drv[d] with role := .slave, addr := addr.toNat, addrv := true } := by
    simp only [cacheAddress, State.setDrv_drv, vector_get_set_self, State.setDrv_setDrv]
  rw [← cached]
  rfl

theorem exec_write {s : State} {d : DrvId} (h : s.bus[s.busOf d].txwi < s.cfg.txCap) (x : Byte) :
    exec (.write d x) s = finish 0x09 (indexByte d) 0 { s with
      mem := Memory.write s.mem (Buf.loc (.tx (s.busOf d)) s.bus[s.busOf d].txwi) x
      bus := s.bus.set (s.busOf d)
        { s.bus[s.busOf d] with txwi := s.bus[s.busOf d].txwi + 1 } } := by
  show andThen (appendTx (s.busOf d) x s) _ = _
  rw [appendTx_next.mpr ⟨h, rfl⟩, andThen_ok]

/-- Settles O16: the words of each command stand in the order of its calls. -/
theorem beginCommandsConfigureTheBus : Obligations.BeginCommandsConfigureTheBus := by
  intro s d addr
  constructor
  · rw [exec_beginMaster, finish_eq]
    simp [halEnableInterruptSources, halEnableModule, halInitMaster, halCall, State.emit,
      State.setDrv]
  · rw [exec_beginSlave, finish_eq]
    simp [halEnableInterruptSources, halEnableModule, halInitSlave, halCall, State.emit,
      State.setDrv]

/-- Settles O18: the append fits below the capacity, and the command completes. -/
theorem writeAppendsAByte : Obligations.WriteAppendsAByte := by
  intro s d x below
  rw [exec_write below, finish_eq]

/-! ### The phases of BEGIN_TRANSMISSION (R142) -/

/-- R46: the hold asks once, takes one answer, and stays in its phase while bit 0 of it is set. -/
theorem holdQuery_eq {s : State} {now : BitVec 4} (h : s.fg.phase = now) (hop : Byte) (b : BusId)
    (next : BitVec 4) :
    holdQuery (halQuery hop b) next s = .next { s.takeAnswer with
      fg := { s.fg with phase := if s.nextAnswer.getLsbD 0 = true then now else next }
      out := s.out ++
        [.hal (halWord hop b 0) (some (pack hop (indexByte b) 0 s.nextAnswer))] } := by
  subst h
  cases hb : s.nextAnswer.getLsbD 0 <;>
    simp [holdQuery, answerBit, hb, halQuery, goto, State.emit, State.setFg, halReturnWord,
      -BitVec.getLsbD_eq_getElem]

section
variable {s : State} {d : DrvId}

theorem beginTransmission_guard (a : Byte) (h : s.fg.phase = 0) :
    exec (.beginTransmission d a) s =
      if s.isMaster d then .next (goto 1 s) else finish 0x08 (indexByte d) 0 s := by
  simp only [exec, execBeginTransmission, h]
  rfl

theorem beginTransmission_hold (a : Byte) (h : s.fg.phase = 1) :
    exec (.beginTransmission d a) s = holdQuery (halQuery 0x0C (s.busOf d)) 2 s := by
  simp only [exec, execBeginTransmission, h]
  rfl

theorem beginTransmission_address (a : Byte) (h : s.fg.phase = 2) :
    exec (.beginTransmission d a) s = finish 0x08 (indexByte d) 0
      (if s.mustProgram d a then cacheAddress d a (halSetTargetAddress (s.busOf d) a s)
        else s) := by
  simp only [exec, execBeginTransmission, h]
  rfl

end

/-- Settles O17, phase by phase. -/
theorem beginTransmissionPhases : Obligations.BeginTransmissionPhases := by
  intro s d a
  refine ⟨fun h0 other => ?_, fun h0 master => ?_, fun h1 => ?_, fun h2 valid same => ?_,
    fun h2 differs => ?_⟩
  · rw [beginTransmission_guard a h0, if_neg (mt isMaster_iff.mp other), finish_eq]
  · rw [beginTransmission_guard a h0, if_pos (isMaster_iff.mpr master)]
    rfl
  · rw [beginTransmission_hold a h1, holdQuery_eq h1]
  · rw [beginTransmission_address a h2,
      if_neg (Bool.not_eq_true _ ▸ mustProgram_eq_false.mpr ⟨valid, same⟩), finish_eq]
  · have program : s.mustProgram d a = true := by
      rw [← Bool.not_eq_false, mustProgram_eq_false]
      rintro ⟨valid, same⟩
      exact differs.elim (fun h => absurd valid (by simp [-Fin.getElem_fin, h])) (· same)
    rw [beginTransmission_address a h2, if_pos program, finish_eq]
    simp [cacheAddress, halSetTargetAddress, halCall, State.emit, State.setDrv]

/-! ### The start of a transmission (R86, R146, R148) -/

/-- R86: the count goes down by one; from 0 it becomes some value of its width (log entry 7). -/
theorem decrementTx_eq (b : BusId) (s : State) :
    ∃ v k, decrementTx b s = { s.setTxwi b v with draws := k } ∧
      (s.bus[b].txwi ≠ 0 → v = s.bus[b].txwi - 1 ∧ k = s.draws) ∧
      (s.bus[b].txwi = 0 → v < 2 ^ s.cfg.idxw) := by
  rcases decrementTx_cases b s with ⟨busy, h⟩ | ⟨idle, h⟩
  · exact ⟨_, s.draws, h, fun _ => ⟨rfl, rfl⟩, fun idle => absurd idle busy⟩
  · exact ⟨_, _, h, fun busy => absurd idle busy, fun _ => Nat.mod_lt _ (Nat.two_pow_pos _)⟩

/-- The start with a transmit buffer that has an index 0: SENDSTOP, TXCS and the count are written,
then start and first byte go out. -/
theorem startTransmission_ok {s : State} (d : DrvId) (stop : Bool) (h : 0 < s.cfg.txCap) :
    ∃ v k, startTransmission d stop s = .next { s with
        drv := s.drv.set d { s.drv[d] with sendstop := stop }
        bus := s.bus.set (s.busOf d)
          { s.bus[s.busOf d] with txcs := s.bus[s.busOf d].txwi, txwi := v }
        draws := k
        out := s.out ++
          [.hal (halWord 0x07 (s.busOf d) 0) none,
           .hal (halWord 0x09 (s.busOf d) (s.byteAt (.tx (s.busOf d)) 0)) none
             (some s.drv[d].role)] } ∧
      (s.bus[s.busOf d].txwi ≠ 0 → v = s.bus[s.busOf d].txwi - 1 ∧ k = s.draws) ∧
      (s.bus[s.busOf d].txwi = 0 → v < 2 ^ s.cfg.idxw) := by
  obtain ⟨v, k, hv, counts, free⟩ := decrementTx_eq (s.busOf d)
    ((s.setDrv d { s.drv[d] with sendstop := stop }).setTxcs (s.busOf d) s.bus[s.busOf d].txwi)
  refine ⟨v, k, ?_, by simpa [State.setTxcs] using counts, by simpa [State.setTxcs] using free⟩
  unfold startTransmission latchStop
  dsimp only [State.setDrv_bus]
  rw [hv, State.setTxwi_setTxcs]
  refine (loadByte_ok (by exact h) _).trans ?_
  simp [halSendNextByte, halIssueStart, halCall, State.emit, State.setDrv, State.setBus,
    State.byteAt]

/-! ### The phases of END_TRANSMISSION (R146) -/

section
variable {s : State} {d : DrvId}

theorem endTransmission_guard (stop : Bool) (h : s.fg.phase = 0) :
    exec (.endTransmission d stop) s =
      if s.isMaster d && !s.txIdle (s.busOf d) then .next (goto 1 s)
      else finish 0x0A (indexByte d) 0 s := by
  simp only [exec, execEndTransmission, h]
  rfl

theorem endTransmission_hold (stop : Bool) (h : s.fg.phase = 1) :
    exec (.endTransmission d stop) s = holdQuery (halQuery 0x0B (s.busOf d)) 2 s := by
  simp only [exec, execEndTransmission, h]
  rfl

theorem endTransmission_start (stop : Bool) (h : s.fg.phase = 2) :
    exec (.endTransmission d stop) s =
      andThen (startTransmission d stop s) (finish 0x0A (indexByte d) 0) := by
  simp only [exec, execEndTransmission, h]
  rfl

end

/-- Settles O20, phase by phase. -/
theorem endTransmissionGuardAndHold : Obligations.EndTransmissionGuardAndHold := by
  intro s d stop
  refine ⟨fun h0 fails => ?_, fun h0 master busy => ?_, fun h1 => ?_⟩
  · have closed : ¬(s.isMaster d && !s.txIdle (s.busOf d)) = true := fun passed =>
      have ⟨master, busy⟩ := mayTransmit_iff.mp passed
      fails.elim (· master) busy
    rw [endTransmission_guard stop h0, if_neg closed, finish_eq]
  · rw [endTransmission_guard stop h0, if_pos (mayTransmit_iff.mpr ⟨master, busy⟩)]
    rfl
  · rw [endTransmission_hold stop h1, holdQuery_eq h1]

/-- Settles O21: with something written the count is TXWI - 1, and the command completes. -/
theorem endTransmissionStarts : Obligations.EndTransmissionStarts := by
  intro s d stop h2 cap busy
  obtain ⟨v, k, started, counts, -⟩ := startTransmission_ok d stop cap
  obtain ⟨rfl, rfl⟩ := counts busy
  rw [endTransmission_start stop h2, started, andThen_ok, finish_eq]
  simp

/-! ### The phases of REQUEST_FROM (R148) -/

section
variable {s : State} {d : DrvId} (a n : Byte)

theorem requestFrom_guard (h : s.fg.phase = 0) :
    exec (.requestFrom d a n) s =
      if s.isMaster d then .next (goto (if s.txIdle (s.busOf d) then 4 else 1) s)
      else finish 0x0B (indexByte d) 0 s := by
  simp only [exec, execRequestFrom, h]
  rfl

theorem requestFrom_hold (h : s.fg.phase = 1) :
    exec (.requestFrom d a n) s = holdQuery (halQuery 0x0B (s.busOf d)) 2 s := by
  simp only [exec, execRequestFrom, h]
  rfl

theorem requestFrom_flush (h : s.fg.phase = 2) :
    exec (.requestFrom d a n) s =
      andThen (startTransmission d false s) fun s => .next (goto 3 s) := by
  simp only [exec, execRequestFrom, h]
  rfl

theorem requestFrom_awaitFlush (h : s.fg.phase = 3) :
    exec (.requestFrom d a n) s = .next (if s.drv[d].sendstop then goto 4 s else s) := by
  simp only [exec, execRequestFrom, h]
  rfl

theorem requestFrom_startReceive (h : s.fg.phase = 4) :
    exec (.requestFrom d a n) s = .next (goto 5 (startReceive d a n s)) := by
  simp only [exec, execRequestFrom, h]
  rfl

theorem requestFrom_stopOneByte (h : s.fg.phase = 5) :
    exec (.requestFrom d a n) s =
      .next (goto 6 (if n = 1 then halIssueStop (s.busOf d) s else s)) := by
  simp only [exec, execRequestFrom, h]
  rfl

theorem requestFrom_clearFlags (h : s.fg.phase = 6) :
    exec (.requestFrom d a n) s = .next (goto 7 (clearRequest d s)) := by
  simp only [exec, execRequestFrom, h]
  rfl

theorem requestFrom_awaitReceive (h : s.fg.phase = 7) :
    exec (.requestFrom d a n) s = .next (if s.drv[d].reqdone then goto 8 s else s) := by
  simp only [exec, execRequestFrom, h]
  rfl

theorem requestFrom_finish (h : s.fg.phase = 8) :
    exec (.requestFrom d a n) s = finishReceive d s := by
  simp only [exec, execRequestFrom, h]
  rfl

end

theorem startReceive_eq (d : DrvId) (a n : Byte) (s : State) :
    startReceive d a n s = { s with
      drv := s.drv.set d { s.drv[d] with addr := a.toNat, addrv := true }
      bus := s.bus.set (s.busOf d) { s.bus[s.busOf d] with rxcs := n.toNat, rxwi := 0 }
      out := s.out ++
        [.hal (halWord 0x06 (s.busOf d) a) none, .hal (halWord 0x05 (s.busOf d) 1) none,
         .hal (halWord 0x07 (s.busOf d) 0) none] } := by
  unfold startReceive
  dsimp only
  rw [State.setRxwi_setRxcs]
  simp [cacheAddress, halSetTargetAddress, halSetMode, halIssueStart, halCall, State.emit,
    State.setDrv, State.setBus, Mode.code, boolByte]

/-- Settles O22: the start runs, whatever value of its width the count takes. -/
theorem startOnEmptyBufferStillRuns : Obligations.StartOnEmptyBufferStillRuns := by
  intro s d stop a n h2 cap idle
  constructor
  · obtain ⟨v, k, started, -, free⟩ := startTransmission_ok d stop cap
    refine ⟨_, by rw [endTransmission_start stop h2, started, andThen_ok, finish_eq], rfl, rfl,
      ?_, ?_, ?_⟩
    · simpa using idle
    · simpa using free idle
    · simp
  · obtain ⟨v, k, started, -, free⟩ := startTransmission_ok d false cap
    refine ⟨_, by rw [requestFrom_flush a n h2, started, andThen_ok], rfl, rfl, ?_, ?_, rfl⟩
    · simpa [goto] using idle
    · simpa [goto] using free idle

/-- Settles O23, phase by phase. -/
theorem requestFromFlushesFirst : Obligations.RequestFromFlushesFirst := by
  intro s d a n
  refine ⟨fun h0 other => ?_, fun h0 master => ?_, fun h1 => ?_, fun h2 cap busy => ?_,
    fun h3 pending => ?_, fun h3 flushed => ?_⟩
  · rw [requestFrom_guard a n h0, if_neg (mt isMaster_iff.mp other), finish_eq]
  · rw [requestFrom_guard a n h0, if_pos (isMaster_iff.mpr master)]
    simp only [txIdle_iff]
    rfl
  · rw [requestFrom_hold a n h1, holdQuery_eq h1]
  · obtain ⟨v, k, started, counts, -⟩ := startTransmission_ok d false cap
    obtain ⟨rfl, rfl⟩ := counts busy
    rw [requestFrom_flush a n h2, started, andThen_ok]
    rfl
  · rw [requestFrom_awaitFlush a n h3, if_neg (Bool.not_eq_true _ ▸ pending)]
  · rw [requestFrom_awaitFlush a n h3, if_pos flushed]
    rfl

/-- Settles O24, phase by phase. -/
theorem requestFromStartsTheReceive : Obligations.RequestFromStartsTheReceive := by
  intro s d a n
  refine ⟨fun h4 => ?_, fun h5 => ?_, fun h6 => ?_, fun h7 waiting => ?_, fun h7 done => ?_⟩
  · rw [requestFrom_startReceive a n h4, startReceive_eq]
    rfl
  · rw [requestFrom_stopOneByte a n h5]
    split <;> rfl
  · rw [requestFrom_clearFlags a n h6]
    rfl
  · rw [requestFrom_awaitReceive a n h7, if_neg (Bool.not_eq_true _ ▸ waiting)]
  · rw [requestFrom_awaitReceive a n h7, if_pos done]
    rfl

/-- Settles O25: the NAK branch of phase 8. -/
theorem requestFromReturnsZeroOnNak : Obligations.RequestFromReturnsZeroOnNak := by
  intro s d a n h8 nak
  rw [requestFrom_finish a n h8]
  unfold finishReceive
  refine (if_pos (by exact nak)).trans ?_
  rw [discardReceived, State.setRxcs_setRxwi, finish_eq]
  simp [clearRequest, halSetMode, halCall, State.emit, State.setDrv, State.setBus, Mode.code,
    boolByte]

/-! ### The phases of READ (R149) -/

section
variable {s : State} {d : DrvId}

theorem read_hold (h : s.fg.phase = 0) :
    exec (.read d) s = .next (if s.cursorEmpty d then s else goto 1 s) := by
  simp only [exec, execRead, h]
  rfl

theorem read_pop (h : s.fg.phase = 1) (below : s.drv[d].rdi < s.cfg.rdCap) :
    exec (.read d) s =
      finish 0x0C (indexByte d) (s.byteAt (.rd d) s.drv[d].rdi) (s.popCursor d) := by
  have pops : exec (.read d) s = popRead d s fun v s => finish 0x0C (indexByte d) v s := by
    simp only [exec, execRead, h]
    rfl
  rw [pops]
  exact popRead_next.mpr ⟨below, rfl⟩

end

/-- The cursor after a pop, both registers at once. -/
theorem popCursor_eq (d : DrvId) (s : State) :
    s.popCursor d = s.setCursor d
      (if s.drv[d].rdi + 1 = s.drv[d].rdl then 0 else s.drv[d].rdi + 1)
      (if s.drv[d].rdi + 1 = s.drv[d].rdl then 0 else s.drv[d].rdl) := by
  unfold State.popCursor
  split <;> rfl

/-- Settles O27: the hold of phase 0, then the pop of phase 1. -/
theorem readPopsTheCursor : Obligations.ReadPopsTheCursor := by
  intro s d
  refine ⟨fun h0 rdi rdl => ?_, fun h0 message => ?_, fun h1 below => ?_⟩
  · rw [read_hold h0, if_pos (cursorEmpty_iff.mpr ⟨rdi, rdl⟩)]
  · rw [read_hold h0, if_neg (by rw [cursorEmpty_iff]; tauto)]
    rfl
  · rw [read_pop h1 below, popCursor_eq, finish_eq]
    rfl

/-! ### The end of REQUEST_FROM (R148, R174, R286) -/

theorem State.setDrv_same (s : State) (d : DrvId) : s.setDrv d s.drv[d] = s :=
  congrArg (fun v => { s with drv := v }) (vector_set_same s.drv d)

section
variable {s : State} {d : DrvId}

/-- The length of the message the cursor holds once a message of RXWI bytes was offered to it: the
new one, or the old one if that is not drained (R174). -/
def State.lengthAfter (s : State) (d : DrvId) : Idx :=
  if s.cursorEmpty d = true then s.bus[s.busOf d].rxwi else s.drv[d].rdl

/-- 90_conflicts C2: in Master role a delivery asks no callback. -/
theorem handleReceive_of_master (master : s.drv[d].role = .master) :
    execHandleReceive d s =
      if s.cursorEmpty d then deliver d s else .next (s.setRxwi (s.busOf d) 0) := by
  unfold execHandleReceive
  dsimp only
  split
  · cases delivered : deliver d s with
    | next u =>
      have role : u.drv[d].role = .master := ((deliver_kept delivered).drv d).1.trans master
      simp [-Fin.getElem_fin, State.isSlave, role]
    | fault | refused => rfl
  · rfl

/-- What phase 8 leaves of a message of RXWI bytes: delivered to an empty cursor, dropped otherwise;
with no byte received both come to the same. -/
theorem collectReceived_ok (master : s.drv[d].role = .master) (wf : Memory.wf s.mem)
    (raw : s.bus[s.busOf d].rxwi ≤ s.cfg.rxCap) (read : s.bus[s.busOf d].rxwi ≤ s.cfg.rdCap) :
    ∃ m, collectReceived d s = .next
        (({ s with mem := m }.setDrv d { s.drv[d] with rdl := s.lengthAfter d }).setBus (s.busOf d)
          { s.bus[s.busOf d] with rxwi := 0, rxcs := 0 }) ∧
      ∀ (y : Buf) (j : Nat), Memory.read m (y.loc j) =
        if y = .rd d ∧ j < s.bus[s.busOf d].rxwi ∧ s.cursorEmpty d = true
        then s.byteAt (.rx (s.busOf d)) j else s.byteAt y j := by
  unfold collectReceived State.lengthAfter
  dsimp only
  by_cases nothing : s.bus[s.busOf d].rxwi = 0
  · refine ⟨s.mem, ?_, fun y j => by rw [nothing, if_neg (by omega)]; rfl⟩
    have same : (if s.cursorEmpty d = true then s.bus[s.busOf d].rxwi else s.drv[d].rdl) =
        s.drv[d].rdl := by
      split
      · rw [nothing, (cursorEmpty_iff.mp ‹_›).2]
      · rfl
    rw [if_pos nothing, andThen_ok, same]
    refine congrArg Host.Outcome.next (Eq.trans ?_
      (congrArg (State.setBus _ _) (s.setDrv_same d).symm))
    rw [← nothing]
    rfl
  · rw [if_neg nothing, handleReceive_of_master master]
    by_cases empty : s.cursorEmpty d = true
    · have rdi := (cursorEmpty_iff.mp empty).1
      obtain ⟨m, delivered, -, bytes⟩ := deliver_ok wf raw read
      refine ⟨m, ?_, fun y j => by rw [bytes]; simp only [empty, and_true]⟩
      rw [if_pos empty, delivered, andThen_ok, if_pos empty, State.setRxcs_setRxwi, ← rdi]
      rfl
    · refine ⟨s.mem, ?_, fun y j => by rw [if_neg fun h => empty h.2.2]; rfl⟩
      rw [if_neg empty, if_neg empty, andThen_ok, State.setRxcs_setRxwi]
      exact congrArg (fun u => Host.Outcome.next (State.setBus _ _ u)) (s.setDrv_same d).symm

theorem finishReceive_of_acknowledged (h : s.drv[d].gotnak = false) :
    finishReceive d s = andThen (collectReceived d (halSetMode (s.busOf d) .transmit s)) fun u =>
      finish 0x0B (indexByte d) (countByte u.drv[d].rdl) (clearRequest d u) :=
  if_neg (by rw [Bool.not_eq_true]; exact h)

end

/-- Settles O26: Transmit mode, what `collectReceived_ok` says, and the length of the cursor. -/
theorem requestFromReturnsTheCursorLength : Obligations.RequestFromReturnsTheCursorLength := by
  intro s d a n h8 acknowledged master wf raw read
  obtain ⟨m, collected, bytes⟩ :=
    collectReceived_ok (s := halSetMode (s.busOf d) .transmit s) (d := d) master wf raw read
  rw [requestFrom_finish a n h8, finishReceive_of_acknowledged acknowledged, collected, andThen_ok,
    finish_eq]
  refine ⟨_, rfl, ?_, bytes⟩
  simp [clearRequest, halSetMode, halCall, State.emit, State.setDrv, State.setBus, Mode.code,
    boolByte, State.busOf, State.lengthAfter, State.cursorEmpty]

end Sys2Proof.Machine

/-! SUPPORT. A transmission of the master from its start to its stop (spec/41_master_commands.md R146,
R147; spec/43_dispatcher.md R193; spec/44_hal_interface.md R229). -/

namespace Sys2Proof.Machine

/-! ### What a history of HAL words shows (R229) -/

theorem callsOf_cons {p : Params} {b : BusId} {i : Instr} {w : Word} (wf : i.wellFormed p = true)
    (word : encode i = some (.hal, w)) (bus : byte2 w = indexByte b) (ret : Option Word)
    (role : Option Role) (es : List PortEvent) :
    callsOf p b (.hal w ret role :: es) = ⟨i, ret, role⟩ :: callsOf p b es :=
  List.filterMap_cons_some (callOf_eq_some.mpr ⟨w, rfl, decodeHal_encode wf word, bus⟩)

/-- A start of bus `b` is in the history. -/
def startedOn (p : Params) (b : BusId) (out : List PortEvent) : Bool :=
  (callsOf p b out).any Call.isStart

theorem startedOn_append {p : Params} {b : BusId} {xs : List PortEvent}
    (h : startedOn p b xs = true) (ys : List PortEvent) : startedOn p b (xs ++ ys) = true := by
  rw [startedOn, callsOf_append, List.any_append]
  exact Bool.or_eq_true_iff.mpr (.inl h)

section
variable {p : Params} {b : BusId} (present : p.hasBus b = true)
include present

theorem callsOf_statusRead (ret : Option Word) (role : Option Role) (es : List PortEvent) :
    callsOf p b (.hal (pack 0x0D (indexByte b) 0 0) ret role :: es) =
      ⟨.halGetInterruptStatus b, ret, role⟩ :: callsOf p b es :=
  callsOf_cons (i := .halGetInterruptStatus b) present rfl (byte2_pack ..) ..

theorem callsOf_statusClear (v : Byte) (ret : Option Word) (role : Option Role)
    (es : List PortEvent) :
    callsOf p b (.hal (pack 0x0E (indexByte b) 0 v) ret role :: es) =
      ⟨.halClearInterruptStatus b v, ret, role⟩ :: callsOf p b es :=
  callsOf_cons (i := .halClearInterruptStatus b v) present rfl (byte2_pack ..) ..

theorem callsOf_start (ret : Option Word) (role : Option Role) (es : List PortEvent) :
    callsOf p b (.hal (halWord 0x07 b 0) ret role :: es) =
      ⟨.halIssueStart b, ret, role⟩ :: callsOf p b es :=
  callsOf_cons (i := .halIssueStart b) present rfl (byte2_pack ..) ..

theorem callsOf_stop (ret : Option Word) (role : Option Role) (es : List PortEvent) :
    callsOf p b (.hal (halWord 0x08 b 0) ret role :: es) =
      ⟨.halIssueStop b, ret, role⟩ :: callsOf p b es :=
  callsOf_cons (i := .halIssueStop b) present rfl (byte2_pack ..) ..

theorem callsOf_send (v : Byte) (ret : Option Word) (role : Option Role) (es : List PortEvent) :
    callsOf p b (.hal (halWord 0x09 b v) ret role :: es) =
      ⟨.halSendNextByte b v, ret, role⟩ :: callsOf p b es :=
  callsOf_cons (i := .halSendNextByte b v) present rfl (byte2_pack ..) ..

theorem startedOn_start (ret : Option Word) (role : Option Role) (xs es : List PortEvent) :
    startedOn p b (xs ++ .hal (halWord 0x07 b 0) ret role :: es) = true := by
  rw [startedOn, callsOf_append, List.any_append, callsOf_start present, List.any_cons]
  exact Bool.or_true _

/-- The status read and its clear, with which an invocation begins, show nothing (R229). -/
theorem wire_dispatch (status : Byte) (xs es : List PortEvent) :
    wire p b (xs ++
        [.hal (pack 0x0D (indexByte b) 0 0) (some (pack 0x0D (indexByte b) 0 status)),
         .hal (pack 0x0E (indexByte b) 0 status) none] ++ es) =
      wire p b xs ++ readWire (startedOn p b xs) (callsOf p b es) := by
  rw [List.append_assoc, wire_append, List.cons_append, List.cons_append,
    callsOf_statusRead present, callsOf_statusClear present]
  simp [readWire, Call.shows, Call.isStart, startedOn]

/-- The start of a transmission in Master role shows a start and the first byte. -/
theorem wire_startTransmission (v : Byte) (op drv val : Byte) (xs : List PortEvent) :
    wire p b (xs ++ [.hal (halWord 0x07 b 0) none, .hal (halWord 0x09 b v) none (some .master),
        .rsp (pack op drv 0 val)]) = wire p b xs ++ [.start, .sent v] := by
  have response : callsOf p b [.rsp (pack op drv 0 val)] = [] := rfl
  rw [wire_append, callsOf_start present, callsOf_send present, response]
  simp [readWire, Call.shows, Call.isStart, Call.sends]

end

/-! ### An invocation that serves TRANSMIT alone (R190, R193) -/

/-- R190: with the status word TRANSMIT the only handler that runs is its own. -/
theorem handleConditions_transmit {s : State} (h : s.disp.status = 2) :
    handleConditions s = execEvTransmit s := by
  have skip (bit : Nat) (f : State → Result) {u : State} (status : u.disp.status = 2)
      (clear : (2 : Byte).getLsbD bit = false) : onCondition bit f u = .next u := by
    rw [onCondition, status, clear]
    rfl
  have serve : onCondition 1 execEvTransmit s = execEvTransmit s := by
    rw [onCondition, h]
    rfl
  rw [handleConditions, skip 0 _ h rfl, andThen_ok, serve]
  cases served : execEvTransmit s with
  | next u =>
    have status : u.disp.status = 2 := by rw [(evTransmit_kept served).disp, h]
    rw [andThen_ok, skip 2 _ status rfl, andThen_ok, skip 3 _ status rfl]
  | fault | refused => rfl

theorem evTransmit_of_master {s : State} {d : DrvId} (found : s.lookup s.disp.bus = some d)
    (master : s.drv[d].role = .master) :
    execEvTransmit s = transmitMaster s.disp.bus d (s.setFound (some d)) := by
  unfold execEvTransmit
  rw [withDriverOf_eq, found]
  exact if_pos (isMaster_iff.mpr master)

theorem transmitMaster_exhausted {s : State} {b : BusId} (d : DrvId) (h : s.bus[b].txwi = 0) :
    transmitMaster b d s = .next (exhaustTx b d s) :=
  if_pos (txIdle_iff.mpr h)

/-- R193: a stop that was asked for is issued. -/
theorem exhaustTx_stop {s : State} {d : DrvId} (b : BusId) (h : s.drv[d].sendstop = true) :
    exhaustTx b d s = (halIssueStop b s).setTxcs b 0 := by
  rw [exhaustTx, if_pos h]

/-- R193: without a stop asked for, SENDSTOP is set, which the flush of REQUEST_FROM waits for. -/
theorem exhaustTx_noStop {s : State} {d : DrvId} (b : BusId) (h : s.drv[d].sendstop = false) :
    exhaustTx b d s = (latchStop d true s).setTxcs b 0 := by
  rw [exhaustTx, if_neg (by rw [h]; decide)]

theorem transmitMaster_send {s : State} {b : BusId} {left : Nat} (d : DrvId)
    (txwi : s.bus[b].txwi = left + 1) (count : left + 1 ≤ s.bus[b].txcs)
    (fits : s.bus[b].txcs ≤ s.cfg.txCap) :
    transmitMaster b d s = .next
      ((halSendNextByte b (some s.drv[d].role) (s.byteAt (.tx b) (s.bus[b].txcs - (left + 1)))
        s).setTxwi b left) := by
  have busy : ¬s.txIdle b = true := by rw [txIdle_iff, txwi]; exact Nat.succ_ne_zero left
  have within : s.bus[b].txcs - (left + 1) < s.cfg.txCap :=
    (Nat.sub_lt (Nat.lt_of_lt_of_le left.succ_pos count) left.succ_pos).trans_le fits
  unfold transmitMaster
  rw [if_neg busy, countDownTx_ok (txwi ▸ count) (txwi ▸ within), txwi]
  show Host.Outcome.next (State.setTxwi b (s.bus[b].txwi - 1) _) = _
  rw [txwi]
  rfl

/-! ### The transmission under way (R147) -/

/-- Driver `d`, the master of bus `b`, has `left` bytes to send after its start, and a TRANSMIT
interrupt is to come for each of them and one for the end. -/
structure Sending (b : BusId) (d : DrvId) (left : Nat) (s : State) : Prop where
  bus : s.cfg.hasBus b = true
  found : s.lookup b = some d
  master : s.drv[d].role = .master
  txwi : s.bus[b].txwi = left
  count : left ≤ s.bus[b].txcs
  fits : s.bus[b].txcs ≤ s.cfg.txCap
  answers : s.answers = List.replicate (left + 1) 0x02
  started : startedOn s.cfg b s.out = true

/-- The state in which the handler of TRANSMIT serves it, with the answers `rest` still to come. -/
def State.atTransmit (b : BusId) (d : DrvId) (rest : List Byte) (s : State) : State :=
  { s with
    disp := { active := true, bus := b, status := 2 }
    answers := rest
    found := some d
    out := s.out ++
      [.hal (pack 0x0D (indexByte b) 0 0) (some (pack 0x0D (indexByte b) 0 2)),
       .hal (pack 0x0E (indexByte b) 0 2) none] }

section
variable {b : BusId} {d : DrvId} {left : Nat} {s : State}

/-- Its interrupt is served in the master branch of TRANSMIT. -/
theorem Sending.dispatch (h : Sending b d left s) :
    exec (.dispatch (indexByte b)) s =
      andThen (transmitMaster b d (s.atTransmit b d (List.replicate left 0x02)))
        fun u => .next (leaveDispatcher u) := by
  have answers : s.answers = 2 :: List.replicate left 2 := h.answers
  have entered : (beginDispatch b s).setFound (some d) =
      s.atTransmit b d (List.replicate left 0x02) := by
    rw [beginDispatch_eq, State.takeAnswer, State.nextAnswer, answers]
    rfl
  have status : (beginDispatch b s).disp.status = 2 := congrArg (·.disp.status) entered
  have bus : (beginDispatch b s).disp.bus = b := congrArg (·.disp.bus) entered
  have found : (beginDispatch b s).lookup (beginDispatch b s).disp.bus = some d := by
    rw [bus, State.lookup, beginDispatch_reg]
    exact h.found
  have master : (beginDispatch b s).drv[d].role = .master := by
    rw [beginDispatch_drv]
    exact h.master
  show execDispatch (indexByte b) s = _
  unfold execDispatch
  rw [indexByte_toFin, if_pos h.bus, handleConditions_transmit status,
    evTransmit_of_master found master, entered, bus]

/-- R193: while bytes are left, the interrupt sends the next one in order. -/
theorem Sending.next (h : Sending b d (left + 1) s) :
    ∃ t, exec (.dispatch (indexByte b)) s = .next t ∧ Sending b d left t ∧
      t.cfg = s.cfg ∧ t.mem = s.mem ∧ t.bus[b].txcs = s.bus[b].txcs ∧ t.drv = s.drv ∧
      wire s.cfg b t.out =
        wire s.cfg b s.out ++ [.sent (s.byteAt (.tx b) (s.bus[b].txcs - (left + 1)))] := by
  have sends := transmitMaster_send (s := s.atTransmit b d (List.replicate (left + 1) 0x02)) d
    h.txwi h.count h.fits
  have entry : (s.bus.set b { s.bus[b] with txwi := left })[b] = { s.bus[b] with txwi := left } :=
    vector_get_set_self ..
  have txcs : (s.bus.set b { s.bus[b] with txwi := left })[b].txcs = s.bus[b].txcs := by
    rw [entry]
  rw [h.dispatch, sends, andThen_ok]
  refine ⟨_, rfl, ?_, rfl, rfl, txcs, rfl, ?_⟩
  · exact
      { bus := h.bus, found := h.found, master := h.master
        txwi := congrArg BusRegs.txwi entry
        count := (Nat.le_of_succ_le h.count).trans_eq txcs.symm
        fits := txcs.trans_le h.fits
        answers := rfl
        started := startedOn_append (startedOn_append h.started _) _ }
  · refine (wire_dispatch h.bus 2 s.out _).trans (congrArg _ ?_)
    have role : (s.atTransmit b d (List.replicate (left + 1) 0x02)).drv[d].role = .master :=
      h.master
    rw [callsOf_send h.bus, h.started, role]
    rfl

/-- R193: with nothing left the interrupt issues the stop, or notes that none was asked for. -/
theorem Sending.last (h : Sending b d 0 s) :
    ∃ t, exec (.dispatch (indexByte b)) s = .next t ∧
      t.bus[b].txwi = 0 ∧ t.bus[b].txcs = 0 ∧ t.drv[d].sendstop = true ∧
      wire s.cfg b t.out =
        wire s.cfg b s.out ++ if s.drv[d].sendstop = true then [.stop] else [] := by
  have ends := transmitMaster_exhausted (s := s.atTransmit b d (List.replicate 0 0x02)) d h.txwi
  rw [h.dispatch, ends, andThen_ok]
  have entry : (s.bus.set b { s.bus[b] with txcs := 0 })[b] = { s.bus[b] with txcs := 0 } :=
    vector_get_set_self ..
  have txwi : (s.bus.set b { s.bus[b] with txcs := 0 })[b].txwi = 0 :=
    (congrArg BusRegs.txwi entry).trans h.txwi
  cases stop : s.drv[d].sendstop with
  | true =>
    rw [exhaustTx_stop (s := s.atTransmit b d (List.replicate 0 0x02)) b stop]
    refine ⟨_, rfl, txwi, congrArg BusRegs.txcs entry, stop, ?_⟩
    refine (wire_dispatch h.bus 2 s.out _).trans (congrArg _ ?_)
    rw [callsOf_stop h.bus]
    rfl
  | false =>
    rw [exhaustTx_noStop (s := s.atTransmit b d (List.replicate 0 0x02)) b stop]
    have latched : (s.drv.set d { s.drv[d] with sendstop := true })[d].sendstop = true :=
      congrArg DrvRegs.sendstop (vector_get_set_self ..)
    refine ⟨_, rfl, txwi, congrArg BusRegs.txcs entry, latched, ?_⟩
    have shown := wire_dispatch h.bus 2 s.out []
    rw [List.append_nil] at shown
    exact shown

/-- The bytes left and the end, by induction on their number. -/
theorem Sending.rest (h : Sending b d left s) :
    ∃ t, interrupts b (left + 1) s = .next t ∧
      t.bus[b].txwi = 0 ∧ t.bus[b].txcs = 0 ∧ t.drv[d].sendstop = true ∧
      wire s.cfg b t.out = wire s.cfg b s.out ++
        (List.range' (s.bus[b].txcs - left) left).map (fun i => .sent (s.byteAt (.tx b) i)) ++
        if s.drv[d].sendstop = true then [.stop] else [] := by
  induction left generalizing s with
  | zero =>
    obtain ⟨t, run, txwi, txcs, stop, shown⟩ := h.last
    exact ⟨t, by rw [interrupts, run]; rfl, txwi, txcs, stop, by simpa using shown⟩
  | succ left ih =>
    obtain ⟨u, run, sending, cfg, mem, size, drv, shown⟩ := h.next
    obtain ⟨t, runs, txwi, txcs, stop, rest⟩ := ih sending
    refine ⟨t, by rw [interrupts, run]; exact runs, txwi, txcs, stop, ?_⟩
    have next {n k : ℕ} (le : k + 1 ≤ n) : n - (k + 1) + 1 = n - k := by omega
    rw [cfg, shown, size, drv] at rest
    rw [rest, List.range'_succ, next h.count]
    simp [State.byteAt, mem]

end

/-- The start of END_TRANSMISSION, with `left + 1` bytes written, shows the start and the first byte
and leaves the other ones to send (R146). -/
theorem Sending.of_endTransmission {s : State} {d : DrvId} {left : Nat} (stop : Bool)
    (bus : s.cfg.hasBus (s.busOf d) = true) (found : s.lookup (s.busOf d) = some d)
    (master : s.drv[d].role = .master) (h2 : s.fg.phase = 2)
    (txwi : s.bus[s.busOf d].txwi = left + 1) (fits : left + 1 ≤ s.cfg.txCap)
    (answers : s.answers = List.replicate (left + 1) 0x02) :
    ∃ t, exec (.endTransmission d stop) s = .next t ∧ Sending (s.busOf d) d left t ∧
      t.cfg = s.cfg ∧ t.mem = s.mem ∧ t.bus[s.busOf d].txcs = left + 1 ∧
      t.drv[d].sendstop = stop ∧
      wire s.cfg (s.busOf d) t.out = wire s.cfg (s.busOf d) s.out ++
        [.start, .sent (s.byteAt (.tx (s.busOf d)) 0)] := by
  have started := endTransmissionStarts s d stop h2 (Nat.lt_of_lt_of_le left.succ_pos fits)
    (by rw [txwi]; exact left.succ_ne_zero)
  rw [txwi, Nat.add_sub_cancel, master] at started
  have entry : (s.bus.set (s.busOf d) { s.bus[s.busOf d] with txcs := left + 1, txwi := left })[
      s.busOf d] = { s.bus[s.busOf d] with txcs := left + 1, txwi := left } :=
    vector_get_set_self ..
  have driver : (s.drv.set d { s.drv[d] with sendstop := stop })[d] =
      { s.drv[d] with sendstop := stop } := vector_get_set_self ..
  have txcs : (s.bus.set (s.busOf d) { s.bus[s.busOf d] with txcs := left + 1, txwi := left })[
      s.busOf d].txcs = left + 1 := congrArg BusRegs.txcs entry
  refine ⟨_, started, ?_, rfl, rfl, txcs, congrArg DrvRegs.sendstop driver,
    wire_startTransmission bus ..⟩
  exact
    { bus := bus, found := found
      master := (congrArg DrvRegs.role driver).trans master
      txwi := congrArg BusRegs.txwi entry
      count := left.le_succ.trans_eq txcs.symm
      fits := txcs.trans_le fits
      answers := answers
      started := startedOn_start bus .. }

/-- Settles O60: the start sends the first byte, and the interrupts the other ones and the end. -/
theorem masterTransmissionSendsTheBytesInOrder :
    Obligations.MasterTransmissionSendsTheBytesInOrder := by
  rintro s d _ stop n bus rfl found master h2 txwi positive fits answers
  obtain ⟨left, rfl⟩ := Nat.exists_eq_add_of_le' positive
  obtain ⟨u, start, sending, cfg, mem, size, asked, first⟩ :=
    Sending.of_endTransmission stop (decide_eq_true bus) found master h2 txwi fits answers
  obtain ⟨t, run, txwi', txcs', stop', rest⟩ := sending.rest
  refine ⟨t, by rw [start, andThen_ok]; exact run, ?_, txwi', txcs', stop'⟩
  rw [cfg, first, size, asked, Nat.add_sub_cancel_left] at rest
  rw [rest, List.range_eq_range', List.range'_succ]
  simp [State.byteAt, mem]

end Sys2Proof.Machine

/-! SUPPORT. The statements of spec/42_slave_commands.md about the two handlers: the answer to a
request of the master (R173), and the delivery of a received message (R174). -/

namespace Sys2Proof.Machine

section
variable {s : State} {d : DrvId} {b : BusId}

/-! ### The answer to a request (R173) -/

theorem State.setTxcs_setTxwi (s : State) (b : BusId) (n m : Idx) :
    (s.setTxwi b n).setTxcs b m = s.setBus b { s.bus[b] with txwi := n, txcs := m } := by
  simp only [State.setTxwi, State.setTxcs, State.setBus_bus, vector_get_set_self,
    State.setBus_setBus]

/-- R88: past TXCS the answer is exhausted, and no byte goes out. -/
theorem serveAnswer_exhausted (h : s.bus[s.busOf d].txcs < s.bus[s.busOf d].txwi) :
    serveAnswer d s = .next
      (s.setBus (s.busOf d) { s.bus[s.busOf d] with txwi := 0, txcs := 0 }) := by
  rw [← State.setTxcs_setTxwi]
  exact if_pos (decide_eq_true h)

/-- R83: up to TXCS the byte at TXWI goes out, and TXWI counts up. -/
theorem serveAnswer_send (left : s.bus[s.busOf d].txwi ≤ s.bus[s.busOf d].txcs)
    (within : s.bus[s.busOf d].txwi < s.cfg.txCap) :
    serveAnswer d s = .next (halSendNextByte (s.busOf d) (some s.drv[d].role)
      (s.byteAt (.tx (s.busOf d)) s.bus[s.busOf d].txwi)
      (s.setTxwi (s.busOf d) (s.bus[s.busOf d].txwi + 1))) :=
  (if_neg (by simpa [State.answerExhausted] using left)).trans (sendTx_next.mpr ⟨within, rfl⟩)

/-- What was committed is served from its first byte on. -/
theorem serveAnswer_committed (bus : s.busOf d = b) (capacity : 0 < s.cfg.txCap) :
    serveAnswer d ((s.setTxcs b s.bus[b].txwi).setTxwi b 0) = .next
      { s with
        bus := s.bus.set b { s.bus[b] with txcs := s.bus[b].txwi, txwi := 1 }
        out := s.out ++
          [.hal (halWord 0x09 b (s.byteAt (.tx b) 0)) none (some s.drv[d].role)] } := by
  subst bus
  rw [State.setTxwi_setTxcs]
  have entry : (s.bus.set (s.busOf d) { s.bus[s.busOf d] with
      txcs := s.bus[s.busOf d].txwi, txwi := 0 })[s.busOf d] =
      { s.bus[s.busOf d] with txcs := s.bus[s.busOf d].txwi, txwi := 0 } :=
    vector_get_set_self ..
  have send := serveAnswer_send (d := d)
    (s := s.setBus (s.busOf d) { s.bus[s.busOf d] with
      txcs := s.bus[s.busOf d].txwi, txwi := 0 })
    ((congrArg BusRegs.txwi entry).trans_le (Nat.zero_le _))
    ((congrArg BusRegs.txwi entry).trans_lt capacity)
  refine send.trans ?_
  simp [halSendNextByte, State.setTxwi, State.setBus, State.emit, State.busOf, State.byteAt]

/-- R173: with no callback bound an empty answer is committed as it is. -/
theorem refillAnswer_unbound (empty : s.bus[s.busOf d].txwi = 0)
    (unbound : s.drv[d].onreq = false) :
    refillAnswer d s =
      .next ((s.setTxcs (s.busOf d) s.bus[s.busOf d].txwi).setTxwi (s.busOf d) 0) := by
  unfold refillAnswer
  dsimp only
  rw [if_pos (txIdle_iff.mpr empty), if_neg (by rw [unbound]; decide), andThen_ok]

/-- R173: what the callback wrote is committed. -/
theorem refillAnswer_bound {t : State} (empty : s.bus[s.busOf d].txwi = 0)
    (bound : s.drv[d].onreq = true) (returned : execUpOnRequest d s = .next t) :
    refillAnswer d s =
      .next ((t.setTxcs (s.busOf d) t.bus[s.busOf d].txwi).setTxwi (s.busOf d) 0) := by
  unfold refillAnswer
  dsimp only
  rw [if_pos (txIdle_iff.mpr empty), if_pos bound, returned, andThen_ok]

end

/-- Settles O39: an answer in progress is served; an empty one is refilled, committed and served. -/
theorem slaveRequestServesTheAnswer : Obligations.SlaveRequestServesTheAnswer := by
  intro s d
  refine ⟨fun busy exhausted => ?_, fun busy left within => ?_, fun empty unbound capacity => ?_,
    fun t empty bound capacity returned => ?_⟩
  · exact (handleRequestSlave_of_txwi_ne_zero busy).trans (serveAnswer_exhausted exhausted)
  · exact (handleRequestSlave_of_txwi_ne_zero busy).trans (serveAnswer_send left within)
  · have served := serveAnswer_committed (d := d) rfl capacity
    show andThen (refillAnswer d s) (serveAnswer d) = _
    rw [refillAnswer_unbound empty unbound, andThen_ok, served, empty]
  · have kept := upOnRequest_kept returned
    have bus : t.busOf d = s.busOf d := congrArg (fun p => p.busOf[d]) kept.cfg
    have role : t.drv[d].role = s.drv[d].role := (kept.drv d).1
    have served := serveAnswer_committed (s := t) bus (kept.cfg ▸ capacity)
    rw [role] at served
    show andThen (refillAnswer d s) (serveAnswer d) = _
    rw [refillAnswer_bound empty bound returned, andThen_ok, served]

/-! ### The delivery of a message (R174) -/

section
variable {s : State} {d : DrvId}

theorem handleReceive_dropped (full : s.cursorEmpty d = false) :
    execHandleReceive d s = .next (s.setRxwi (s.busOf d) 0) :=
  if_neg (by rw [full]; decide)

/-- R174, 90_conflicts C2: a delivery asks the callback exactly in Slave role with one bound. -/
theorem deliver_tells_iff {t : State} (h : deliver d s = .next t) :
    (t.isSlave d && t.drv[d].onrcv) = true ↔ s.drv[d].role = .slave ∧ s.drv[d].onrcv = true := by
  obtain ⟨role, -, -, -, -, bound⟩ := (deliver_kept h).drv d
  rw [State.isSlave, Bool.and_eq_true, beq_iff_eq, role, bound]

theorem handleReceive_delivered {t : State} (empty : s.cursorEmpty d = true)
    (delivered : deliver d s = .next t) :
    execHandleReceive d s =
      if s.drv[d].role = .slave ∧ s.drv[d].onrcv = true
      then execUpOnReceive d (countByte s.bus[s.busOf d].rxwi) t else .next t := by
  unfold execHandleReceive
  dsimp only
  rw [if_pos empty, delivered, andThen_ok]
  exact if_congr (deliver_tells_iff delivered) rfl rfl

end

/-- Settles O41: a cursor that is not empty keeps its message, and an empty one is loaded. -/
theorem handleReceiveDeliversOrDrops : Obligations.HandleReceiveDeliversOrDrops := by
  intro s d wf raw read
  refine ⟨handleReceive_dropped, fun empty => ?_⟩
  obtain ⟨m, delivered, -, bytes⟩ := deliver_ok wf raw read
  refine ⟨({ s with mem := m }.setCursor d 0 s.bus[s.busOf d].rxwi).setRxwi (s.busOf d) 0,
    ?_, ?_, ?_⟩
  exacts [rfl, bytes, handleReceive_delivered empty delivered]

end Sys2Proof.Machine

/-! SUPPORT. The statements of spec/42_slave_commands.md about the two upcalls: what the commands of
a callback do (R175, R176), and where a callback stops (R259, R289). -/

namespace Sys2Proof.Machine

/-! ### Bytes stored one after the other (R71, R81) -/

/-- A write leaves every other location, in any memory. -/
theorem Memory.read_write_of_ne (m : Memory) {a a' : Nat} (h : a ≠ a') (v : Byte) :
    (m.write a v).read a' = m.read a' := by
  induction m with
  | nil => by_cases hv : v = Memory.unwritten <;> simp [Memory.write, Memory.read, hv, h]
  | cons c m ih =>
    obtain ⟨k, w⟩ := c
    unfold Memory.write
    split
    · split <;> simp [Memory.read, h]
    · split
      · have hk : k ≠ a' := fun e => h (by omega)
        split <;> simp [Memory.read, h, hk]
      · simp [Memory.read, ih]

/-- The bytes `xs` stored from index `i` of an array upwards. -/
def Memory.writeFrom (buf : Buf) : (i : Nat) → List Byte → Memory → Memory
  | _, [], m => m
  | i, x :: xs, m => Memory.writeFrom buf (i + 1) xs (m.write (buf.loc i) x)

theorem Memory.read_writeFrom {buf : Buf} {i : Nat} {xs : List Byte} {m : Memory} (wf : m.wf)
    (y : Buf) (j : Nat) : (m.writeFrom buf i xs).read (y.loc j) =
      if y = buf ∧ i ≤ j then (xs[j - i]?).getD (m.read (y.loc j)) else m.read (y.loc j) := by
  induction xs generalizing i m with
  | nil => simp [Memory.writeFrom]
  | cons x xs ih =>
    rw [Memory.writeFrom, ih (Memory.write_wf wf ..), Memory.read_write_loc wf]
    by_cases hy : y = buf
    · subst hy
      rcases Nat.lt_trichotomy i j with lt | rfl | gt
      · have next : j - i = (j - (i + 1)) + 1 := by omega
        simp [next, lt.ne, lt.le, Nat.succ_le_of_lt lt]
      · simp
      · simp [Nat.not_le.mpr gt, Nat.not_le.mpr (Nat.lt_succ_of_lt gt), gt.ne']
    · simp [hy, Ne.symm hy]

/-! ### The cursor after some READs (R149) -/

/-- The registers of a driver after `n` READs: a drained cursor is empty. -/
def DrvRegs.afterReads (r : DrvRegs) (n : Nat) : DrvRegs :=
  if n ≠ 0 ∧ r.rdi + n = r.rdl then { r with rdi := 0, rdl := 0 }
  else { r with rdi := r.rdi + n }

@[simp] theorem DrvRegs.afterReads_zero (r : DrvRegs) : r.afterReads 0 = r :=
  if_neg fun h => h.1 rfl

/-- One READ of a message with `n + 1` bytes left or more: the message is drained, or goes on. -/
theorem DrvRegs.afterReads_one {r : DrvRegs} {n : Nat} (h : r.rdi + (n + 1) ≤ r.rdl) :
    (n = 0 ∧ r.afterReads 1 = { r with rdi := 0, rdl := 0 }) ∨
      (r.rdi + 1 ≠ r.rdl ∧ r.afterReads 1 = { r with rdi := r.rdi + 1 }) := by
  by_cases last : r.rdi + 1 = r.rdl
  · have le : n + 1 ≤ 1 := Nat.le_of_add_le_add_left (last ▸ h)
    exact .inl ⟨Nat.le_zero.mp (Nat.le_of_succ_le_succ le), if_pos ⟨Nat.one_ne_zero, last⟩⟩
  · exact .inr ⟨last, if_neg fun h => last h.2⟩

/-- What is left after one READ. -/
theorem DrvRegs.afterReads_one_le {r : DrvRegs} {n : Nat} (h : r.rdi + (n + 1) ≤ r.rdl) :
    (r.afterReads 1).rdi + n ≤ (r.afterReads 1).rdl ∧ (r.afterReads 1).rdl ≤ r.rdl := by
  rcases DrvRegs.afterReads_one h with ⟨rfl, after⟩ | ⟨-, after⟩ <;> rw [after]
  · exact ⟨Nat.le_refl 0, Nat.zero_le _⟩
  · exact ⟨(Nat.succ_add_eq_add_succ r.rdi n).trans_le h, Nat.le_refl _⟩

/-- One READ and then `n`, with no more READs than bytes left. -/
theorem DrvRegs.afterReads_succ {r : DrvRegs} {n : Nat} (h : r.rdi + (n + 1) ≤ r.rdl) :
    (r.afterReads 1).afterReads n = r.afterReads (n + 1) := by
  rcases DrvRegs.afterReads_one h with ⟨rfl, -⟩ | ⟨more, after⟩
  · exact DrvRegs.afterReads_zero _
  · have shift : r.rdi + 1 + n = r.rdi + (n + 1) := Nat.succ_add_eq_add_succ r.rdi n
    rw [after, DrvRegs.afterReads, DrvRegs.afterReads]
    dsimp only
    rw [shift]
    refine if_congr ?_ rfl rfl
    cases n with
    | zero => exact ⟨fun h => absurd rfl h.1, fun h => absurd h.2 more⟩
    | succ n => exact and_congr_left' ⟨fun _ => Nat.succ_ne_zero _, fun _ => n.succ_ne_zero⟩

/-- As many READs as the whole message has bytes empty the cursor, also when there is none. -/
theorem DrvRegs.afterReads_all {r : DrvRegs} {n : Nat} (rdi : r.rdi = 0) (rdl : r.rdl = n) :
    r.afterReads n = { r with rdi := 0, rdl := 0 } := by
  cases n with
  | zero =>
    obtain ⟨_, _⟩ := r
    cases rdi
    cases rdl
    rfl
  | succ n => exact if_pos ⟨n.succ_ne_zero, by rw [rdi, rdl, Nat.zero_add]⟩

/-- R149: a pop is one READ. -/
theorem popCursor_eq_afterReads (d : DrvId) (s : State) :
    s.popCursor d = s.setDrv d (s.drv[d].afterReads 1) := by
  unfold State.popCursor DrvRegs.afterReads
  split
  · rw [if_pos ⟨Nat.one_ne_zero, ‹_›⟩]; rfl
  · rw [if_neg fun h => ‹¬_› h.2]; rfl

/-- The index registers of a bus after `n` WRITEs. -/
def BusRegs.afterWrites (r : BusRegs) (n : Nat) : BusRegs := { r with txwi := r.txwi + n }

@[simp] theorem BusRegs.afterWrites_txwi (r : BusRegs) (n : Nat) :
    (r.afterWrites n).txwi = r.txwi + n := rfl

@[simp] theorem BusRegs.afterWrites_zero (r : BusRegs) : r.afterWrites 0 = r := rfl

@[simp] theorem BusRegs.afterWrites_afterWrites (r : BusRegs) (m n : Nat) :
    (r.afterWrites m).afterWrites n = r.afterWrites (n + m) :=
  congrArg (fun v => { r with txwi := v }) (by rw [Nat.add_comm n, ← Nat.add_assoc]; rfl)

/-! ### The commands of a callback (R175, R176) -/

/-- The state that the actions of the callback of driver `d` leave. -/
def State.afterActions (d : DrvId) (acts : List CallbackAction) (s : State) : State :=
  { s with
    mem := s.mem.writeFrom (.tx (s.busOf d)) s.bus[s.busOf d].txwi (acts.filterMap id)
    bus := s.bus.set (s.busOf d) (s.bus[s.busOf d].afterWrites (acts.filterMap id).length)
    drv := s.drv.set d (s.drv[d].afterReads (acts.count none))
    out := s.out ++ actionResponses s d s.drv[d].rdi acts }

/-- Driver `d` exists, its cursor has a byte for each READ, and TXBUF room for each WRITE. -/
structure State.Serves (s : State) (d : DrvId) (acts : List CallbackAction) : Prop where
  driver : s.cfg.hasDriver d = true
  bytes : none ∈ acts →
    s.drv[d].rdi + acts.count none ≤ s.drv[d].rdl ∧ s.drv[d].rdl ≤ s.cfg.rdCap
  room : acts.filterMap id ≠ [] →
    s.bus[s.busOf d].txwi + (acts.filterMap id).length ≤ s.cfg.txCap

/-- The responses depend on RDBUF alone, and on the index only if there is a READ. -/
theorem actionResponses_congr {s t : State} {d : DrvId} {i j : Nat} {acts : List CallbackAction}
    (bytes : ∀ k, t.byteAt (.rd d) k = s.byteAt (.rd d) k) (index : none ∈ acts → j = i) :
    actionResponses t d j acts = actionResponses s d i acts := by
  induction acts generalizing i j with
  | nil => rfl
  | cons act acts ih =>
    cases act with
    | none =>
      obtain rfl := index (by simp)
      rw [actionResponses, actionResponses, bytes, ih fun _ => rfl]
    | some x =>
      rw [actionResponses, actionResponses, ih fun h => index (by simp [h])]

section
variable {c : Upcall} {s : State} {d : DrvId} {x : Byte} {act : CallbackAction}
  {acts : List CallbackAction}

@[simp] theorem State.afterActions_nil (s : State) (d : DrvId) : s.afterActions d [] = s := by
  simp [State.afterActions, Memory.writeFrom, actionResponses]

theorem afterActions_write :
    s.afterActions d [some x] = respond 0x09 (indexByte d) false 0 { s with
      mem := Memory.write s.mem (Buf.loc (.tx (s.busOf d)) s.bus[s.busOf d].txwi) x
      bus := s.bus.set (s.busOf d)
        { s.bus[s.busOf d] with txwi := s.bus[s.busOf d].txwi + 1 } } := by
  simp [State.afterActions, BusRegs.afterWrites, Memory.writeFrom, actionResponses, respond,
    responseWord, boolByte, State.emit]

theorem afterActions_read :
    s.afterActions d [none] =
      respond 0x0C (indexByte d) false (s.byteAt (.rd d) s.drv[d].rdi) (s.popCursor d) := by
  rw [popCursor_eq_afterReads]
  simp [State.afterActions, Memory.writeFrom, actionResponses, respond, responseWord, boolByte,
    State.emit, State.setDrv]

/-- R144: one WRITE with room for it. -/
theorem callbackCommand_write (driver : s.cfg.hasDriver d = true)
    (room : s.bus[s.busOf d].txwi < s.cfg.txCap) :
    callbackCommand c d (actionWord d (some x)) s = .next (s.afterActions d [some x]) := by
  have decoded : decodeCmd s.cfg (actionWord d (some x)) = .ok (.write d x) :=
    decodeCmd_encode driver rfl
  unfold callbackCommand
  rw [decoded, afterActions_write]
  exact (if_pos rfl).trans (callbackWrite_next.mpr ⟨_, appendTx_next.mpr ⟨room, rfl⟩, rfl⟩)

/-- R149: one READ with a byte left. -/
theorem callbackCommand_read (driver : s.cfg.hasDriver d = true)
    (left : s.drv[d].rdi < s.drv[d].rdl) (length : s.drv[d].rdl ≤ s.cfg.rdCap) :
    callbackCommand .onReceive d (actionWord d none) s = .next (s.afterActions d [none]) := by
  have decoded : decodeCmd s.cfg (actionWord d none) = .ok (.read d) :=
    decodeCmd_encode driver rfl
  have message : s.cursorEmpty d = false :=
    cursorEmpty_eq_false.mpr fun h => (Nat.ne_zero_of_lt left) h.2
  unfold callbackCommand
  rw [decoded, afterActions_read]
  exact (if_pos ⟨rfl, rfl⟩).trans (callbackRead_next.mpr ⟨message, left.trans_le length, rfl⟩)

theorem State.Serves.bytes_read (h : s.Serves d (none :: acts)) :
    s.drv[d].rdi + (acts.count none + 1) ≤ s.drv[d].rdl ∧ s.drv[d].rdl ≤ s.cfg.rdCap := by
  rw [← List.count_cons_self (a := (none : CallbackAction))]
  exact h.bytes List.mem_cons_self

/-- One action, and then the others. -/
theorem afterActions_cons (h : s.Serves d (act :: acts)) :
    (s.afterActions d [act]).afterActions d acts = s.afterActions d (act :: acts) := by
  cases act with
  | none =>
    obtain ⟨left, -⟩ := h.bytes_read
    have cursor := DrvRegs.afterReads_succ left
    have index (more : none ∈ acts) : (s.drv[d].afterReads 1).rdi = s.drv[d].rdi + 1 := by
      rcases DrvRegs.afterReads_one left with ⟨last, -⟩ | ⟨-, after⟩
      · exact absurd more (List.count_eq_zero.mp last)
      · rw [after]
    have responses : actionResponses (s.afterActions d [none]) d (s.drv[d].afterReads 1).rdi acts =
        actionResponses s d (s.drv[d].rdi + 1) acts := actionResponses_congr (fun _ => rfl) index
    simpa [State.afterActions, Memory.writeFrom, State.busOf, actionResponses] using
      And.intro (congrArg (s.drv.set d ·) cursor) responses
  | some x =>
    have apart (k : Nat) : Buf.loc (.tx (s.busOf d)) s.bus[s.busOf d].txwi ≠ Buf.loc (.rd d) k :=
      fun h => nomatch (Buf.loc_inj h).1
    have responses : actionResponses (s.afterActions d [some x]) d s.drv[d].rdi acts =
        actionResponses s d s.drv[d].rdi acts :=
      actionResponses_congr (fun k => Memory.read_write_of_ne _ (apart k) _) fun _ => rfl
    simpa [State.afterActions, Memory.writeFrom, State.busOf, actionResponses] using responses

theorem State.Serves.room_write (h : s.Serves d (some x :: acts)) :
    s.bus[s.busOf d].txwi + 1 + (acts.filterMap id).length ≤ s.cfg.txCap :=
  (Nat.succ_add_eq_add_succ ..).trans_le (h.room (List.cons_ne_nil x _))

theorem State.Serves.afterAction (h : s.Serves d (act :: acts)) :
    (s.afterActions d [act]).Serves d acts := by
  have bus : (s.afterActions d [act]).bus[s.busOf d] =
      s.bus[s.busOf d].afterWrites ([act].filterMap id).length := vector_get_set_self ..
  have drv : (s.afterActions d [act]).drv[d] = s.drv[d].afterReads ([act].count none) :=
    vector_get_set_self ..
  have txwi := congrArg (fun r => r.txwi + (acts.filterMap id).length) bus
  cases act with
  | none =>
    obtain ⟨left, length⟩ := h.bytes_read
    obtain ⟨left', length'⟩ := DrvRegs.afterReads_one_le left
    exact ⟨h.driver, fun _ => drv ▸ ⟨left', length'.trans length⟩,
      fun writes => txwi.trans_le (h.room writes)⟩
  | some x =>
    have unread : (s.afterActions d [some x]).drv[d] = s.drv[d] :=
      drv.trans (DrvRegs.afterReads_zero _)
    exact ⟨h.driver, fun more => unread ▸ h.bytes (List.mem_cons_of_mem _ more),
      fun _ => txwi.trans_le h.room_write⟩

/-- R175, R176: one action; only onReceive may READ. -/
theorem callbackCommand_action (h : s.Serves d (act :: acts))
    (contract : act = none → c = .onReceive) :
    callbackCommand c d (actionWord d act) s = .next (s.afterActions d [act]) := by
  cases act with
  | none =>
    obtain rfl := contract rfl
    obtain ⟨left, length⟩ := h.bytes_read
    exact callbackCommand_read h.driver
      ((Nat.lt_add_of_pos_right (Nat.succ_pos _)).trans_le left) length
  | some x =>
    exact callbackCommand_write h.driver
      (Nat.lt_of_succ_le ((Nat.le_add_right ..).trans h.room_write))

/-- R175, R176: a callback that keeps its contract does its actions in order, and returns. -/
theorem runCallback_actions (h : s.Serves d acts) (contract : none ∈ acts → c = .onReceive) :
    runCallback c d (acts.map (actionWord d)) s = .next (s.afterActions d acts) := by
  induction acts generalizing s with
  | nil => rw [State.afterActions_nil]; rfl
  | cons act acts ih =>
    have one := callbackCommand_action h fun e => contract (e ▸ List.mem_cons_self)
    have others := ih h.afterAction fun more => contract (List.mem_cons_of_mem _ more)
    rw [List.map_cons, runCallback, one, andThen_ok, others, afterActions_cons h]

/-- R71: the bytes written lie from the old TXWI upwards; every other byte is left. -/
theorem afterActions_byteAt (wf : Memory.wf s.mem) (buf : Buf) (i : Nat) :
    (s.afterActions d acts).byteAt buf i =
      if buf = .tx (s.busOf d) ∧ s.bus[s.busOf d].txwi ≤ i
      then ((acts.filterMap id)[i - s.bus[s.busOf d].txwi]?).getD (s.byteAt buf i)
      else s.byteAt buf i :=
  Memory.read_writeFrom wf buf i

/-! ### The upcalls (R175, R176) -/

theorem upOnRequest_of_script {ws : List Word} {rest : List (List Word)}
    (h : s.scripts = ws :: rest) :
    exec (.upOnRequest d) s =
      runCallback .onRequest d ws (upcallSent (pack 0xF0 (indexByte d) 0 0) rest s) := by
  show execUpOnRequest d s = _
  unfold execUpOnRequest State.nextScript State.takeScript
  rw [h]
  rfl

theorem upOnReceive_of_script {n : Byte} {ws : List Word} {rest : List (List Word)}
    (h : s.scripts = ws :: rest) :
    exec (.upOnReceive d n) s =
      runCallback .onReceive d ws (upcallSent (pack 0xF1 (indexByte d) 0 n) rest s) := by
  show execUpOnReceive d n s = _
  unfold execUpOnReceive State.nextScript State.takeScript
  rw [h]
  rfl

end

/-- The state that the upcall and the actions of its callback leave. -/
theorem afterActions_upcallSent (word : Word) (rest : List (List Word)) (s : State) (d : DrvId)
    (acts : List CallbackAction) : (upcallSent word rest s).afterActions d acts = { s with
      mem := s.mem.writeFrom (.tx (s.busOf d)) s.bus[s.busOf d].txwi (acts.filterMap id)
      scripts := rest
      bus := s.bus.set (s.busOf d) (s.bus[s.busOf d].afterWrites (acts.filterMap id).length)
      drv := s.drv.set d (s.drv[d].afterReads (acts.count none))
      out := s.out ++ .upcall word :: actionResponses s d s.drv[d].rdi acts } := by
  have responses : actionResponses (upcallSent word rest s) d s.drv[d].rdi acts =
      actionResponses s d s.drv[d].rdi acts := actionResponses_congr (fun _ => rfl) fun _ => rfl
  rw [List.append_cons, ← responses]
  rfl

theorem actionResponses_writes (s : State) (d : DrvId) (i : Nat) (xs : List Byte) :
    actionResponses s d i (xs.map some) =
      xs.map fun _ => .rsp (pack 0x09 (indexByte d) 0 0) := by
  induction xs with
  | nil => rfl
  | cons x xs ih => exact congrArg _ ih

theorem actionResponses_reads (s : State) (d : DrvId) (i n : Nat) :
    actionResponses s d i (List.replicate n none) = (List.range' i n).map
      fun k => .rsp (pack 0x0C (indexByte d) 0 (s.byteAt (.rd d) k)) := by
  induction n generalizing i with
  | zero => rfl
  | succ n ih => exact congrArg _ (ih (i + 1))

/-- The same choice between a byte of a list and another one, written in two ways. -/
theorem ite_getD_eq_dite {p q : Prop} [Decidable p] [Decidable q] (xs : List Byte) (k : Nat)
    (y : Byte) : (if p ∧ q then (xs[k]?).getD y else y) =
      if h : p ∧ q ∧ k < xs.length then xs[k]'h.2.2 else y := by
  by_cases h : p ∧ q ∧ k < xs.length
  · rw [dif_pos h, if_pos ⟨h.1, h.2.1⟩, List.getElem?_eq_getElem h.2.2, Option.getD_some]
  · rw [dif_neg h, ite_eq_right_iff]
    rintro ⟨hp, hq⟩
    have past : xs.length ≤ k := Nat.not_lt.mp fun hk => h ⟨hp, hq, hk⟩
    rw [List.getElem?_eq_none past, Option.getD_none]

/-- Settles O42: the actions of the callback are WRITEs only. -/
theorem requestCallbackFillsTheAnswer : Obligations.RequestCallbackFillsTheAnswer := by
  intro s d xs rest driver wf script room
  have writes : (xs.map some).filterMap id = xs := by simp
  have onlyWrites : (none : CallbackAction) ∉ xs.map some := by simp
  have words : s.scripts = (xs.map some).map (actionWord d) :: rest := by
    rw [script, List.map_map]
    rfl
  have serves : (upcallSent (pack 0xF0 (indexByte d) 0 0) rest s).Serves d (xs.map some) :=
    ⟨decide_eq_true driver, fun read => absurd read onlyWrites,
      fun _ => by rw [writes]; exact room⟩
  have bytes := afterActions_byteAt (s := upcallSent (pack 0xF0 (indexByte d) 0 0) rest s)
    (d := d) (acts := xs.map some) wf
  rw [writes] at bytes
  rw [upOnRequest_of_script words, runCallback_actions serves fun read => absurd read onlyWrites]
  refine ⟨_, rfl, ?_, fun buf i => (bytes buf i).trans (ite_getD_eq_dite ..)⟩
  rw [afterActions_upcallSent, writes, List.count_eq_zero.mpr onlyWrites,
    actionResponses_writes, DrvRegs.afterReads_zero, vector_set_same]
  rfl

/-- R176: a callback that READs a whole message gets its bytes in order, and empties the cursor. -/
theorem runCallback_drains {s : State} {d : DrvId} {n : Nat} (driver : s.cfg.hasDriver d = true)
    (rdi : s.drv[d].rdi = 0) (rdl : s.drv[d].rdl = n) (length : n ≤ s.cfg.rdCap) :
    runCallback .onReceive d (List.replicate n (pack 0x0C (indexByte d) 0 0)) s = .next { s with
      drv := s.drv.set d { s.drv[d] with rdi := 0, rdl := 0 }
      out := s.out ++ (List.range n).map
        fun i => .rsp (pack 0x0C (indexByte d) 0 (s.byteAt (.rd d) i)) } := by
  have reads : (List.replicate n (none : CallbackAction)).count none = n :=
    List.count_replicate_self
  have writes : (List.replicate n (none : CallbackAction)).filterMap id = [] := by simp
  have words : List.replicate n (pack 0x0C (indexByte d) 0 0) =
      (List.replicate n none).map (actionWord d) := by
    rw [List.map_replicate]
    rfl
  have serves : s.Serves d (List.replicate n none) :=
    ⟨driver, fun _ => ⟨by rw [reads, rdi, rdl, Nat.zero_add], rdl.trans_le length⟩,
      fun written => absurd writes written⟩
  have unwritten : s.bus.set (s.busOf d) (s.bus[s.busOf d].afterWrites ([] : List Byte).length) =
      s.bus := vector_set_same ..
  rw [words, runCallback_actions serves fun _ => rfl, State.afterActions, reads, writes,
    DrvRegs.afterReads_all rdi rdl, rdi, actionResponses_reads, List.range_eq_range', unwritten]
  rfl

/-- Settles O43: a full drain, and the general case; in both the actions are those of the script. -/
theorem receiveCallbackDrainsInOrder : Obligations.ReceiveCallbackDrainsInOrder := by
  refine ⟨fun s d n rest driver script rdi rdl _ length => ?_, ?_⟩
  · rw [upOnReceive_of_script script,
      runCallback_drains (s := upcallSent _ rest s) (decide_eq_true driver) rdi rdl length,
      List.append_cons]
    rfl
  · rintro s d n acts rest _ _ rfl rfl driver wf script left length room
    have serves : (upcallSent (pack 0xF1 (indexByte d) 0 n) rest s).Serves d acts :=
      ⟨decide_eq_true driver, fun _ => ⟨left, length⟩, fun _ => room⟩
    rw [upOnReceive_of_script script, runCallback_actions serves fun _ => rfl]
    refine ⟨_, rfl, ?_, afterActions_byteAt wf⟩
    rw [afterActions_upcallSent]
    rfl

/-! ### Where a callback stops (R144, R259, R289) -/

section
variable {c : Upcall} {d : DrvId} {w : Word} {s : State}

/-- R259: a legal command that the callback may not issue. -/
theorem callbackCommand_refused {i : Instr} (legal : decodeCmd s.cfg w = .ok i)
    (breach : keepsContract s.cfg c d w = false) :
    callbackCommand c d w s = .refused .callbackContract := by
  unfold keepsContract at breach
  unfold callbackCommand
  rw [legal] at breach ⊢
  cases i with
  | write d' x => exact if_neg (by simpa using breach)
  | read d' => exact if_neg (by simpa using breach)
  | _ => rfl

/-- R144, R76: a WRITE to a full TXBUF. -/
theorem callbackCommand_overrun {b : BusId} {x : Byte} (bus : s.busOf d = b)
    (write : decodeCmd s.cfg w = .ok (.write d x)) (full : s.cfg.txCap ≤ s.bus[b].txwi) :
    callbackCommand c d w s = .fault (.overrun (.tx b) s.bus[b].txwi) := by
  subst bus
  unfold callbackCommand
  rw [write]
  exact (if_pos rfl).trans (andThen_fault.mpr (.inl (appendTx_fault.mpr ⟨full, rfl⟩)))

/-- R289: a READ of an empty cursor. -/
theorem callbackCommand_hold (read : decodeCmd s.cfg w = .ok (.read d))
    (empty : s.cursorEmpty d = true) :
    callbackCommand .onReceive d w s = .fault (.callbackHold d) := by
  unfold callbackCommand
  rw [read]
  exact (if_pos ⟨rfl, rfl⟩).trans (if_pos empty)

/-- What the command `w`, after commands that completed, stops a callback with. -/
theorem runCallback_stops {pre : List Word} {u : State} {i : Instr}
    (completed : runCallback c d pre s = .next u) (legal : decodeCmd s.cfg w = .ok i)
    (ws : List Word) :
    (keepsContract s.cfg c d w = false →
      runCallback c d (pre ++ w :: ws) s = .refused .callbackContract) ∧
    (∀ x, i = .write d x → s.cfg.txCap ≤ u.bus[s.busOf d].txwi →
      runCallback c d (pre ++ w :: ws) s =
        .fault (.overrun (.tx (s.busOf d)) u.bus[s.busOf d].txwi)) ∧
    (c = .onReceive → i = .read d → u.cursorEmpty d = true →
      runCallback c d (pre ++ w :: ws) s = .fault (.callbackHold d)) := by
  have cfg : u.cfg = s.cfg := (runCallback_kept completed).cfg
  have bus : u.busOf d = s.busOf d := congrArg (fun p => p.busOf[d]) cfg
  have comes : runCallback c d (pre ++ w :: ws) s =
      andThen (callbackCommand c d w u) (runCallback c d ws) := by
    rw [runCallback_append, completed]
    rfl
  rw [comes]
  rw [← cfg] at legal ⊢
  refine ⟨fun breach => ?_, fun x write full => ?_, fun receive read empty => ?_⟩
  · rw [callbackCommand_refused legal breach, andThen_declined]
  · subst write
    rw [callbackCommand_overrun bus legal full, andThen_faulted]
  · subst receive read
    rw [callbackCommand_hold legal empty, andThen_faulted]

end

/-- Settles O44: each case stops at the command; after a full drain a further READ holds. -/
theorem callbackStops : Obligations.CallbackStops := by
  refine ⟨fun s u d n pre ws w rest i script legal => ⟨fun completed => ?_, fun completed => ?_⟩,
    fun s d n m ws rest driver script rdi rdl length => ?_⟩
  · rw [upOnRequest_of_script script]
    obtain ⟨refused, full, -⟩ := runCallback_stops completed legal ws
    exact ⟨refused, full⟩
  · rw [upOnReceive_of_script script]
    obtain ⟨refused, full, hold⟩ := runCallback_stops completed legal ws
    exact ⟨refused, full, hold rfl⟩
  · have drained := runCallback_drains (s := upcallSent (pack 0xF1 (indexByte d) 0 n) rest s)
      (decide_eq_true driver) rdi rdl length
    rw [upOnReceive_of_script script, List.replicate_succ', List.append_assoc]
    obtain ⟨-, -, hold⟩ := runCallback_stops drained
      (decodeCmd_encode (i := .read d) (decide_eq_true driver) rfl) ws
    refine hold rfl rfl ?_
    simp [State.cursorEmpty]

end Sys2Proof.Machine

/-! SUPPORT. Which upcalls a step puts on the port (spec/42_slave_commands.md R171 to R174,
spec/90_conflicts.md C2). -/

namespace Sys2Proof.Machine

/-! ### The upcalls a driver allows -/

/-- The upcall word of a driver in Slave role that has that callback bound. -/
def State.Allows (s : State) (w : Word) : Prop :=
  ∃ d : DrvId, s.drv[d].role = .slave ∧
    ((w = pack 0xF0 (indexByte d) 0 0 ∧ s.drv[d].onreq = true) ∨
      (∃ n, w = pack 0xF1 (indexByte d) 0 n ∧ s.drv[d].onrcv = true))

/-- The ports grow, and every new upcall word is one of `ok`. -/
def Asks (ok : Word → Prop) (s t : State) : Prop :=
  ∃ new, t.out = s.out ++ new ∧ ∀ w, .upcall w ∈ new → ok w

section
variable {ok : Word → Prop} {s t u : State}

theorem Asks.of_out (h : t.out = s.out) : Asks ok s t := ⟨[], by simp [h], by simp⟩

theorem Asks.refl (s : State) : Asks ok s s := .of_out rfl

theorem Asks.trans (h : Asks ok s t) (k : Asks ok t u) : Asks ok s u := by
  obtain ⟨x, hx, hw⟩ := h
  obtain ⟨y, hy, kw⟩ := k
  exact ⟨x ++ y, by rw [hy, hx, List.append_assoc],
    fun w hm => (List.mem_append.mp hm).elim (hw w) (kw w)⟩

theorem Asks.mono {ok' : Word → Prop} (h : Asks ok s t) (le : ∀ w, ok w → ok' w) :
    Asks ok' s t := by
  obtain ⟨new, out, asked⟩ := h
  exact ⟨new, out, fun w hw => le w (asked w hw)⟩

/-- An earlier update that puts nothing on a port. -/
theorem Asks.after_out (k : Asks ok t u) (h : t.out = s.out) : Asks ok s u :=
  (Asks.of_out h).trans k

/-- A later update that puts nothing on a port. -/
theorem Asks.then_out (h : Asks ok s t) (k : u.out = t.out) : Asks ok s u := h.trans (.of_out k)

theorem Asks.upcall {w : Word} (h : ok w) (s : State) : Asks ok s (s.emit (.upcall w)) :=
  ⟨[.upcall w], rfl, by simpa using h⟩

theorem Asks.hal (w : Word) (ret : Option Word) (role : Option Role) (s : State) :
    Asks ok s (s.emit (.hal w ret role)) := ⟨[_], rfl, by simp⟩

theorem Asks.respond (op drv : Byte) (ill : Bool) (v : Byte) (s : State) :
    Asks ok s (respond op drv ill v s) := ⟨[_], rfl, by simp⟩

theorem Asks.halQuery (hop : Byte) (b : BusId) (s : State) : Asks ok s (halQuery hop b s) :=
  (Asks.hal ..).after_out (State.takeAnswer_out s)

theorem Asks.ite {c : Prop} [Decidable c] (ht : Asks ok s t) (hu : Asks ok s u) :
    Asks ok s (if c then t else u) := by
  split
  · exact ht
  · exact hu

/-- An operation that always answers the one state. -/
theorem asks_of_next (h : (.next u : Result) = .next t) (hu : Asks ok s u) : Asks ok s t := by
  cases h; exact hu

end

/-! ### The handlers (R173, R174) -/

section
variable {ok : Word → Prop} {c : Upcall} {d : DrvId} {b : BusId} {s t : State}

/-- What the dispatcher side keeps decides which upcalls are allowed. -/
theorem Kept.allows {w : Word} (h : Kept s t) (hw : t.Allows w) : s.Allows w := by
  obtain ⟨d, hd⟩ := hw
  obtain ⟨role, -, -, -, onreq, onrcv⟩ := h.drv d
  rw [role, onreq, onrcv] at hd
  exact ⟨d, hd⟩

theorem appendTx_out {v : Byte} (h : appendTx b v s = .next t) : t.out = s.out := by
  obtain ⟨_, rfl⟩ := appendTx_next.mp h
  rfl

theorem appendRx_out {v : Byte} (h : appendRx b v s = .next t) : t.out = s.out := by
  obtain ⟨_, rfl⟩ := appendRx_next.mp h
  rfl

theorem popCursor_out (d : DrvId) (s : State) : (s.popCursor d).out = s.out := by
  rw [popCursor_eq]
  rfl

theorem deliver_out (h : deliver d s = .next t) : t.out = s.out := by
  obtain ⟨_, _, rfl⟩ := deliver_next h
  rfl

theorem callbackCommand_asks {w : Word} (h : callbackCommand c d w s = .next t) : Asks ok s t := by
  rcases callbackCommand_next h with ⟨x, h⟩ | ⟨_, h⟩ | rfl
  · obtain ⟨u, hu, rfl⟩ := callbackWrite_next.mp h
    exact (Asks.respond ..).after_out (appendTx_out hu)
  · obtain ⟨_, _, rfl⟩ := callbackRead_next.mp h
    exact (Asks.respond ..).after_out (popCursor_out d s)
  · exact .respond ..

/-- R175, R176: a callback asks no further callback. -/
theorem runCallback_asks {ws : List Word} (h : runCallback c d ws s = .next t) : Asks ok s t :=
  runCallback_induct (Asks ok) .refl (fun _ _ _ => .trans) (fun _ _ _ => callbackCommand_asks) h

theorem upOnRequest_asks (slave : s.drv[d].role = .slave) (bound : s.drv[d].onreq = true)
    (h : execUpOnRequest d s = .next t) : Asks s.Allows s t := by
  have allowed : s.Allows (upcallWord 0xF0 d 0) := ⟨d, slave, .inl ⟨rfl, bound⟩⟩
  exact ((Asks.upcall allowed _).after_out (State.takeScript_out s)).trans (runCallback_asks h)

theorem upOnReceive_asks {n : Byte} (slave : s.drv[d].role = .slave)
    (bound : s.drv[d].onrcv = true) (h : execUpOnReceive d n s = .next t) :
    Asks s.Allows s t := by
  have allowed : s.Allows (upcallWord 0xF1 d n) := ⟨d, slave, .inr ⟨n, rfl, bound⟩⟩
  exact ((Asks.upcall allowed _).after_out (State.takeScript_out s)).trans (runCallback_asks h)

/-- R173: in Slave role, with an empty answer and the callback bound. -/
theorem handleRequestSlave_asks (slave : s.drv[d].role = .slave)
    (h : execHandleRequestSlave d s = .next t) : Asks s.Allows s t := by
  obtain ⟨u, hu, h⟩ := andThen_next.mp h
  refine Asks.trans (t := u) ?_ ?_
  · rcases refillAnswer_next hu with ⟨_, rfl⟩ | ⟨_, v, ⟨bound, hv⟩ | ⟨_, rfl⟩, rfl⟩
    · exact .refl _
    · exact (upOnRequest_asks slave bound hv).then_out rfl
    · exact .of_out rfl
  · rcases serveAnswer_next h with ⟨_, rfl⟩ | ⟨_, _, rfl⟩
    · exact .of_out rfl
    · exact (Asks.hal ..).after_out rfl

/-- R174: after a delivery, in Slave role with the callback bound. -/
theorem handleReceive_asks (h : execHandleReceive d s = .next t) : Asks s.Allows s t := by
  rcases handleReceive_next h with ⟨_, rfl⟩ | ⟨_, u, hu, told⟩
  · exact .of_out rfl
  · have out := deliver_out hu
    rcases told with ⟨hd, h⟩ | ⟨_, rfl⟩
    · obtain ⟨slave, bound⟩ := Bool.and_eq_true_iff.mp hd
      exact ((upOnReceive_asks (beq_iff_eq.mp slave) bound h).mono
        fun _ => (deliver_kept hu).allows).after_out out
    · exact .of_out out

theorem evReceive_asks (h : execEvReceive s = .next t) : Asks ok s t := by
  obtain ⟨u, v, hu, hv, ht⟩ := evReceive_next h
  refine ((Asks.halQuery ..).then_out (appendRx_out hu)).trans (Asks.trans (t := v) ?_ ?_)
  · rcases hv with rfl | rfl
    · exact .of_out rfl
    · exact (Asks.hal ..).after_out rfl
  · rcases ht with rfl | rfl | ⟨_, _, rfl⟩ <;> exact .of_out rfl

theorem transmitMaster_asks (h : transmitMaster b d s = .next t) : Asks ok s t := by
  rcases transmitMaster_next h with ⟨_, rfl⟩ | ⟨_, _, rfl⟩
  · unfold exhaustTx
    split
    · exact (Asks.hal ..).then_out rfl
    · exact .of_out rfl
  · exact (Asks.hal ..).then_out rfl

theorem evTransmit_asks (h : execEvTransmit s = .next t) : Asks s.Allows s t := by
  rcases evTransmit_next h with rfl | ⟨d, _, ⟨_, h⟩ | ⟨slave, h⟩⟩
  · exact .of_out rfl
  · exact (transmitMaster_asks h).after_out rfl
  · exact (handleRequestSlave_asks (s := s.setFound (some d)) slave h).after_out rfl

theorem evNak_asks (h : execEvNak s = .next t) : Asks ok s t := by
  rcases evNak_next h with rfl | ⟨_, _, rfl⟩ <;> exact .of_out rfl

theorem evStop_asks (h : execEvStop s = .next t) : Asks s.Allows s t := by
  rcases evStop_next h with rfl | ⟨d, _, ⟨_, _, rfl⟩ | ⟨_, h⟩⟩
  · exact .of_out rfl
  · exact ((Asks.hal ..).after_out rfl).then_out rfl
  · exact (handleReceive_asks (s := s.setFound (some d)) h).after_out rfl

theorem onCondition_asks {bit : Nat} {f : State → Result}
    (hf : ∀ {t}, f s = .next t → Asks ok s t) (h : onCondition bit f s = .next t) :
    Asks ok s t := by
  rcases onCondition_next h with rfl | h
  · exact .refl _
  · exact hf h

theorem onCondition_kept {bit : Nat} {f : State → Result}
    (hf : ∀ {t}, f s = .next t → Kept s t) (h : onCondition bit f s = .next t) : Kept s t := by
  rcases onCondition_next h with rfl | h
  · exact .refl _
  · exact hf h

/-- R190: no handler changes which upcalls a later one is allowed. -/
theorem handleConditions_asks (h : handleConditions s = .next t) : Asks s.Allows s t := by
  obtain ⟨x, y, z, hx, hy, hz, ht⟩ := handleConditions_next h
  have first : Kept s x := onCondition_kept evReceive_kept hx
  have third : Kept s z := (first.trans (onCondition_kept evTransmit_kept hy)).trans
    (onCondition_kept evNak_kept hz)
  have transmit : Asks s.Allows x y :=
    (onCondition_asks evTransmit_asks hy).mono fun _ => first.allows
  have stop : Asks s.Allows z t := (onCondition_asks evStop_asks ht).mono fun _ => third.allows
  exact ((onCondition_asks evReceive_asks hx).trans transmit).trans
    ((onCondition_asks evNak_asks hz).trans stop)

theorem dispatch_asks {bus : Byte} (h : execDispatch bus s = .next t) : Asks s.Allows s t := by
  rcases dispatch_next h with ⟨_, rfl⟩ | ⟨b, _, _, u, hu, rfl⟩
  · exact .refl _
  · have begun : Asks s.Allows s (beginDispatch b s) :=
      ⟨_, by rw [beginDispatch_eq], by simp⟩
    have allowed (w : Word) (hw : (beginDispatch b s).Allows w) : s.Allows w := by
      rwa [State.Allows, beginDispatch_drv] at hw
    exact begun.trans (((handleConditions_asks hu).mono allowed).then_out rfl)

/-! ### The commands of the foreground (R130 to R149, R170 to R172) -/

theorem finish_asks {op drv v : Byte} {u : State} (h : finish op drv v u = .next t)
    (hu : Asks ok s u) : Asks ok s t :=
  asks_of_next h (hu.trans ((Asks.respond op drv false v (release u)).after_out rfl))

/-- A guard that goes to a phase, or completes the command at once (R143). -/
theorem guard_asks {p : Prop} [Decidable p] {op drv v : Byte} {phase : BitVec 4}
    (h : (if p then .next (goto phase s) else finish op drv v s) = .next t) : Asks ok s t := by
  split at h
  · exact asks_of_next h (.of_out rfl)
  · exact finish_asks h (.refl s)

theorem holdQuery_asks {hop : Byte} {next : BitVec 4}
    (h : holdQuery (halQuery hop b) next s = .next t) : Asks ok s t :=
  asks_of_next h (.ite (.halQuery ..) ((Asks.halQuery ..).then_out rfl))

theorem beginTransmission_asks {a : Byte} (h : execBeginTransmission d a s = .next t) :
    Asks ok s t := by
  unfold execBeginTransmission at h
  split at h
  · exact guard_asks h
  · exact holdQuery_asks h
  · exact finish_asks h (.ite ((Asks.hal ..).then_out rfl) (.refl s))
  · cases h

theorem decrementTx_out (b : BusId) (s : State) : (decrementTx b s).out = s.out := by
  rcases decrementTx_cases b s with ⟨_, h⟩ | ⟨_, h⟩ <;> rw [h] <;> rfl

theorem startTransmission_asks {stop : Bool} (h : startTransmission d stop s = .next t) :
    Asks ok s t := by
  unfold startTransmission at h
  obtain ⟨_, h⟩ := loadByte_next.mp h
  exact asks_of_next h (((Asks.hal ..).trans (.hal ..)).after_out (decrementTx_out ..))

theorem endTransmission_asks {stop : Bool} (h : execEndTransmission d stop s = .next t) :
    Asks ok s t := by
  unfold execEndTransmission at h
  split at h
  · exact guard_asks h
  · exact holdQuery_asks h
  · obtain ⟨u, hu, h⟩ := andThen_next.mp h
    exact finish_asks h (startTransmission_asks hu)
  · cases h

theorem startReceive_asks (d : DrvId) (a n : Byte) (s : State) :
    Asks ok s (startReceive d a n s) :=
  ((Asks.hal ..).after_out rfl).trans (((Asks.hal ..).after_out rfl).trans (.hal ..))

/-- R148: phase 8 can deliver a message as a STOP does. -/
theorem finishReceive_asks (h : finishReceive d s = .next t) : Asks s.Allows s t := by
  have mode : Asks s.Allows s (halSetMode (s.busOf d) .transmit s) := .hal ..
  unfold finishReceive at h
  dsimp only at h
  split at h
  · exact finish_asks h (mode.then_out rfl)
  · obtain ⟨u, hu, h⟩ := andThen_next.mp h
    obtain ⟨v, hv, hu⟩ := andThen_next.mp hu
    have collected : Asks s.Allows (halSetMode (s.busOf d) .transmit s) v := by
      split at hv
      · exact asks_of_next hv (.refl _)
      · exact handleReceive_asks hv
    cases hu
    exact finish_asks h ((mode.trans collected).then_out rfl)

theorem requestFrom_asks {a n : Byte} (h : execRequestFrom d a n s = .next t) :
    Asks s.Allows s t := by
  unfold execRequestFrom at h
  split at h
  · exact guard_asks h
  · exact holdQuery_asks h
  · obtain ⟨u, hu, h⟩ := andThen_next.mp h
    exact asks_of_next h ((startTransmission_asks hu).then_out rfl)
  · exact asks_of_next h (.ite (.of_out rfl) (.refl s))
  · exact asks_of_next h ((startReceive_asks d a n s).then_out rfl)
  · exact asks_of_next h ((Asks.ite (.hal ..) (.refl s)).then_out rfl)
  · exact asks_of_next h (.of_out rfl)
  · exact asks_of_next h (.ite (.of_out rfl) (.refl s))
  · exact finishReceive_asks h
  · cases h

theorem read_asks (h : execRead d s = .next t) : Asks ok s t := by
  unfold execRead at h
  split at h
  · exact asks_of_next h (.ite (.refl s) (.of_out rfl))
  · obtain ⟨_, h⟩ := popRead_next.mp h
    exact finish_asks h (.of_out (popCursor_out d s))
  · cases h

/-- Of the commands only REQUEST_FROM can ask a callback. -/
theorem exec_command_asks {i : Instr} (command : phaseCount i ≠ 0) (h : exec i s = .next t) :
    Asks s.Allows s t := by
  cases i with
  | register | unregister | setSpeed | onRequest | onReceive => exact finish_asks h (.of_out rfl)
  | beginMaster | beginSlave =>
    exact finish_asks h (((Asks.hal ..).after_out rfl).trans ((Asks.hal ..).trans (.hal ..)))
  | beginTransmission => exact beginTransmission_asks h
  | write =>
    obtain ⟨u, hu, h⟩ := andThen_next.mp h
    exact finish_asks h (.of_out (appendTx_out hu))
  | endTransmission => exact endTransmission_asks h
  | requestFrom => exact requestFrom_asks h
  | read => exact read_asks h
  | _ => exact absurd rfl command

theorem acceptCommand_asks (w : Word) (s : State) : Asks ok s (acceptCommand w s) := by
  unfold acceptCommand
  split
  · exact .of_out rfl
  · exact .respond ..

/-! ### The step -/

/-- 90_conflicts C2: by the cases of a step. -/
theorem step_asks (h : step s = .next t) : Asks s.Allows s t := by
  have ticked := tick_out s
  rcases step_cases s (step_next_idle h) with ⟨bus, rest, _, _, hs⟩ | ⟨_, rest, _, _, hs⟩ |
      ⟨_, ⟨i, _, hi, _, hs⟩ | ⟨_, _, _, hs⟩ | ⟨w, rest, _, _, hs⟩ | ⟨_, _, hs⟩⟩ <;>
    rw [hs] at h
  · exact (dispatch_asks (s := { s with irq := rest }) h).after_out rfl
  · exact asks_of_next h (.of_out rfl)
  · have allowed (w : Word) (hw : (tick s).Allows w) : s.Allows w := by
      rwa [State.Allows, tick_drv] at hw
    exact ((exec_command_asks (decodeCmd_phaseCount hi) h).mono allowed).after_out ticked
  · exact asks_of_next h ((Asks.respond ..).after_out ticked)
  · exact asks_of_next h ((acceptCommand_asks w { tick s with cmd := rest }).after_out ticked)
  · exact asks_of_next h (.of_out ticked)

end

/-- Settles O54: every upcall a step puts on the port was allowed before it. -/
theorem callbacksFireOnlyInSlaveRole : Obligations.CallbacksFireOnlyInSlaveRole := by
  intro s t new w _ h out asked
  obtain ⟨new', out', allowed⟩ := step_asks h
  obtain rfl : new = new' := List.append_cancel_left (out.symm.trans out')
  exact allowed w asked

end Sys2Proof.Machine

/-! SUPPORT. The statements of spec/43_dispatcher.md: the four condition handlers (R191 to R195),
and the invocations that complete for every status word (R190). -/

namespace Sys2Proof.Machine

section
variable {b : BusId} {d : DrvId} {s : State}

/-! ### What a handler's LOOKUP leads to (R191) -/

theorem isSlave_iff : s.isSlave d = true ↔ s.drv[d].role = .slave := beq_iff_eq

theorem withDriverOf_miss {hit : DrvId → State → Result} {miss : State → Result}
    (missing : s.lookup b = none) : withDriverOf b s hit miss = miss (s.setFound none) := by
  rw [withDriverOf_eq, missing]

theorem withDriverOf_hit {hit : DrvId → State → Result} {miss : State → Result}
    (found : s.lookup b = some d) : withDriverOf b s hit miss = hit d (s.setFound (some d)) := by
  rw [withDriverOf_eq, found]

/-! ### EV_TRANSMIT (R193) -/

theorem evTransmit_of_miss (missing : s.lookup s.disp.bus = none) :
    execEvTransmit s = .next (s.setFound none) := withDriverOf_miss missing

theorem evTransmit_of_slave (found : s.lookup s.disp.bus = some d)
    (slave : s.drv[d].role = .slave) :
    execEvTransmit s = execHandleRequestSlave d (s.setFound (some d)) := by
  have notMaster : ¬(s.setFound (some d)).isMaster d = true := by
    rw [isMaster_iff, State.setFound_drv, slave]; exact nofun
  exact (withDriverOf_hit found).trans
    ((if_neg notMaster).trans (if_pos (isSlave_iff.mpr slave)))

/-- R34: role Unset is neither Master nor Slave. -/
theorem evTransmit_of_unset (found : s.lookup s.disp.bus = some d)
    (unset : s.drv[d].role = .unset) : execEvTransmit s = .next (s.setFound (some d)) := by
  have notMaster : ¬(s.setFound (some d)).isMaster d = true := by
    rw [isMaster_iff, State.setFound_drv, unset]; exact nofun
  have notSlave : ¬(s.setFound (some d)).isSlave d = true := by
    rw [isSlave_iff, State.setFound_drv, unset]; exact nofun
  exact (withDriverOf_hit found).trans ((if_neg notMaster).trans (if_neg notSlave))

/-- R82, R193: with TXCS - TXWI an index of TXBUF, the byte there goes out and TXWI counts
down. -/
theorem transmitMaster_of_within (busy : s.bus[b].txwi ≠ 0)
    (count : s.bus[b].txwi ≤ s.bus[b].txcs)
    (within : s.bus[b].txcs - s.bus[b].txwi < s.cfg.txCap) :
    transmitMaster b d s = .next
      ((halSendNextByte b (some s.drv[d].role) (s.byteAt (.tx b) (s.bus[b].txcs - s.bus[b].txwi))
        s).setTxwi b (s.bus[b].txwi - 1)) :=
  (if_neg fun idle => busy (txIdle_iff.mp idle)).trans (countDownTx_ok count within _)

/-! ### EV_NAK (R194) -/

theorem evNak_of_miss (missing : s.lookup s.disp.bus = none) :
    execEvNak s = .next (s.setFound none) := withDriverOf_miss missing

theorem evNak_of_hit (found : s.lookup s.disp.bus = some d) :
    execEvNak s = .next (markNak d (s.setFound (some d))) := withDriverOf_hit found

/-! ### EV_STOP (R195) -/

theorem evStop_of_miss (missing : s.lookup s.disp.bus = none) :
    execEvStop s = .next (s.setFound none) := withDriverOf_miss missing

/-- R195: a slave is stopped in mid-answer. -/
theorem collision_iff : (s.isSlave d && !s.txIdle b) = true ↔
    s.drv[d].role = .slave ∧ s.bus[b].txwi ≠ 0 := by
  rw [Bool.and_eq_true, isSlave_iff, Bool.not_eq_true', ← Bool.not_eq_true, txIdle_iff]

theorem evStop_of_collision (found : s.lookup s.disp.bus = some d)
    (slave : s.drv[d].role = .slave) (busy : s.bus[s.disp.bus].txwi ≠ 0) :
    execEvStop s = .next (writeCollision s.disp.bus d (s.setFound (some d))) :=
  (withDriverOf_hit found).trans (if_pos (collision_iff.mpr ⟨slave, busy⟩))

/-- R195: without a collision the bytes waiting decide. -/
theorem evStop_of_noCollision (found : s.lookup s.disp.bus = some d)
    (quiet : s.drv[d].role ≠ .slave ∨ s.bus[s.disp.bus].txwi = 0) :
    execEvStop s =
      if s.bus[s.disp.bus].rxwi = 0 then .next (s.setFound (some d))
      else execHandleReceive d (s.setFound (some d)) := by
  have noCollision :
      ¬((s.setFound (some d)).isSlave d && !(s.setFound (some d)).txIdle s.disp.bus) = true :=
    fun collision => by
      obtain ⟨slave, busy⟩ := collision_iff.mp collision
      exact quiet.elim (· slave) busy
  exact (withDriverOf_hit found).trans (if_neg noCollision)

end

/-- Settles O35: a byte is left, or the end is reached with or without a stop asked for. -/
theorem transmitEventInMasterRole : Obligations.TransmitEventInMasterRole := by
  rintro s _ d rfl found master
  have served : exec .evTransmit s = _ := evTransmit_of_master found master
  refine ⟨fun busy count within => ?_, fun idle stop => ?_, fun idle noStop => ?_⟩
  · rw [served, transmitMaster_of_within (s := s.setFound (some d)) busy count within,
      State.setFound_drv, master]
    rfl
  · rw [served, transmitMaster_exhausted (s := s.setFound (some d)) d idle,
      exhaustTx_stop (s := s.setFound (some d)) _ stop]
    rfl
  · rw [served, transmitMaster_exhausted (s := s.setFound (some d)) d idle,
      exhaustTx_noStop (s := s.setFound (some d)) _ noStop]
    rfl

/-- Settles O36: the branches of R193 that are not the master's. -/
theorem transmitEventElsewhere : Obligations.TransmitEventElsewhere := by
  rintro s _ rfl
  exact ⟨evTransmit_of_miss, fun _ => evTransmit_of_unset, fun _ => evTransmit_of_slave⟩

/-- Settles O37: no role is asked for. -/
theorem nakEventOnlyRecords : Obligations.NakEventOnlyRecords := by
  rintro s _ rfl
  exact ⟨evNak_of_miss, fun _ => evNak_of_hit⟩

/-- Settles O38, branch by branch of R195. -/
theorem stopEventFinalises : Obligations.StopEventFinalises := by
  rintro s _ rfl
  refine ⟨evStop_of_miss, fun d found slave busy => ?_, fun d found quiet waiting => ?_,
    fun d found quiet nothing => ?_⟩
  · refine (evStop_of_collision found slave busy).trans ?_
    rw [writeCollision, State.setRxcs_setRxwi, State.setFound_drv, slave]
    rfl
  · exact (evStop_of_noCollision found quiet).trans (if_neg waiting)
  · exact (evStop_of_noCollision found quiet).trans (if_pos nothing)

/-! ### EV_RECEIVE (R192) -/

/-- The state of EV_RECEIVE once the byte pulled is stored: what is left of the rule is the stop and
the completion flag. -/
def State.received (b : BusId) (s : State) : State :=
  { s.takeAnswer with
    mem := Memory.write s.mem (Buf.loc (.rx b) s.bus[b].rxwi) s.nextAnswer
    bus := s.bus.set b { s.bus[b] with rxwi := s.bus[b].rxwi + 1 }
    drv := s.drv
    found := s.found
    out := s.out ++
      [.hal (pack 0x0A (indexByte b) 0 0) (some (pack 0x0A (indexByte b) 0 s.nextAnswer))] }

/-- With the byte that comes now a master receive has all it asked for. -/
abbrev State.receivesLast (s : State) (b : BusId) : Prop :=
  s.bus[b].rxcs ≠ 0 ∧ s.bus[b].rxwi + 1 = s.bus[b].rxcs

/-- With the byte that comes now a master receive has all but one (R87). -/
abbrev State.receivesLastButOne (s : State) (b : BusId) : Prop :=
  s.bus[b].rxcs ≠ 0 ∧ s.bus[b].rxwi + 1 = s.bus[b].rxcs - 1

section
variable {b : BusId} {s : State}

theorem received_bus_self :
    (s.received b).bus[b] = { s.bus[b] with rxwi := s.bus[b].rxwi + 1 } := vector_get_set_self ..

theorem received_lookup : (s.received b).lookup b = s.lookup b := by
  simp [State.lookup, State.received]

theorem receiving_received : (s.received b).receiving b = true ↔ s.bus[b].rxcs ≠ 0 := by
  rw [State.receiving, received_bus_self, bne_iff_ne]

theorem rxComplete_received :
    (s.received b).rxComplete b = true ↔ s.bus[b].rxwi + 1 = s.bus[b].rxcs := by
  rw [State.rxComplete, received_bus_self, beq_iff_eq]

theorem rxOneMissing_received :
    (s.received b).rxOneMissing b = true ↔ s.bus[b].rxwi + 1 = s.bus[b].rxcs - 1 := by
  rw [State.rxOneMissing, received_bus_self, beq_iff_eq]
  exact (eq_comm.trans (Nat.pred_eq_succ_iff.trans eq_comm)).symm

/-- The two are never the same byte. -/
theorem State.receivesLast.not_lastButOne (last : s.receivesLast b) : ¬s.receivesLastButOne b :=
  fun lastButOne => Nat.pred_ne_self last.1 (lastButOne.2.symm.trans last.2)

theorem appendRx_received (room : s.bus[b].rxwi < s.cfg.rxCap) :
    appendRx b s.nextAnswer (halReceiveNextByte b s) = .next (s.received b) := by
  refine appendRx_next.mpr ⟨?_, ?_⟩
  · simpa [halReceiveNextByte, halQuery] using room
  · simp [State.received, halReceiveNextByte, halQuery, halWord, halReturnWord, State.emit]

/-- R192: past the store, the last byte looks for the driver, and the last but one asks for the
stop. -/
theorem evReceive_eq (bus : s.disp.bus = b) (room : s.bus[b].rxwi < s.cfg.rxCap) :
    execEvReceive s =
      if s.receivesLast b then
        withDriverOf b (s.received b) (fun d u => .next (markDone d u)) .next
      else .next (if s.receivesLastButOne b then halIssueStop b (s.received b)
        else s.received b) := by
  unfold execEvReceive
  dsimp only
  rw [bus, appendRx_received room, andThen_ok]
  simp only [receiving_received, rxOneMissing_received]
  by_cases active : s.bus[b].rxcs ≠ 0
  · rw [if_pos active]
    by_cases lastButOne : s.bus[b].rxwi + 1 = s.bus[b].rxcs - 1
    · have notLast : ¬s.receivesLast b := fun last => last.not_lastButOne ⟨active, lastButOne⟩
      have incomplete : ¬(halIssueStop b (s.received b)).rxComplete b = true :=
        fun complete => notLast ⟨active, rxComplete_received.mp complete⟩
      rw [if_pos lastButOne, if_neg incomplete, if_neg notLast, if_pos ⟨active, lastButOne⟩]
    · rw [if_neg lastButOne, if_neg fun h : s.receivesLastButOne b => lastButOne h.2]
      exact if_congr (rxComplete_received.trans (and_iff_right active).symm) rfl rfl
  · rw [if_neg active, if_neg fun h : s.receivesLast b => active h.1,
      if_neg fun h : s.receivesLastButOne b => active h.1]

end

/-- Settles O34: the last byte, with a driver and without, the last but one, and any other. -/
theorem receiveEventStoresTheByte : Obligations.ReceiveEventStoresTheByte := by
  intro s b bus room
  refine (evReceive_eq bus room).trans ?_
  by_cases last : s.receivesLast b
  · rw [if_pos last, if_pos last, if_pos last, if_neg last.not_lastButOne, List.append_nil]
    cases found : s.lookup b with
    | none => exact withDriverOf_miss (received_lookup.trans found)
    | some d => exact withDriverOf_hit (received_lookup.trans found)
  · rw [if_neg last, if_neg last, if_neg last]
    by_cases lastButOne : s.receivesLastButOne b
    · rw [if_pos lastButOne, if_pos lastButOne]
      rfl
    · rw [if_neg lastButOne, if_neg lastButOne, List.append_nil]
      rfl

/-! ### An invocation (R190) -/

section
variable {b : BusId} {d : DrvId} {s t : State}

@[simp] theorem beginDispatch_disp (b : BusId) (s : State) : (beginDispatch b s).disp =
    { active := true, bus := b, status := s.nextAnswer } := by
  rw [beginDispatch_eq]

@[simp] theorem beginDispatch_lookup (b b' : BusId) (s : State) :
    (beginDispatch b s).lookup b' = s.lookup b' := by
  rw [State.lookup, beginDispatch_reg, State.lookup]

theorem execDispatch_eq (present : b.val < s.cfg.numBuses) :
    execDispatch (indexByte b) s =
      andThen (handleConditions (beginDispatch b s)) fun u => .next (leaveDispatcher u) :=
  if_pos (decide_eq_true present)

/-- R111: the event of a bus that does not exist is ignored. -/
theorem execDispatch_absent {bus : Byte} (absent : s.cfg.numBuses ≤ bus.toNat) :
    execDispatch bus s = .next s :=
  if_neg fun present => Nat.not_lt.mpr absent (of_decide_eq_true present)

/-- A condition completes with a property that the state has already and the handler leaves. -/
theorem onCondition_completes {P : State → Prop} (bit : Nat) {handler : State → Result}
    (already : P s) (handled : ∃ t, handler s = .next t ∧ P t) :
    ∃ t, onCondition bit handler s = .next t ∧ P t := by
  unfold onCondition
  split
  · exact handled
  · exact ⟨s, rfl, already⟩

/-- The index registers of a bus once the first condition of this status word was served (R192). -/
def BusRegs.afterReceive (status : Byte) (r : BusRegs) : BusRegs :=
  { r with rxwi := if status.getLsbD 0 = true then r.rxwi + 1 else r.rxwi }

/-- R87: what had room for a byte does not leave RXBUF. -/
theorem BusRegs.afterReceive_rxwi_le {r : BusRegs} {cap : Nat} (status : Byte)
    (room : r.rxwi < cap) : (r.afterReceive status).rxwi ≤ cap := by
  unfold BusRegs.afterReceive
  dsimp only
  split
  · exact room
  · exact room.le

/-- R192: with room in RXBUF the first condition of an invocation completes; of the index registers
it writes RXWI of the bus alone, and without a driver no driver's. -/
theorem receiveCondition_completes (room : s.bus[b].rxwi < s.cfg.rxCap) :
    ∃ t, onCondition 0 execEvReceive (beginDispatch b s) = .next t ∧
      t.bus = s.bus.set b (s.bus[b].afterReceive s.nextAnswer) ∧
      (s.lookup b = none → t.drv = s.drv) := by
  have received := receiveEventStoresTheByte (beginDispatch b s) b (by rw [beginDispatch_disp])
    (by rwa [beginDispatch_bus, beginDispatch_cfg])
  unfold onCondition
  rw [beginDispatch_disp]
  dsimp only
  split
  · refine ⟨_, received, ?_, fun missing => ?_⟩
    · simp only [beginDispatch_bus, BusRegs.afterReceive, if_pos ‹_›]
    · simp only [beginDispatch_lookup, beginDispatch_drv, missing, ite_self]
  · refine ⟨_, rfl, ?_, fun _ => beginDispatch_drv ..⟩
    simp only [beginDispatch_bus, BusRegs.afterReceive, if_neg ‹_›]
    exact (vector_set_same s.bus b).symm

/-! ### An invocation on a bus with no driver (R191) -/

theorem lookup_of_invalid (invalid : s.reg[b].valid = false) : s.lookup b = none :=
  if_neg (by rw [invalid]; decide)

/-- A condition whose handler does nothing on a miss writes `found` at most. -/
theorem onCondition_of_miss (bit : Nat) {handler : State → Result}
    (missed : handler s = .next (s.setFound none)) :
    ∃ x, onCondition bit handler s = .next (s.setFound x) := by
  unfold onCondition
  split
  · exact ⟨none, missed⟩
  · exact ⟨s.found, rfl⟩

/-- R193 to R195: past the first condition nothing happens on a miss. -/
theorem handleConditions_of_miss (received : onCondition 0 execEvReceive s = .next t)
    (missing : t.lookup t.disp.bus = none) : ∃ x, handleConditions s = .next (t.setFound x) := by
  obtain ⟨x, transmit⟩ := onCondition_of_miss 1 (evTransmit_of_miss missing)
  obtain ⟨y, nak⟩ := onCondition_of_miss 2 (evNak_of_miss (s := t.setFound x) missing)
  obtain ⟨z, stop⟩ := onCondition_of_miss 3 (evStop_of_miss (s := t.setFound y) missing)
  refine ⟨z, ?_⟩
  rw [handleConditions, received, andThen_ok, transmit, andThen_ok, nak, andThen_ok]
  exact stop

end

/-- Settles O32: only the first condition does something on a miss. -/
theorem dispatchWithoutADriverCompletes : Obligations.DispatchWithoutADriverCompletes := by
  refine ⟨fun s bus absent => execDispatch_absent absent, fun s b present invalid room => ?_⟩
  have missing : s.lookup b = none := lookup_of_invalid invalid
  obtain ⟨u, received, regs, drv⟩ := receiveCondition_completes room
  have kept : Kept (beginDispatch b s) u := onCondition_kept evReceive_kept received
  have stillMissing : u.lookup u.disp.bus = none := by
    rw [kept.disp, beginDispatch_disp, State.lookup, kept.reg, beginDispatch_reg]
    exact missing
  obtain ⟨x, handled⟩ := handleConditions_of_miss received stillMissing
  have entry : u.bus[b] = s.bus[b].afterReceive s.nextAnswer := by
    rw [regs, vector_get_set_self]
  refine ⟨leaveDispatcher (u.setFound x), ?_, ?_, ?_, ?_, rfl, (congrArg BusRegs.txwi entry :),
    (congrArg BusRegs.txcs entry :), (congrArg BusRegs.rxcs entry :),
    (congrArg BusRegs.rxwi entry :), fun b' other => ?_⟩
  · exact (execDispatch_eq present).trans (by rw [handled, andThen_ok])
  · exact drv missing
  · exact kept.reg.trans (beginDispatch_reg ..)
  · exact kept.fg.trans (beginDispatch_fg ..)
  · show u.bus[b'] = s.bus[b']
    rw [regs, vector_get_set_ne _ other.symm]

/-! ### An invocation in Master role (R192 to R195) -/

/-- The bus that is served has a driver of its own in Master role, and the bytes received fit both
buffers of a delivery (R51). -/
structure State.ServesMaster (s : State) (b : BusId) (d : DrvId) : Prop where
  bus : s.disp.bus = b
  found : s.lookup b = some d
  owner : s.busOf d = b
  master : s.drv[d].role = .master
  raw : s.bus[b].rxwi ≤ s.cfg.rxCap
  delivery : s.cfg.rxCap ≤ s.cfg.rdCap

section
variable {b : BusId} {d : DrvId} {s t : State}

theorem Kept.servesMaster (kept : Kept s t) (h : s.ServesMaster b d)
    (raw : t.bus[b].rxwi ≤ s.cfg.rxCap) : t.ServesMaster b d where
  bus := kept.disp ▸ h.bus
  found := by rw [State.lookup, kept.reg]; exact h.found
  owner := by rw [State.busOf, kept.cfg]; exact h.owner
  master := (kept.drv d).1.trans h.master
  raw := kept.cfg ▸ raw
  delivery := kept.cfg ▸ h.delivery

theorem State.setTxwi_rxwi (s : State) (b : BusId) (n : Idx) :
    (s.setTxwi b n).bus[b].rxwi = s.bus[b].rxwi := by
  rw [State.setTxwi, State.setBus_bus, vector_get_set_self]

theorem State.setTxcs_rxwi (s : State) (b : BusId) (n : Idx) :
    (s.setTxcs b n).bus[b].rxwi = s.bus[b].rxwi := by
  rw [State.setTxcs, State.setBus_bus, vector_get_set_self]

theorem exhaustTx_rxwi (b : BusId) (d : DrvId) (s : State) :
    (exhaustTx b d s).bus[b].rxwi = s.bus[b].rxwi := by
  rw [exhaustTx, State.setTxcs_rxwi]
  split <;> rfl

/-- R193: a count within TXBUF completes, and leaves RXWI. -/
theorem transmitMaster_completes (count : s.bus[b].txwi ≤ s.bus[b].txcs)
    (fits : s.bus[b].txcs ≤ s.cfg.txCap) :
    ∃ t, transmitMaster b d s = .next t ∧ t.bus[b].rxwi = s.bus[b].rxwi := by
  by_cases idle : s.bus[b].txwi = 0
  · exact ⟨_, transmitMaster_exhausted d idle, exhaustTx_rxwi ..⟩
  · have within : s.bus[b].txcs - s.bus[b].txwi < s.cfg.txCap :=
      (Nat.sub_lt ((Nat.pos_of_ne_zero idle).trans_le count) (Nat.pos_of_ne_zero idle)).trans_le
        fits
    exact ⟨_, transmitMaster_of_within idle count within, State.setTxwi_rxwi ..⟩

/-- R83: a block copy within both capacities completes, in any memory. -/
theorem blockCopy_completes {src dst : Buf} {n i : Nat} (hs : i + n ≤ src.cap s.cfg)
    (hd : i + n ≤ dst.cap s.cfg) : ∃ t, blockCopy src dst n i s = .next t := by
  induction n generalizing i s with
  | zero => exact ⟨s, rfl⟩
  | succ n ih =>
    rw [blockCopy, loadByte_ok (by omega), storeByte_ok (by omega), andThen_ok]
    exact ih (by simpa using by omega) (by simpa using by omega)

/-- R174: in Master role, where no callback is asked, a message that fits both buffers is delivered
or dropped. -/
theorem handleReceive_completes (master : s.drv[d].role = .master)
    (raw : s.bus[s.busOf d].rxwi ≤ s.cfg.rxCap) (read : s.bus[s.busOf d].rxwi ≤ s.cfg.rdCap) :
    ∃ t, execHandleReceive d s = .next t := by
  rw [handleReceive_of_master master]
  split
  · obtain ⟨u, copied⟩ := blockCopy_completes (src := .rx (s.busOf d)) (dst := .rd d)
      ((Nat.zero_add _).trans_le raw) ((Nat.zero_add _).trans_le read)
    exact ⟨_, andThen_next.mpr ⟨u, copied, rfl⟩⟩
  · exact ⟨_, rfl⟩

theorem State.ServesMaster.evTransmit_completes (h : s.ServesMaster b d)
    (count : s.bus[b].txwi ≤ s.bus[b].txcs) (fits : s.bus[b].txcs ≤ s.cfg.txCap) :
    ∃ t, execEvTransmit s = .next t ∧ t.bus[b].rxwi = s.bus[b].rxwi := by
  obtain ⟨rfl, found, -, master, -, -⟩ := h
  rw [evTransmit_of_master found master]
  exact transmitMaster_completes (s := s.setFound (some d)) count fits

theorem State.ServesMaster.evNak_completes (h : s.ServesMaster b d) :
    ∃ t, execEvNak s = .next t ∧ t.bus[b].rxwi = s.bus[b].rxwi := by
  obtain ⟨rfl, found, -⟩ := h
  exact ⟨_, evNak_of_hit found, rfl⟩

theorem State.ServesMaster.evStop_completes (h : s.ServesMaster b d) :
    ∃ t, execEvStop s = .next t := by
  obtain ⟨rfl, found, owner, master, raw, delivery⟩ := h
  rw [evStop_of_noCollision found (.inl (by rw [master]; exact nofun))]
  split
  · exact ⟨_, rfl⟩
  · rw [← owner] at raw
    exact handleReceive_completes (s := s.setFound (some d)) master raw (raw.trans delivery)

/-- The last three conditions, one after the other. -/
theorem State.ServesMaster.handleConditions_completes (h : t.ServesMaster b d)
    (received : onCondition 0 execEvReceive s = .next t)
    (count : t.bus[b].txwi ≤ t.bus[b].txcs) (fits : t.bus[b].txcs ≤ t.cfg.txCap) :
    ∃ w, handleConditions s = .next w := by
  obtain ⟨u, transmit, rxwi⟩ :=
    onCondition_completes (P := fun u => u.bus[b].rxwi = t.bus[b].rxwi) 1 rfl
      (h.evTransmit_completes count fits)
  have hu : u.ServesMaster b d :=
    (onCondition_kept evTransmit_kept transmit).servesMaster h (rxwi.trans_le h.raw)
  obtain ⟨v, nak, rxwi⟩ :=
    onCondition_completes (P := fun v => v.bus[b].rxwi = u.bus[b].rxwi) 2 rfl hu.evNak_completes
  have hv : v.ServesMaster b d :=
    (onCondition_kept evNak_kept nak).servesMaster hu (rxwi.trans_le hu.raw)
  obtain ⟨w, stop, -⟩ := onCondition_completes (P := fun _ => True) 3 trivial
    (hv.evStop_completes.imp fun _ done => ⟨done, trivial⟩)
  refine ⟨w, ?_⟩
  rw [handleConditions, received, andThen_ok, transmit, andThen_ok, nak, andThen_ok, stop]

end

/-- Settles O33: each condition completes and leaves what the next one needs. -/
theorem dispatchInMasterRoleCompletes : Obligations.DispatchInMasterRoleCompletes := by
  intro s b d present found owner master delivery room count fits
  obtain ⟨u, received, regs, -⟩ := receiveCondition_completes room
  have kept : Kept (beginDispatch b s) u := onCondition_kept evReceive_kept received
  have entry : u.bus[b] = s.bus[b].afterReceive s.nextAnswer := by
    rw [regs, vector_get_set_self]
  have begun : (beginDispatch b s).ServesMaster b d :=
    { bus := by rw [beginDispatch_disp]
      found := (beginDispatch_lookup ..).trans found
      owner := by rw [State.busOf, beginDispatch_cfg]; exact owner
      master := by rw [beginDispatch_drv]; exact master
      raw := by rw [beginDispatch_bus, beginDispatch_cfg]; exact room.le
      delivery := by rw [beginDispatch_cfg]; exact delivery }
  have raw : u.bus[b].rxwi ≤ (beginDispatch b s).cfg.rxCap := by
    rw [entry, beginDispatch_cfg]
    exact BusRegs.afterReceive_rxwi_le _ room
  have cfg : u.cfg = s.cfg := kept.cfg.trans (beginDispatch_cfg ..)
  obtain ⟨w, handled⟩ := (kept.servesMaster begun raw).handleConditions_completes received
    (by rw [entry]; exact count) (by rw [entry, cfg]; exact fits)
  have all : Kept (beginDispatch b s) w := handleConditions_kept handled
  refine ⟨leaveDispatcher w, ?_, ?_, ?_, rfl, fun d' => ?_⟩
  · exact (execDispatch_eq present).trans (by rw [handled, andThen_ok])
  · exact all.fg.trans (beginDispatch_fg ..)
  · exact all.reg.trans (beginDispatch_reg ..)
  · obtain ⟨role, -, -, -, onreq, onrcv⟩ := all.drv d'
    rw [beginDispatch_drv] at role onreq onrcv
    exact ⟨role, onreq, onrcv⟩

end Sys2Proof.Machine

/-! SUPPORT. The statements of spec/44_hal_interface.md about the fifteen primitives alone: the word
each puts on the HAL port (R210 to R224), and what it asks of the collaborator of its bus. -/

namespace Sys2Proof.Machine

/-! ### The words (R103, R108) -/

/-- Settles O28: no call without an answer is more than its word on the port. -/
theorem halCallsEmitTheirWord : Obligations.HalCallsEmitTheirWord :=
  fun _ _ _ _ _ => ⟨rfl, rfl, rfl, rfl, rfl, rfl, rfl, rfl, rfl, rfl, rfl⟩

section
variable {s : State}

theorem nextAnswer_of_listed {v : Byte} {rest : List Byte} (h : s.answers = v :: rest) :
    s.nextAnswer = v := by
  rw [State.nextAnswer, h]

theorem takeAnswer_of_listed {v : Byte} {rest : List Byte} (h : s.answers = v :: rest) :
    s.takeAnswer = { s with answers := rest } := by
  rw [State.takeAnswer, h]

/-- R219 to R222: a call that returns a value, with its answer listed. -/
theorem halQuery_of_listed {v : Byte} {rest : List Byte} (h : s.answers = v :: rest) (hop : Byte)
    (b : BusId) :
    halQuery hop b s = { s with
      answers := rest
      out := s.out ++
        [.hal (pack hop (indexByte b) 0 0) (some (pack hop (indexByte b) 0 v))] } := by
  rw [halQuery, takeAnswer_of_listed h, nextAnswer_of_listed h]
  rfl

end

/-- Settles O29: the four queries are `halQuery` with their codes. -/
theorem halQueriesTakeOneAnswer : Obligations.HalQueriesTakeOneAnswer := by
  intro s b v rest listed
  have query (hop : Byte) := congrArg (Host.Outcome.next (φ := Fault) (ρ := Refusal))
    (halQuery_of_listed listed hop b)
  exact ⟨query 0x0A, query 0x0B, query 0x0C, query 0x0D⟩

/-! ### What a call asks of a collaborator (R48, R210 to R224) -/

section
variable {p : Params} {b b' : BusId} {i : Instr} {w : Word} {ret : Option Word}
  {role : Option Role} {s t : State}

theorem callOf_of_ne (bus : byte2 w = indexByte b) (other : b' ≠ b) (ret : Option Word)
    (role : Option Role) : callOf p b' (.hal w ret role) = none := by
  refine Option.eq_none_iff_forall_ne_some.mpr fun c hc => ?_
  obtain ⟨w', same, -, bus'⟩ := callOf_eq_some.mp hc
  cases same
  exact other (indexByte_inj (bus'.symm.trans bus))

/-- A call of bus `b` is the latest call its collaborator has had. -/
theorem collaborator_call (wf : i.wellFormed p = true) (word : encode i = some (.hal, w))
    (bus : byte2 w = indexByte b) (xs : List PortEvent) :
    collaborator p b (xs ++ [.hal w ret role]) = (collaborator p b xs).call i := by
  rw [collaborator_append, callsOf_cons wf word bus]
  rfl

theorem collaborator_of_ne (bus : byte2 w = indexByte b) (other : b' ≠ b)
    (xs : List PortEvent) :
    collaborator p b' (xs ++ [.hal w ret role]) = collaborator p b' xs := by
  rw [collaborator_append, callsOf, List.filterMap_cons_none (callOf_of_ne bus other ret role)]
  rfl

/-- R225: an operation whose one event is its own HAL word reaches the collaborator of the bus in
that word, and no other. -/
theorem leavesAsked_of_word (wf : i.wellFormed s.cfg = true) (word : encode i = some (.hal, w))
    (bus : byte2 w = indexByte b) (run : exec i s = .next t)
    (out : t.out = s.out ++ [.hal w ret role]) :
    leavesAsked s b i ((collaborator s.cfg b s.out).call i) := by
  refine ⟨t, run, ?_, fun b' other => ?_⟩
  · rw [out, collaborator_call wf word bus]
  · rw [out, collaborator_of_ne bus other]

theorem halQuery_out (hop : Byte) (b : BusId) (s : State) : (halQuery hop b s).out =
    s.out ++ [.hal (halWord hop b 0) (some (halReturnWord hop b s.nextAnswer))] := by
  rw [halQuery, State.emit_out, State.takeAnswer_out]

end

/-- Settles O30: each primitive puts its one word on the port. -/
theorem halCallsReachTheirCollaborator : Obligations.HalCallsReachTheirCollaborator := by
  intro s b speed mode x existing
  have present : s.cfg.hasBus b = true := decide_eq_true existing
  have call {i : Instr} {hop arg : Byte} {t : State} {role : Option Role}
      (wf : i.wellFormed s.cfg = true) (word : encode i = some (.hal, halWord hop b arg))
      (run : exec i s = .next t) (out : t.out = s.out ++ [.hal (halWord hop b arg) none role]) :=
    leavesAsked_of_word wf word (byte2_pack ..) run out
  have query {i : Instr} {hop : Byte} (wf : i.wellFormed s.cfg = true)
      (word : encode i = some (.hal, halWord hop b 0))
      (run : exec i s = .next (halQuery hop b s)) :=
    leavesAsked_of_word wf word (byte2_pack ..) run (halQuery_out hop b s)
  exact ⟨call present rfl rfl rfl, call present rfl rfl rfl, call present rfl rfl rfl,
    call present rfl rfl rfl, call present rfl rfl rfl, call present rfl rfl rfl,
    call present rfl rfl rfl, call present rfl rfl rfl, call present rfl rfl rfl,
    call present rfl rfl rfl, query present rfl rfl, query present rfl rfl,
    query present rfl rfl, query present rfl rfl, call present rfl rfl rfl⟩

end Sys2Proof.Machine

/-! SUPPORT. Which HAL words a step puts on the port (spec/44_hal_interface.md R213, R225). -/

namespace Sys2Proof.Machine

/-! ### The buses a stretch of the port speaks to -/

/-- The ports grow, and every new HAL word is of a bus in `ok` and is no disableModule. -/
def CallsOnly (ok : BusId → Prop) (s t : State) : Prop :=
  ∃ new, t.out = s.out ++ new ∧ ∀ w ret role, .hal w ret role ∈ new →
    byte3 w ≠ 0x04 ∧ ∃ b, ok b ∧ byte2 w = indexByte b

section
variable {ok : BusId → Prop} {b : BusId} {s t u : State}

theorem CallsOnly.of_out (h : t.out = s.out) : CallsOnly ok s t := ⟨[], by simp [h], by simp⟩

theorem CallsOnly.refl (s : State) : CallsOnly ok s s := .of_out rfl

theorem CallsOnly.trans (h : CallsOnly ok s t) (k : CallsOnly ok t u) : CallsOnly ok s u := by
  obtain ⟨x, hx, hw⟩ := h
  obtain ⟨y, hy, kw⟩ := k
  exact ⟨x ++ y, by rw [hy, hx, List.append_assoc],
    fun w ret role hm => (List.mem_append.mp hm).elim (hw w ret role) (kw w ret role)⟩

/-- An earlier update that puts nothing on a port. -/
theorem CallsOnly.after_out (k : CallsOnly ok t u) (h : t.out = s.out) : CallsOnly ok s u :=
  (CallsOnly.of_out h).trans k

/-- A later update that puts nothing on a port. -/
theorem CallsOnly.then_out (h : CallsOnly ok s t) (k : u.out = t.out) : CallsOnly ok s u :=
  h.trans (.of_out k)

theorem CallsOnly.rsp (op drv : Byte) (ill : Bool) (v : Byte) (s : State) :
    CallsOnly ok s (respond op drv ill v s) := ⟨[_], rfl, by simp⟩

theorem CallsOnly.upcall (w : Word) (s : State) : CallsOnly ok s (s.emit (.upcall w)) :=
  ⟨[_], rfl, by simp⟩

theorem CallsOnly.hal {hop : Byte} (hb : ok b) (v : Byte) (ret : Option Word)
    (role : Option Role) (s : State) (code : hop ≠ 0x04 := by decide) :
    CallsOnly ok s (s.emit (.hal (halWord hop b v) ret role)) := by
  refine ⟨[_], rfl, fun w _ _ hm => ?_⟩
  cases List.mem_singleton.mp hm
  exact ⟨by rwa [halWord, byte3_pack], b, hb, byte2_pack ..⟩

theorem CallsOnly.query {hop : Byte} (hb : ok b) (s : State) (code : hop ≠ 0x04 := by decide) :
    CallsOnly ok s (halQuery hop b s) :=
  (CallsOnly.hal hb _ _ _ _ code).after_out (State.takeAnswer_out s)

theorem CallsOnly.ite {c : Prop} [Decidable c] (ht : CallsOnly ok s t) (hu : CallsOnly ok s u) :
    CallsOnly ok s (if c then t else u) := by
  split
  · exact ht
  · exact hu

/-- An operation that always answers the one state. -/
theorem callsOnly_of_next (h : (.next u : Result) = .next t) (hu : CallsOnly ok s u) :
    CallsOnly ok s t := by
  cases h; exact hu

/-- What a stretch of the port says of one of its words. -/
theorem CallsOnly.word {new : List PortEvent} {w : Word} {ret : Option Word} {role : Option Role}
    (h : CallsOnly ok s t) (out : t.out = s.out ++ new) (hm : .hal w ret role ∈ new) :
    byte3 w ≠ 0x04 ∧ ∃ b, ok b ∧ byte2 w = indexByte b := by
  obtain ⟨new', out', called⟩ := h
  obtain rfl : new = new' := List.append_cancel_left (out.symm.trans out')
  exact called w ret role hm

end

/-! ### The handlers (R173, R174, R190 to R195) -/

section
variable {ok : BusId → Prop} {c : Upcall} {b : BusId} {d : DrvId} {s t : State}

/-- R175, R176: a callback calls no primitive. -/
theorem callbackCommand_callsOnly {w : Word} (h : callbackCommand c d w s = .next t) :
    CallsOnly ok s t := by
  rcases callbackCommand_next h with ⟨x, h⟩ | ⟨_, h⟩ | rfl
  · obtain ⟨u, hu, rfl⟩ := callbackWrite_next.mp h
    exact (CallsOnly.rsp ..).after_out (appendTx_out hu)
  · obtain ⟨_, _, rfl⟩ := callbackRead_next.mp h
    exact (CallsOnly.rsp ..).after_out (popCursor_out d s)
  · exact .rsp ..

/-- An upcall and the commands of its callback. -/
theorem upcall_callsOnly {ws : List Word} {w : Word}
    (h : runCallback c d ws (s.takeScript.emit (.upcall w)) = .next t) : CallsOnly ok s t :=
  ((CallsOnly.upcall ..).after_out (State.takeScript_out s)).trans <|
    runCallback_induct (CallsOnly ok) .refl (fun _ _ _ => .trans)
      (fun _ _ _ => callbackCommand_callsOnly) h

theorem refillAnswer_callsOnly (h : refillAnswer d s = .next t) :
    CallsOnly ok s t ∧ t.cfg = s.cfg := by
  rcases refillAnswer_next h with ⟨_, rfl⟩ | ⟨_, v, ⟨_, hv⟩ | ⟨_, rfl⟩, rfl⟩
  · exact ⟨.refl _, rfl⟩
  · exact ⟨(upcall_callsOnly hv).then_out rfl, (upOnRequest_kept hv).cfg⟩
  · exact ⟨.of_out rfl, rfl⟩

/-- R173: the answer is sent on the bus of the driver. -/
theorem handleRequestSlave_callsOnly (hb : ok (s.busOf d))
    (h : execHandleRequestSlave d s = .next t) : CallsOnly ok s t := by
  obtain ⟨u, hu, h⟩ := andThen_next.mp h
  obtain ⟨refilled, cfg⟩ := refillAnswer_callsOnly hu
  have hb' : ok (u.busOf d) := by rwa [State.busOf, cfg]
  refine refilled.trans ?_
  rcases serveAnswer_next h with ⟨_, rfl⟩ | ⟨_, _, rfl⟩
  · exact .of_out rfl
  · exact (CallsOnly.hal hb' ..).after_out rfl

/-- R174: a delivery calls no primitive. -/
theorem handleReceive_callsOnly (h : execHandleReceive d s = .next t) : CallsOnly ok s t := by
  rcases handleReceive_next h with ⟨_, rfl⟩ | ⟨_, u, hu, ⟨_, h⟩ | ⟨_, rfl⟩⟩
  · exact .of_out rfl
  · exact (upcall_callsOnly h).after_out (deliver_out hu)
  · exact .of_out (deliver_out hu)

theorem transmitMaster_callsOnly (hb : ok b) (h : transmitMaster b d s = .next t) :
    CallsOnly ok s t := by
  rcases transmitMaster_next h with ⟨_, rfl⟩ | ⟨_, _, rfl⟩
  · unfold exhaustTx
    split
    · exact (CallsOnly.hal hb ..).then_out rfl
    · exact .of_out rfl
  · exact (CallsOnly.hal hb ..).then_out rfl

/-- The bus being served is in `ok`, and so is the bus of the driver registered for it. -/
structure State.ServedIn (ok : BusId → Prop) (s : State) : Prop where
  bus : ok s.disp.bus
  driver : ∀ d, s.lookup s.disp.bus = some d → ok (s.busOf d)

theorem State.ServedIn.kept (served : s.ServedIn ok) (h : Kept s t) : t.ServedIn ok := by
  obtain ⟨bus, driver⟩ := served
  constructor
  · rwa [h.disp]
  · simpa only [State.lookup, State.busOf, h.disp, h.reg, h.cfg] using driver

theorem evReceive_callsOnly (served : s.ServedIn ok) (h : execEvReceive s = .next t) :
    CallsOnly ok s t := by
  obtain ⟨u, v, hu, hv, ht⟩ := evReceive_next h
  refine ((CallsOnly.query served.bus s).then_out (appendRx_out hu)).trans
    (CallsOnly.trans (t := v) ?_ ?_)
  · rcases hv with rfl | rfl
    · exact .refl _
    · exact .hal served.bus ..
  · rcases ht with rfl | rfl | ⟨_, _, rfl⟩ <;> exact .of_out rfl

theorem evTransmit_callsOnly (served : s.ServedIn ok) (h : execEvTransmit s = .next t) :
    CallsOnly ok s t := by
  rcases evTransmit_next h with rfl | ⟨d, found, ⟨_, h⟩ | ⟨_, h⟩⟩
  · exact .of_out rfl
  · exact (transmitMaster_callsOnly served.bus h).after_out rfl
  · exact (handleRequestSlave_callsOnly (s := s.setFound (some d)) (served.driver d found)
      h).after_out rfl

theorem evNak_callsOnly (h : execEvNak s = .next t) : CallsOnly ok s t := by
  rcases evNak_next h with rfl | ⟨_, _, rfl⟩ <;> exact .of_out rfl

theorem evStop_callsOnly (served : s.ServedIn ok) (h : execEvStop s = .next t) :
    CallsOnly ok s t := by
  rcases evStop_next h with rfl | ⟨d, _, ⟨_, _, rfl⟩ | ⟨_, h⟩⟩
  · exact .of_out rfl
  · exact ((CallsOnly.hal served.bus ..).after_out rfl).then_out rfl
  · exact (handleReceive_callsOnly (s := s.setFound (some d)) h).after_out rfl

theorem onCondition_callsOnly {bit : Nat} {f : State → Result}
    (hf : ∀ {t}, f s = .next t → CallsOnly ok s t) (h : onCondition bit f s = .next t) :
    CallsOnly ok s t := by
  rcases onCondition_next h with rfl | h
  · exact .refl _
  · exact hf h

theorem handleConditions_callsOnly (served : s.ServedIn ok) (h : handleConditions s = .next t) :
    CallsOnly ok s t := by
  obtain ⟨x, y, z, hx, hy, hz, ht⟩ := handleConditions_next h
  have first : x.ServedIn ok := served.kept (onCondition_kept evReceive_kept hx)
  have third : z.ServedIn ok := first.kept <|
    (onCondition_kept evTransmit_kept hy).trans (onCondition_kept evNak_kept hz)
  exact ((onCondition_callsOnly (evReceive_callsOnly served) hx).trans
    (onCondition_callsOnly (evTransmit_callsOnly first) hy)).trans
    ((onCondition_callsOnly evNak_callsOnly hz).trans
      (onCondition_callsOnly (evStop_callsOnly third) ht))

/-- R190: the status read and its clear are calls of the bus served too. -/
theorem beginDispatch_callsOnly (hb : ok b) (s : State) : CallsOnly ok s (beginDispatch b s) :=
  (((CallsOnly.query (hop := 0x0D) hb (enterDispatcher b s)).after_out rfl).then_out rfl).trans
    (.hal hb ..)

theorem dispatch_callsOnly (hb : ok b) (hd : ∀ d, s.lookup b = some d → ok (s.busOf d))
    (h : execDispatch (indexByte b) s = .next t) : CallsOnly ok s t := by
  rcases dispatch_next h with ⟨_, rfl⟩ | ⟨b', same, _, u, hu, rfl⟩
  · exact .refl _
  · cases indexByte_inj same
    have served : (beginDispatch b s).ServedIn ok := by
      constructor
      · rwa [beginDispatch_disp]
      · simpa only [beginDispatch_disp, beginDispatch_lookup, State.busOf, beginDispatch_cfg]
          using hd
    exact ((beginDispatch_callsOnly hb s).trans (handleConditions_callsOnly served hu)).then_out
      rfl

/-! ### The commands of the foreground (R140 to R149, R170 to R172) -/

theorem finish_callsOnly {op drv v : Byte} {u : State} (h : finish op drv v u = .next t)
    (hu : CallsOnly ok s u) : CallsOnly ok s t :=
  callsOnly_of_next h (hu.trans ((CallsOnly.rsp op drv false v (release u)).after_out rfl))

/-- A guard that goes to a phase, or completes the command at once (R143). -/
theorem guard_callsOnly {p : Prop} [Decidable p] {op drv v : Byte} {phase : BitVec 4}
    (h : (if p then .next (goto phase s) else finish op drv v s) = .next t) :
    CallsOnly ok s t := by
  split at h
  · exact callsOnly_of_next h (.of_out rfl)
  · exact finish_callsOnly h (.refl s)

theorem holdQuery_callsOnly {query : State → State} {next : BitVec 4}
    (h : holdQuery query next s = .next t) (hq : CallsOnly ok s (query s)) : CallsOnly ok s t :=
  callsOnly_of_next h (.ite hq (hq.then_out rfl))

theorem read_callsOnly (h : execRead d s = .next t) : CallsOnly ok s t := by
  unfold execRead at h
  split at h
  · exact callsOnly_of_next h (.ite (.refl s) (.of_out rfl))
  · obtain ⟨_, h⟩ := popRead_next.mp h
    exact finish_callsOnly h (.of_out (popCursor_out d s))
  · cases h

section
variable (hb : ok (s.busOf d))
include hb

theorem beginTransmission_callsOnly {a : Byte} (h : execBeginTransmission d a s = .next t) :
    CallsOnly ok s t := by
  unfold execBeginTransmission at h
  split at h
  · exact guard_callsOnly h
  · exact holdQuery_callsOnly h (.query hb s)
  · exact finish_callsOnly h (.ite ((CallsOnly.hal hb ..).then_out rfl) (.refl s))
  · cases h

theorem startTransmission_callsOnly {stop : Bool} (h : startTransmission d stop s = .next t) :
    CallsOnly ok s t := by
  unfold startTransmission at h
  obtain ⟨_, h⟩ := loadByte_next.mp h
  exact callsOnly_of_next h <|
    ((CallsOnly.hal hb ..).trans (.hal hb ..)).after_out (decrementTx_out ..)

theorem endTransmission_callsOnly {stop : Bool} (h : execEndTransmission d stop s = .next t) :
    CallsOnly ok s t := by
  unfold execEndTransmission at h
  split at h
  · exact guard_callsOnly h
  · exact holdQuery_callsOnly h (.query hb s)
  · obtain ⟨u, hu, h⟩ := andThen_next.mp h
    exact finish_callsOnly h (startTransmission_callsOnly hb hu)
  · cases h

theorem startReceive_callsOnly (a n : Byte) : CallsOnly ok s (startReceive d a n s) :=
  ((CallsOnly.hal hb ..).after_out rfl).trans <|
    ((CallsOnly.hal hb ..).after_out rfl).trans (.hal hb ..)

theorem finishReceive_callsOnly (h : finishReceive d s = .next t) : CallsOnly ok s t := by
  have mode : CallsOnly ok s (halSetMode (s.busOf d) .transmit s) := .hal hb ..
  unfold finishReceive at h
  dsimp only at h
  split at h
  · exact finish_callsOnly h (mode.then_out rfl)
  · obtain ⟨u, hu, h⟩ := andThen_next.mp h
    obtain ⟨v, hv, hu⟩ := andThen_next.mp hu
    have collected : CallsOnly ok (halSetMode (s.busOf d) .transmit s) v := by
      split at hv
      · exact callsOnly_of_next hv (.refl _)
      · exact handleReceive_callsOnly hv
    cases hu
    exact finish_callsOnly h ((mode.trans collected).then_out rfl)

theorem requestFrom_callsOnly {a n : Byte} (h : execRequestFrom d a n s = .next t) :
    CallsOnly ok s t := by
  unfold execRequestFrom at h
  split at h
  · exact guard_callsOnly h
  · exact holdQuery_callsOnly h (.query hb s)
  · obtain ⟨u, hu, h⟩ := andThen_next.mp h
    exact callsOnly_of_next h ((startTransmission_callsOnly hb hu).then_out rfl)
  · exact callsOnly_of_next h (.ite (.of_out rfl) (.refl s))
  · exact callsOnly_of_next h ((startReceive_callsOnly hb a n).then_out rfl)
  · exact callsOnly_of_next h ((CallsOnly.ite (.hal hb ..) (.refl s)).then_out rfl)
  · exact callsOnly_of_next h (.of_out rfl)
  · exact callsOnly_of_next h (.ite (.of_out rfl) (.refl s))
  · exact finishReceive_callsOnly hb h
  · cases h

end

/-- R225: a command calls primitives of the bus of the driver in its word, or none. -/
theorem exec_command_callsOnly {i : Instr} {w : Word} (word : encode i = some (.cmd, w))
    (hb : ∀ d, indexByte d = byte2 w → ok (s.busOf d)) (h : exec i s = .next t) :
    CallsOnly ok s t := by
  have driver {op x y : Byte} {d : DrvId} (packed : encode i = some (.cmd, cmdWord op d x y)) :
      ok (s.busOf d) := by
    cases packed.symm.trans word
    exact hb d (byte2_pack ..).symm
  cases i with
  | register | unregister | setSpeed | onRequest | onReceive =>
    exact finish_callsOnly h (.of_out rfl)
  | write =>
    obtain ⟨u, hu, h⟩ := andThen_next.mp h
    exact finish_callsOnly h (.of_out (appendTx_out hu))
  | read => exact read_callsOnly h
  | beginMaster d | beginSlave d =>
    have hd : ok (s.busOf d) := driver rfl
    exact finish_callsOnly h <|
      ((CallsOnly.hal hd ..).after_out rfl).trans ((CallsOnly.hal hd ..).trans (.hal hd ..))
  | beginTransmission => exact beginTransmission_callsOnly (driver rfl) h
  | endTransmission => exact endTransmission_callsOnly (driver rfl) h
  | requestFrom => exact requestFrom_callsOnly (driver rfl) h
  | _ => cases word

theorem acceptCommand_callsOnly (w : Word) (s : State) : CallsOnly ok s (acceptCommand w s) := by
  unfold acceptCommand
  split
  · exact .of_out rfl
  · exact .rsp ..

/-! ### The step -/

theorem eventWord_inj {x y : Byte} (h : eventWord x = eventWord y) : x = y := by
  have bus := congrArg byte2 h
  rwa [eventWord, eventWord, byte2_pack, byte2_pack] at bus

/-- R225, by the cases of a step: the buses that the due event or, with none due, the command in
progress can speak to. -/
theorem step_callsOnly (h : step s = .next t)
    (event : ∀ b, s.dueEvent = some (eventWord (indexByte b)) →
      ok b ∧ ∀ d, s.lookup b = some d → ok (s.busOf d))
    (command : s.dueEvent = none → ∀ d, indexByte d = s.fg.drv → ok (s.busOf d)) :
    CallsOnly ok s t := by
  have ticked := tick_out s
  rcases step_cases s (step_next_idle h) with ⟨bus, rest, _, due, hs⟩ | ⟨_, rest, _, _, hs⟩ |
      ⟨idle, ⟨i, _, hi, _, hs⟩ | ⟨_, _, _, hs⟩ | ⟨w, rest, _, _, hs⟩ | ⟨_, _, hs⟩⟩ <;>
    rw [hs] at h
  · obtain ⟨hb, hd⟩ := event bus.toFin due
    exact (dispatch_callsOnly (s := { s with irq := rest }) hb hd h).after_out rfl
  · exact callsOnly_of_next h (.of_out rfl)
  · refine (exec_command_callsOnly (encode_decodeCmd hi) (fun d hd => ?_) h).after_out ticked
    rw [State.busOf, tick_cfg]
    exact command idle d (hd.trans (byte2_pack ..))
  · exact callsOnly_of_next h ((CallsOnly.rsp ..).after_out ticked)
  · exact callsOnly_of_next h <|
      (acceptCommand_callsOnly w { tick s with cmd := rest }).after_out ticked
  · exact callsOnly_of_next h (.of_out ticked)

/-- R39: in a state of the invariant a driver that LOOKUP returns is bound to that bus. -/
theorem State.Inv.busOf_lookup (inv : s.Inv) (found : s.lookup b = some d) : s.busOf d = b := by
  unfold State.lookup at found
  split at found
  · cases found
    exact (inv.registry b ‹_›).2
  · cases found

end

/-! ### The obligations -/

/-- Settles O55: a step calls primitives of any bus, but never that one. -/
theorem disableModuleIsNeverEmitted : Obligations.DisableModuleIsNeverEmitted := by
  constructor
  · intro p b existing
    exact ⟨rfl, decodeHal_encode (i := .halDisableModule b) (decide_eq_true existing) rfl⟩
  · intro s t new w ret role h out called
    have calls : CallsOnly (fun _ => True) s t :=
      step_callsOnly h (fun _ _ => ⟨trivial, fun _ _ => trivial⟩) fun _ _ _ => trivial
    exact (calls.word out called).1

/-- Settles O56: the invariant makes the bus of the driver served the bus of the interrupt. -/
theorem halWordsCarryTheirBus : Obligations.HalWordsCarryTheirBus := by
  intro s t new w ret role inv h out called
  refine ⟨fun b due => ?_, fun none_due => ?_⟩
  · have calls : CallsOnly (· = b) s t := by
      refine step_callsOnly h (fun b' due' => ?_) fun none_due => ?_
      · cases indexByte_inj (eventWord_inj (Option.some.inj (due.symm.trans due')))
        exact ⟨rfl, fun d found => inv.busOf_lookup found⟩
      · cases due.symm.trans none_due
    obtain ⟨-, _, rfl, bus⟩ := calls.word out called
    exact bus
  · have calls : CallsOnly (fun b => ∃ d, indexByte d = s.fg.drv ∧ s.busOf d = b) s t := by
      refine step_callsOnly h (fun b' due => ?_) fun _ d named => ⟨d, named, rfl⟩
      cases none_due.symm.trans due
    obtain ⟨-, _, ⟨d, named, rfl⟩, bus⟩ := calls.word out called
    exact ⟨d, named, bus⟩

end Sys2Proof.Machine

/-! SUPPORT. The statements of spec/60_exceptions.md: a dispatcher invocation as a fold over the
handlers its status word selects (R190, R244) and what it leaves (R246 to R248), where a step is
refused (R259), and the idle step. -/

namespace Sys2Proof.Machine

/-! ### The handlers of a status word, one after the other (R190, R244) -/

section
variable {status : Byte} {r : Result}

/-- A result that, if it is a state, has this status word latched. -/
def Latched (status : Byte) (r : Result) : Prop := ∀ t, r = .next t → t.disp.status = status

/-- A handler runs with the status word in DISP and leaves it there. -/
theorem Latched.andThen_onCondition (latched : Latched status r) {handler : State → Result}
    (kept : ∀ {s t}, handler s = .next t → Kept s t) (bit : Nat) :
    Latched status (andThen r (onCondition bit handler)) := by
  intro t h
  obtain ⟨u, hu, handled⟩ := andThen_next.mp h
  rw [(onCondition_kept kept handled).disp]
  exact latched u hu

/-- One entry of the list of selected handlers is one test of DISP.status. -/
theorem foldl_selected (latched : Latched status r) (bit : Nat) (i : Instr) :
    (if status.getLsbD bit then [i] else []).foldl (fun r i => andThen r (exec i)) r =
      andThen r (onCondition bit (exec i)) := by
  cases r with
  | next t =>
    rw [andThen_ok, onCondition, latched t rfl]
    split <;> rfl
  | fault | refused => split <;> rfl

/-- The four tests run the handlers that the latched status word selects, in the order of the list:
no handler writes DISP, so a later test reads the same word. -/
theorem handleConditions_eq_foldl (s : State) :
    handleConditions s =
      (statusHandlers s.disp.status).foldl (fun r i => andThen r (exec i)) (.next s) := by
  have entry : Latched s.disp.status (.next s) := fun t h => by cases h; rfl
  have received := entry.andThen_onCondition (handler := exec .evReceive) evReceive_kept 0
  have transmitted := received.andThen_onCondition (handler := exec .evTransmit) evTransmit_kept 1
  have recorded := transmitted.andThen_onCondition (handler := exec .evNak) evNak_kept 2
  rw [statusHandlers, List.foldl_append, List.foldl_append, List.foldl_append,
    foldl_selected entry, foldl_selected received, foldl_selected transmitted,
    foldl_selected recorded, andThen_assoc, andThen_assoc, andThen_ok]
  rfl

end

/-- Settles O31: the entry of an invocation latches the answer to the status read, and the tests
that follow are the fold over the handlers this word selects. -/
theorem dispatchRunsTheSelectedHandlers : Obligations.DispatchRunsTheSelectedHandlers := by
  intro s b present
  refine (execDispatch_eq present).trans ?_
  rw [handleConditions_eq_foldl, beginDispatch_disp, beginDispatch_eq]
  rfl

/-! ### What an invocation leaves (R246 to R248) -/

/-- What is kept is kept too where DISP is the same other value on both sides (R43). -/
theorem Kept.withDisp {s t : State} (h : Kept s t) (x : Dispatcher) :
    Kept { s with disp := x } { t with disp := x } := { h with disp := rfl }

/-- Before the first test an answer is taken and two calls are emitted. -/
theorem beginDispatch_kept (b : BusId) (s : State) :
    Kept s { beginDispatch b s with disp := s.disp } := by
  rw [beginDispatch_eq]
  exact { Kept.takeAnswer s with disp := rfl, out := ⟨_, rfl⟩ }

/-- R246, R248: nothing is saved and nothing restored; but for the marker an invocation leaves what
every handler leaves. -/
theorem dispatch_kept {bus : Byte} {s t : State} (h : execDispatch bus s = .next t) :
    Kept s { t with disp := s.disp } := by
  rcases dispatch_next h with ⟨_, rfl⟩ | ⟨b, _, _, u, handled, rfl⟩
  · exact Kept.refl t
  · exact (beginDispatch_kept b s).trans ((handleConditions_kept handled).withDisp s.disp)

/-- Settles O50: an invocation leaves all that the dispatcher side leaves. -/
theorem dispatchLeavesTheForeground : Obligations.DispatchLeavesTheForeground := by
  intro s t bus h
  obtain ⟨cfg, reg, fg, -, cmd, irq, drv, -, -⟩ := dispatch_kept h
  exact ⟨fg, cmd, irq, reg, cfg, drv⟩

/-! ### Where a step is refused (R259) -/

/-- Whatever this result is refused with is `ok`. -/
def RefusesOnly (ok : Refusal → Prop) (r : Result) : Prop := ∀ e, r = .refused e → ok e

/-- R259: a refusal, if there is one, is that of a callback that broke its contract. -/
abbrev RefusesBreach (r : Result) : Prop := RefusesOnly (· = .callbackContract) r

section
variable {ok : Refusal → Prop} {r : Result} {s : State} {b : BusId} {d : DrvId}

theorem RefusesOnly.next : RefusesOnly ok (.next s) := nofun

theorem RefusesOnly.fault {e : Fault} : RefusesOnly ok (.fault e) := nofun

theorem RefusesOnly.refused {e : Refusal} (h : ok e) : RefusesOnly ok (.refused e) :=
  fun _ h' => by cases h'; exact h

theorem RefusesOnly.andThen {f : State → Result} (hr : RefusesOnly ok r)
    (hf : ∀ t, r = .next t → RefusesOnly ok (f t)) : RefusesOnly ok (andThen r f) := by
  intro e h
  rcases andThen_refused.mp h with h | ⟨t, ht, h⟩
  · exact hr e h
  · exact hf t ht e h

theorem RefusesOnly.ite {c : Prop} [Decidable c] {r' : Result} (h : RefusesOnly ok r)
    (h' : RefusesOnly ok r') : RefusesOnly ok (if c then r else r') := by
  split
  · exact h
  · exact h'

/-! #### Buffers and registry -/

theorem loadByte_refuses {buf : Buf} {i : Nat} {k : Byte → Result}
    (hk : ∀ v, RefusesOnly ok (k v)) : RefusesOnly ok (loadByte buf i s k) :=
  .ite (hk _) .fault

theorem appendTx_refuses {v : Byte} : RefusesOnly ok (appendTx b v s) :=
  fun _ h => absurd h appendTx_not_refused

theorem appendRx_refuses {v : Byte} : RefusesOnly ok (appendRx b v s) :=
  fun _ h => absurd h appendRx_not_refused

theorem countDownTx_refuses {k : Byte → Result} (hk : ∀ v, RefusesOnly ok (k v)) :
    RefusesOnly ok (countDownTx b s k) := .ite .fault (loadByte_refuses hk)

theorem blockCopy_refuses {src dst : Buf} {n i : Nat} :
    RefusesOnly ok (blockCopy src dst n i s) := by
  induction n generalizing i s with
  | zero => exact .next
  | succ n ih =>
    have stored (v : Byte) : RefusesOnly ok (storeByte dst i v s) :=
      fun _ h => absurd h storeByte_not_refused
    exact loadByte_refuses fun v => (stored v).andThen fun _ _ => ih

theorem deliver_refuses : RefusesOnly ok (deliver d s) :=
  blockCopy_refuses.andThen fun _ _ => .next

/-- R191: a handler is refused only where its branch for the driver found is. -/
theorem withDriverOf_refuses {hit : DrvId → State → Result}
    (hh : ∀ d t, RefusesOnly ok (hit d t)) : RefusesOnly ok (withDriverOf b s hit .next) := by
  rw [withDriverOf_eq]
  split
  · exact hh _ _
  · exact .next

/-! #### Callbacks (R175, R176) -/

theorem callbackCommand_refuses {c : Upcall} {w : Word} :
    RefusesBreach (callbackCommand c d w s) := by
  unfold callbackCommand
  split
  · exact .ite (appendTx_refuses.andThen fun _ _ => .next) (.refused rfl)
  · exact .ite (.ite .fault (loadByte_refuses fun _ => .next)) (.refused rfl)
  · exact .refused rfl
  · exact .next

theorem runCallback_refuses {c : Upcall} {ws : List Word} :
    RefusesBreach (runCallback c d ws s) := by
  induction ws generalizing s with
  | nil => exact .next
  | cons w ws ih => exact callbackCommand_refuses.andThen fun _ _ => ih

/-! #### The condition handlers and an invocation (R192 to R195) -/

theorem handleRequestSlave_refuses : RefusesBreach (execHandleRequestSlave d s) := by
  have refilled : RefusesBreach (refillAnswer d s) :=
    .ite (.andThen (.ite runCallback_refuses .next) fun _ _ => .next) .next
  exact refilled.andThen fun _ _ => .ite .next (loadByte_refuses fun _ => .next)

theorem handleReceive_refuses : RefusesBreach (execHandleReceive d s) :=
  .ite (deliver_refuses.andThen fun _ _ => .ite runCallback_refuses .next) .next

theorem evReceive_refuses : RefusesOnly ok (execEvReceive s) :=
  appendRx_refuses.andThen fun _ _ =>
    .ite (.ite (withDriverOf_refuses fun _ _ => .next) .next) .next

theorem evTransmit_refuses : RefusesBreach (execEvTransmit s) :=
  withDriverOf_refuses fun _ _ =>
    .ite (.ite .next (countDownTx_refuses fun _ => .next)) (.ite handleRequestSlave_refuses .next)

theorem evNak_refuses : RefusesOnly ok (execEvNak s) := withDriverOf_refuses fun _ _ => .next

theorem evStop_refuses : RefusesBreach (execEvStop s) :=
  withDriverOf_refuses fun _ _ => .ite .next (.ite .next handleReceive_refuses)

theorem dispatch_refuses {bus : Byte} : RefusesBreach (execDispatch bus s) := by
  have handled {t : State} : RefusesBreach (handleConditions t) :=
    .andThen (.ite evReceive_refuses .next) fun _ _ =>
      .andThen (.ite evTransmit_refuses .next) fun _ _ =>
        .andThen (.ite evNak_refuses .next) fun _ _ => .ite evStop_refuses .next
  exact .ite (handled.andThen fun _ _ => .next) .next

/-! #### A phase of a command (R41, R143) -/

theorem startTransmission_refuses {stop : Bool} : RefusesOnly ok (startTransmission d stop s) :=
  loadByte_refuses fun _ => .next

theorem beginTransmission_refuses {a : Byte} (legal : s.fg.phase.toNat < 3) :
    RefusesOnly ok (execBeginTransmission d a s) := by
  unfold execBeginTransmission
  dsimp only
  split
  · exact .ite .next .next
  · exact .next
  · exact .next
  · exact absurd legal (by grind)

theorem endTransmission_refuses {stop : Bool} (legal : s.fg.phase.toNat < 3) :
    RefusesOnly ok (execEndTransmission d stop s) := by
  unfold execEndTransmission
  dsimp only
  split
  · exact .ite .next .next
  · exact .next
  · exact startTransmission_refuses.andThen fun _ _ => .next
  · exact absurd legal (by grind)

/-- R148: in Master role a delivery invokes no callback, so there is none to refuse. -/
theorem finishReceive_refuses (master : s.drv[d].role = .master) :
    RefusesOnly ok (finishReceive d s) := by
  have delivered : RefusesOnly ok (execHandleReceive d (halSetMode (s.busOf d) .transmit s)) := by
    rw [handleReceive_of_master (s := halSetMode (s.busOf d) .transmit s) master]
    exact .ite deliver_refuses .next
  have collected : RefusesOnly ok (collectReceived d (halSetMode (s.busOf d) .transmit s)) :=
    .andThen (.ite .next delivered) fun _ _ => .next
  exact .ite .next (collected.andThen fun _ _ => .next)

theorem requestFrom_refuses {a n : Byte} (legal : s.fg.phase.toNat < 9)
    (guarded : s.fg.phase ≠ 0 → s.drv[d].role = .master) :
    RefusesOnly ok (execRequestFrom d a n s) := by
  unfold execRequestFrom
  dsimp only
  split
  · exact .ite .next .next
  · exact .next
  · exact startTransmission_refuses.andThen fun _ _ => .next
  · exact .next
  · exact .next
  · exact .next
  · exact .next
  · exact .next
  · exact finishReceive_refuses (guarded (by rw [phase_eq (n := 8) ‹_›]; decide))
  · exact absurd legal (by grind)

theorem read_refuses (legal : s.fg.phase.toNat < 2) : RefusesOnly ok (execRead d s) := by
  unfold execRead
  split
  · exact .next
  · exact loadByte_refuses fun _ => .next
  · exact absurd legal (by grind)

/-- R41: a command in progress is at a phase it has. -/
theorem State.Inv.phase_lt (inv : s.Inv) {i : Instr} (hi : s.inProgress = some i) :
    s.fg.phase.toNat < phaseCount i := by
  obtain ⟨busy, decoded⟩ := inProgress_eq_some.mp hi
  obtain ⟨j, hj, legal⟩ := inv.sequencer busy
  cases decoded.symm.trans hj
  exact legal

/-- In a state of the invariant no phase of a command is refused. -/
theorem exec_command_refuses {i : Instr} (inv : s.Inv) (hi : s.inProgress = some i) :
    RefusesOnly ok (exec i s) := by
  have command : phaseCount i ≠ 0 := decodeCmd_phaseCount (inProgress_eq_some.mp hi).2
  have legal := inv.phase_lt hi
  cases i with
  | register | unregister | setSpeed | beginMaster | beginSlave | onRequest | onReceive =>
    exact .next
  | beginTransmission => exact beginTransmission_refuses legal
  | write => exact appendTx_refuses.andThen fun _ _ => .next
  | endTransmission => exact endTransmission_refuses legal
  | requestFrom d => exact requestFrom_refuses legal (inv.guarded _ d hi rfl)
  | read => exact read_refuses legal
  | _ => exact absurd rfl command

end

/-- Settles O58: only an invocation runs callbacks, and no phase of a command is refused. -/
theorem onlyCallbacksAreRefused : Obligations.OnlyCallbacksAreRefused := by
  intro s r inv h
  rcases step_cases s inv.idle with ⟨_, _, _, due, hs⟩ | ⟨_, _, _, _, hs⟩ |
      ⟨_, ⟨i, _, _, hi, hs⟩ | ⟨_, _, _, hs⟩ | ⟨_, _, _, _, hs⟩ | ⟨_, _, hs⟩⟩ <;>
    rw [hs] at h
  · exact ⟨dispatch_refuses r h, by simp [due]⟩
  · cases h
  · exact (exec_command_refuses (ok := fun _ => False) ((tick_settled s).inv inv)
      (by simpa using hi) r h).elim
  · cases h
  · cases h
  · cases h

/-! ### The idle step (log entry 4) -/

/-- A step that passes writes nothing but the arrivals of the IRQ port. -/
theorem tick_eq (s : State) : tick s = { s with irq := (tick s).irq } := by
  unfold tick
  split <;> rfl

/-- Settles O10: of the cases of a step the last one is left, and it only passes. -/
theorem idleBlockWaits : Obligations.IdleBlockWaits := by
  intro s idle none_due free waiting
  refine ⟨?_, by rw [tick_eq]⟩
  rcases step_cases s idle with ⟨_, _, _, due, _⟩ | ⟨_, _, _, due, _⟩ |
      ⟨_, ⟨_, busy, _⟩ | ⟨_, busy, _⟩ | ⟨_, _, _, word, _⟩ | ⟨_, _, hs⟩⟩
  · cases none_due.symm.trans due
  · cases none_due.symm.trans due
  · cases free.symm.trans busy
  · cases free.symm.trans busy
  · cases waiting.symm.trans word
  · exact hs

end Sys2Proof.Machine

/-! SUPPORT. The statement of spec/70_reset_and_hazards.md on the end of a slave answer (R285). -/

namespace Sys2Proof.Machine

/-- Settles O40: TXCS is the count `k` of what was committed, so TXWI = `k` is not past it and still
sends; the TXWI = `k + 1` this leaves is past it, and the next request goes idle. -/
theorem slaveAnswerOneByteTooMany : Obligations.SlaveAnswerOneByteTooMany := by
  intro s d k txwi txcs positive within
  obtain ⟨-, send, -⟩ := slaveRequestServesTheAnswer s d
  have sent := send (by rwa [txwi]) (by rw [txwi, txcs]) (by rwa [txwi])
  rw [txwi] at sent
  have entry : (s.bus.set (s.busOf d) { s.bus[s.busOf d] with txwi := k + 1 })[s.busOf d] =
      { s.bus[s.busOf d] with txwi := k + 1 } := vector_get_set_self ..
  have next := congrArg BusRegs.txwi entry
  have committed := (congrArg BusRegs.txcs entry).trans txcs
  have past := committed.trans_lt (k.lt_succ_self.trans_eq next.symm)
  refine ⟨_, _, sent, rfl, (slaveRequestServesTheAnswer _ d).left ?_ past, rfl, ?_, ?_⟩
  · exact ne_of_eq_of_ne next k.succ_ne_zero
  · exact congrArg BusRegs.txwi (vector_get_set_self ..)
  · exact congrArg BusRegs.txcs (vector_get_set_self ..)

end Sys2Proof.Machine

/-! SUPPORT. The statement of spec/40_registry.md on LOOKUP (R132). -/

namespace Sys2Proof.Machine

/-- R132: LOOKUP completes in every state and writes `found` alone. -/
theorem exec_lookup (b : BusId) (s : State) :
    exec (.lookup b) s = .next (s.setFound (s.lookup b)) := rfl

/-- Settles O14: `found` is given the driver the registry lists for the bus, which a valid entry
alone has. -/
theorem lookupReadsTheRegistry : Obligations.LookupReadsTheRegistry := by
  intro s b
  rw [exec_lookup, State.lookup, State.setFound]

end Sys2Proof.Machine
